-- ==== Sys2Proof/Word.lean ====
section
/-! DEFINITION. The word types of the block, at the widths of 00_scope.md R9. -/

namespace Sys2Proof

/-- One byte of a buffer (R61, R62: every buffer access is one byte). -/
abbrev Byte := BitVec 8

/-- A Symbol is a byte, SYM_W = 8 (R9, R10). -/
abbrev Symbol := BitVec 8

/-- One FrequencyTable count, CNT_W = 32 (R9, R33). -/
abbrev Count := BitVec 32

/-- The command operand IMM, 32 bits, unsigned (R80, R81). -/
abbrev Imm := BitVec 32

/-- A node frequency, FREQ_W = 40 (R9, R138). -/
abbrev Freq := BitVec 40

/-- The body bit count TBITS, TBITS_W = 48 (R9, R29). -/
abbrev TBits := BitVec 48

/-- A node handle, HANDLE_W = 9 (R9, R34). -/
abbrev Handle := BitVec 9

/-- The handle value NULL = 511, "no child" (R9). -/
abbrev nullHandle : Handle := 511#9

/-- A host-readable register word, REG_W = 32 (R9, R22). -/
abbrev RegWord := BitVec 32

/-- A command word, CMD_W = 64 (R9, R80). -/
abbrev CmdWord := BitVec 64

/-- A bit string (R11): the head of the list is bit 0, the branch taken at the root;
`false` is the digit 0 and `true` the digit 1. -/
abbrev Code := List Bool

/-- The 256 Symbol values in ascending order: the `for s in 0..255` of the pseudocode. -/
def allSymbols : List Symbol := (List.range 256).map (BitVec.ofNat 8)

end Sys2Proof
end

