-- ==== Sys2Proof/Config.lean ====
section
/-! DEFINITION. What an implementation fixes (the two OPEN parameters of 00_scope.md R9) and the
free values the spec leaves open. The fixed parameters of R9 are the widths of Word.lean. -/

namespace Sys2Proof

/-- The two OPEN parameters of R9, "the model takes it as an argument": a field of State holds them,
no step changes them, and a statement about every state is about every pair of sizes.
32 bits hold exactly the range up to 2^32 - 1. -/
structure Config where
  ibufSize : BitVec 32
  obufSize : BitVec 32
  deriving DecidableEq, Repr

/-- R9: 1 ≤ IBUF_SIZE and 1 ≤ OBUF_SIZE (the upper bound 2^32 - 1 is the width). -/
def Config.wf (c : Config) : Bool := c.ibufSize != 0 && c.obufSize != 0

/-- DESIGN CHOICE (notes/assumptions/2.md): the sizes of the reset state, 65536 each, the sizes
95_test_vectors.md takes "unless a vector says otherwise". -/
def Config.vectors : Config := { ibufSize := 65536#32, obufSize := 65536#32 }

/-- Free value (notes/assumptions/4.md): the byte a host read of an undefined OBUF location returns, drawn
anew for every such read by the counter of State: R37 "any value, not necessarily the same on two reads". -/
opaque Config.freeByte : Nat → Byte

/-- Free value (notes/assumptions/4.md): what an IBUF byte that no host write has set reads as for the host, by
the number of resets so far and the address: R36, R258 "unspecified if never written", R68 "reading the same
defined location twice gives the same value" with OBUF as the one exception. -/
opaque Config.unwrittenByte : (resets a : Nat) → Byte

end Sys2Proof
end

