-- ==== Sys2Proof/Syntax.lean ====
section
/-! DEFINITION. The eight commands of HTB-1 (R3, R82), one constructor for each row of
spec/opcode_table.json. The pseudo-commands COMPRESS and DECOMPRESS have no opcode and no row
(R87); they are in Machine/Assembler.lean. -/

namespace Sys2Proof

/-- A command (R82). Operands are the fields of the command word (R81): SYM an unsigned 8-bit
number, IMM an unsigned 32-bit number; no other operand form exists. -/
inductive Instr where
  | nop
  | clr
  | ldf (sym : Symbol) (n : Imm)
  | count (n : Imm)
  | build
  | gen
  | encode (n : Imm)
  | decode (m : Imm)
  deriving DecidableEq, Repr

end Sys2Proof
end

