-- ==== Sys2Proof/WellFormed.lean ====
section
/-! DEFINITION. Well-formed command words: the fields of format C (R80), the opcode map (R82) and
the checks of R83 on them. -/

namespace Sys2Proof

/-- The four fields of format C (R80). -/
structure Fields where
  op : BitVec 8
  sym : BitVec 8
  rsv : BitVec 16
  imm : BitVec 32
  deriving DecidableEq, Repr

/-- R82, column "uses SYM": LDF only. -/
def opUsesSym (op : BitVec 8) : Bool := op == 0x02#8

/-- R82, column "uses IMM": LDF, COUNT, ENCODE, DECODE. -/
def opUsesImm (op : BitVec 8) : Bool := op == 0x02#8 || op == 0x03#8 || op == 0x06#8 || op == 0x07#8

/-- R83 (1): a defined opcode, OP ≤ 0x07. -/
def Fields.opDefined (f : Fields) : Bool := f.op ≤ 0x07#8

/-- R83 (2): RSV is zero. -/
def Fields.rsvZero (f : Fields) : Bool := f.rsv == 0

/-- R83 (2): SYM is zero where the command does not use it. -/
def Fields.symZeroIfUnused (f : Fields) : Bool := opUsesSym f.op || f.sym == 0

/-- R83 (2): IMM is zero where the command does not use it. -/
def Fields.immZeroIfUnused (f : Fields) : Bool := opUsesImm f.op || f.imm == 0

/-- The unused fields are zero (R83 (2)). -/
def Fields.unusedZero (f : Fields) : Bool := f.rsvZero && f.symZeroIfUnused && f.immZeroIfUnused

/-- A legal command's fields (R83). -/
def Fields.wf (f : Fields) : Bool := f.opDefined && f.unusedZero

/-- The fields an instruction is written with (R82). -/
def Instr.fields : Instr → Fields
  | .nop => { op := 0x00, sym := 0, rsv := 0, imm := 0 }
  | .clr => { op := 0x01, sym := 0, rsv := 0, imm := 0 }
  | .ldf sym n => { op := 0x02, sym := sym, rsv := 0, imm := n }
  | .count n => { op := 0x03, sym := 0, rsv := 0, imm := n }
  | .build => { op := 0x04, sym := 0, rsv := 0, imm := 0 }
  | .gen => { op := 0x05, sym := 0, rsv := 0, imm := 0 }
  | .encode n => { op := 0x06, sym := 0, rsv := 0, imm := n }
  | .decode m => { op := 0x07, sym := 0, rsv := 0, imm := m }

/-- An instruction is well-formed when its fields are; the types of its operands see to it. -/
def Instr.wf (i : Instr) : Bool := i.fields.wf

/-- One row of the opcode map (R82): a word `w` is the command when `w &&& mask = mtch`. -/
structure OpRow where
  op : BitVec 8
  mtch : CmdWord
  mask : CmdWord
  deriving DecidableEq, Repr

/-- The opcode map of R82, as the spec prints it. -/
def opRows : List OpRow :=
  [ { op := 0x00, mtch := 0x0000000000000000#64, mask := 0xFFFFFFFFFFFFFFFF#64 },
    { op := 0x01, mtch := 0x0100000000000000#64, mask := 0xFFFFFFFFFFFFFFFF#64 },
    { op := 0x02, mtch := 0x0200000000000000#64, mask := 0xFF00FFFF00000000#64 },
    { op := 0x03, mtch := 0x0300000000000000#64, mask := 0xFFFFFFFF00000000#64 },
    { op := 0x04, mtch := 0x0400000000000000#64, mask := 0xFFFFFFFFFFFFFFFF#64 },
    { op := 0x05, mtch := 0x0500000000000000#64, mask := 0xFFFFFFFFFFFFFFFF#64 },
    { op := 0x06, mtch := 0x0600000000000000#64, mask := 0xFFFFFFFF00000000#64 },
    { op := 0x07, mtch := 0x0700000000000000#64, mask := 0xFFFFFFFF00000000#64 } ]

/-- A word is the command of a row (R82). -/
def OpRow.selects (r : OpRow) (w : CmdWord) : Bool := w &&& r.mask == r.mtch

end Sys2Proof
end

