-- ==== Sys2Proof/Decode.lean ====
section
/-! DEFINITION. The command decoder (R83, R84), total on every 64-bit word, and the encoder
(R82, R86: OP·2^56 + SYM·2^48 + IMM). Commands are single 64-bit words written to the CMD port;
there are no instruction bytes in memory and so no byte order of a command (R71, R80). -/

namespace Sys2Proof

/-- The two ways a word is no command (R83). Each carries OP, the ERRINFO of the fault. -/
inductive DecodeError where
  | badOpcode (op : BitVec 8)
  | badReserved (op : BitVec 8)
  deriving DecidableEq, Repr

/-- The fields of a word (R80). -/
def fieldsOf (w : CmdWord) : Fields :=
  { op := w.extractLsb' 56 8, sym := w.extractLsb' 48 8, rsv := w.extractLsb' 32 16,
    imm := w.extractLsb' 0 32 }

/-- The word of four fields (R80). -/
def wordOf (f : Fields) : CmdWord := f.op ++ f.sym ++ f.rsv ++ f.imm

/-- The command a defined opcode stands for (R82), with its operands (R81). -/
def instrOf (f : Fields) : Instr :=
  match f.op.toNat with
  | 0 => .nop
  | 1 => .clr
  | 2 => .ldf f.sym f.imm
  | 3 => .count f.imm
  | 4 => .build
  | 5 => .gen
  | 6 => .encode f.imm
  | _ => .decode f.imm

/-- R83: (1) OP above 0x07 is BAD_OPCODE; (2) a non-zero unused field is BAD_RESERVED; (3) otherwise
the command of R82. -/
def decode (w : CmdWord) : Except DecodeError Instr :=
  let f := fieldsOf w
  if !f.opDefined then .error (.badOpcode f.op)
  else if !f.unusedZero then .error (.badReserved f.op)
  else .ok (instrOf f)

/-- The word of an instruction (R86). -/
def encode (i : Instr) : CmdWord := wordOf i.fields

/-- The exact CLR word, the only one executed while FAULT = 1 (R212). -/
def clrWord : CmdWord := 0x0100000000000000#64

/-- The low `nbits` bits of `w` as a command word, every bit above them 0. -/
def tableWord (nbits w : Nat) : CmdWord := BitVec.ofNat 64 (w % 2 ^ nbits)

/-- The instruction the decoder reads from a word of the opcode table. -/
def decodeTableWord (nbits w : Nat) : Option Instr :=
  match decode (tableWord nbits w) with
  | .ok i => some i
  | .error _ => none

end Sys2Proof
end

