-- ==== Sys2Proof/Machine/State.lean ====
section
/-! DEFINITION. Everything the spec gives the block (10_state.md), the host's actions (R258) that
the block has still to serve, and the reset state (R42). Plain data throughout. -/

namespace Sys2Proof.Machine

open Sys2Proof

/-- Sparse data by key, in one canonical form: keys strictly rising, no entry that equals what an
unlisted key reads as. DESIGN CHOICE (notes/assumptions/7.md). -/
abbrev Tab (α : Type) := List (Nat × α)

/-- A byte buffer. An unlisted address has no value (notes/assumptions/3.md). -/
abbrev Memory := List Host.Cell

/-- R34: LEAF = 0, INTERNAL = 1. -/
inductive NodeKind where
  | leaf
  | internal
  deriving DecidableEq, Repr

/-- One entry of the node arena NODE (R34). -/
structure Node where
  kind : NodeKind
  sym : Symbol
  freq : Freq
  left : Handle
  right : Handle
  deriving DecidableEq, Repr

/-- What the host does (R258), in the words of its table: the actions it may take and those the
spec refuses. A host access during a command is no action (R253: commands are atomic;
notes/assumptions/14.md). -/
inductive HostAct where
  /-- Write a command word to the CMD port. -/
  | command (w : CmdWord)
  /-- Write IBUF[a]. -/
  | writeIbuf (a : Nat) (v : Byte)
  /-- Read IBUF[a]. -/
  | readIbuf (a : Nat)
  /-- Read OBUF[a]. -/
  | readObuf (a : Nat)
  /-- Write OBUF[a]: never allowed. -/
  | writeObuf (a : Nat) (v : Byte)
  /-- Read register number r. -/
  | readReg (r : Nat)
  /-- Write register number r: never allowed. -/
  | writeReg (r : Nat) (v : RegWord)
  /-- Reset the block (R250). -/
  | reset
  deriving DecidableEq, Repr

/-- What the host's last read returned (the model's own: the spec's registers and buffers do not
change on a read, R68). DESIGN CHOICE (notes/assumptions/11.md). -/
inductive Reply where
  | none
  | reg (v : RegWord)
  | byte (v : Byte)
  deriving DecidableEq, Repr

/-- Why the machine stops. A fault of the BLOCK (R220) is never one of these: it is a next state with
the FAULT latch set (Machine/Ops.lean, `raise`). -/
inductive Fault where
  /-- Raised by GEN when TREE_VALID = 1 but NODE holds no finite tree under ROOT: a handle with no
  entry, or a path longer than 255 branches. R43 (d) rules it out in every reachable state.
  DEDUCED (notes/assumptions/8.md). Safe. -/
  | treeBroken
  /-- Raised by a host access to IBUF[a] with a ≥ IBUF_SIZE: R36 gives the buffer the addresses 0 to
  IBUF_SIZE - 1 only. DEDUCED (notes/assumptions/9.md). Safe. -/
  | noIbufByte (a : Nat)
  /-- Raised by a host read of OBUF[a] with a ≥ OBUF_SIZE: R37 gives the buffer the addresses 0 to
  OBUF_SIZE - 1 only. DEDUCED (notes/assumptions/9.md). Safe. -/
  | noObufByte (a : Nat)
  deriving DecidableEq, Repr

/-- What the model gives no meaning. -/
inductive Refusal where
  /-- An instruction without a meaning: none in this model. Safe. -/
  | notModelled (mnemonic : String)
  /-- Raised by COUNT, ENCODE and DECODE when they would read IBUF[a] and no host write has set that
  byte since reset: R36 "a model should refuse a command that reads such a byte". DESIGN CHOICE
  (notes/assumptions/3.md). Safe. -/
  | ibufUnwritten (a : Nat)
  /-- Raised by a host read of register 12 or above: R31 "a model refuses it". Safe. -/
  | noSuchRegister (r : Nat)
  /-- Raised by a host write of a register: R258 "never", "refused (no meaning)". Safe. -/
  | registerWrite (r : Nat)
  /-- Raised by a host write of OBUF: R258 "never", "refused (no meaning)". Safe. -/
  | obufWrite (a : Nat)
  deriving DecidableEq, Repr

/-- The machine. -/
structure State where
  /-- IBUF_SIZE and OBUF_SIZE (R9), fixed for the machine. -/
  cfg : Config
  /-- STATUS[0] FAULT (R23). -/
  fault : Bool
  /-- STATUS[1] TREE_VALID (R23). -/
  treeValid : Bool
  /-- STATUS[2] CT_VALID (R23). -/
  ctValid : Bool
  /-- ERR[15:0]: CLASS in [7:0], SUB in [15:8]; ERR[31:16] read as zero (R22, R24). -/
  err : BitVec 16
  /-- ERRINFO (R25). -/
  errinfo : BitVec 32
  /-- CMDCNT (R26). -/
  cmdcnt : BitVec 32
  /-- ROOT[8:0] (R28). -/
  root : Handle
  /-- NNODES[8:0] (R28). -/
  nnodes : BitVec 9
  /-- ROOTF, read as ROOTF_LO and ROOTF_HI (R28). -/
  rootf : Freq
  /-- TBITS, read as TBITS_LO and TBITS_HI (R29). -/
  tbits : TBits
  /-- OLEN (R30). -/
  olen : BitVec 32
  /-- FT, 256 counts indexed by Symbol; an unlisted symbol has count 0 (R33). -/
  ft : Tab Count
  /-- NODE, 511 entries indexed by handle; an unlisted handle has no value (R34). -/
  node : Tab Node
  /-- CT, 256 codes indexed by Symbol; an unlisted symbol has len = 0 and code = ε (R35). -/
  ct : Tab Code
  /-- IBUF (R36). -/
  ibuf : Memory
  /-- OBUF (R37). -/
  obuf : Memory
  /-- The host's actions still to be served, the next one first (R258, R259). The model's own. -/
  pending : List HostAct
  /-- What the host's last read returned. The model's own. -/
  reply : Reply
  /-- How many free values have been drawn (notes/assumptions/4.md). The model's own. -/
  freeCtr : Nat
  /-- How many resets the host has made; it selects the free values of unwritten IBUF bytes
  (notes/assumptions/4.md). The model's own. -/
  resets : Nat
  deriving DecidableEq, Repr

/-- R42 and R250, for a block with the sizes `c`: every register 0, FT all zero, CT all absent,
nothing specified in NODE, IBUF and OBUF. -/
def State.resetWith (c : Config) : State :=
  { cfg := c, fault := false, treeValid := false, ctValid := false, err := 0, errinfo := 0,
    cmdcnt := 0, root := 0, nnodes := 0, rootf := 0, tbits := 0, olen := 0, ft := [], node := [],
    ct := [], ibuf := [], obuf := [], pending := [], reply := .none, freeCtr := 0, resets := 0 }

/-- The state right after reset (R42). -/
def State.reset : State := State.resetWith Config.vectors

end Sys2Proof.Machine
end

