-- ==== Sys2Proof/Machine/Ops.lean ====
section
/-! DEFINITION. The shared operations: table and buffer access, fault entry (R226) and the return
from it (R211, R231), the counter CMDCNT, and how an engine ends. -/

namespace Sys2Proof.Machine

open Sys2Proof

/-! ### Tables and buffers -/

/-- The entry listed under a key. -/
def tabGet {α : Type} : Tab α → Nat → Option α
  | [], _ => none
  | (k0, v0) :: rest, k => if k0 = k then some v0 else tabGet rest k

/-- List `v` under `k`, keeping the keys in rising order. -/
def tabPut {α : Type} : Tab α → Nat → α → Tab α
  | [], k, v => [(k, v)]
  | (k0, v0) :: rest, k, v =>
    if k < k0 then (k, v) :: (k0, v0) :: rest
    else if k = k0 then (k, v) :: rest
    else (k0, v0) :: tabPut rest k v

/-- List nothing under `k`. -/
def tabDrop {α : Type} (t : Tab α) (k : Nat) : Tab α := t.filter (fun e => e.1 != k)

/-- The keys of a table rise strictly and lie below `bound`. -/
def tabWf {α : Type} (bound : Nat) (t : Tab α) : Bool :=
  decide ((t.map Prod.fst).Pairwise (· < ·)) && t.all (fun e => e.1 < bound)

/-- The canonical form of a buffer: addresses strictly rising. An unlisted address reads as no value,
and no entry equals that. -/
def Memory.wf (m : Memory) : Bool := decide ((m.map Prod.fst).Pairwise (· < ·))

/-- One byte of a buffer, if it has a value. -/
def memGet (m : Memory) (a : Nat) : Option Byte := tabGet m a

/-- One byte of a buffer written. -/
def memPut (m : Memory) (a : Nat) (v : Byte) : Memory := tabPut m a v

/-- `MemWrite(buffer, a, |v|, v)` of R12: the bytes of `v` from address `a` upward (R62). -/
def memWrite (m : Memory) (a : Nat) : List Byte → Memory
  | [] => m
  | b :: bs => memWrite (memPut m a b) (a + 1) bs

/-- FT[s] (R33, R124: an unlisted symbol has count zero). -/
def ftAt (ft : Tab Count) (s : Symbol) : Count := (tabGet ft s.toNat).getD 0

/-- FT[s] <- c. -/
def ftPut (ft : Tab Count) (s : Symbol) (c : Count) : Tab Count :=
  if c = 0 then tabDrop ft s.toNat else tabPut ft s.toNat c

/-- CT[s].code; CT[s].len is its length (R35: an unlisted symbol has the empty code). -/
def ctAt (ct : Tab Code) (s : Symbol) : Code := (tabGet ct s.toNat).getD []

/-- CT[s] <- (len = |c|, code = c). -/
def ctPut (ct : Tab Code) (s : Symbol) (c : Code) : Tab Code :=
  if c = [] then tabDrop ct s.toNat else tabPut ct s.toNat c

/-- NODE[h], for the handles 0 to 510 (R34). -/
def nodeAt (node : Tab Node) (h : Handle) : Option Node :=
  if h = nullHandle then none else tabGet node h.toNat

/-- NODE[h] <- n. -/
def nodePut (node : Tab Node) (h : Handle) (n : Node) : Tab Node := tabPut node h.toNat n

/-- NODE[h].freq; 0 where the entry has no value, which no reachable BUILD meets. DEDUCED
(notes/assumptions/13.md). -/
def freqAt (node : Tab Node) (h : Handle) : Freq := ((nodeAt node h).map Node.freq).getD 0

/-- The symbols s with FT[s] ≠ 0, ascending: the keys of the FrequencyTable (R33, R124). -/
def keys (ft : Tab Count) : List Symbol := allSymbols.filter (fun s => ftAt ft s != 0)

/-- NDIST, the number of keys; a function of FT, not stored (R27). -/
def ndist (ft : Tab Count) : Nat := (keys ft).length

/-- The symbols s with CT[s].len ≠ 0, ascending (R93). -/
def present (ct : Tab Code) : List Symbol := allSymbols.filter (fun s => ctAt ct s != [])

/-- A byte of IBUF the block reads; none where no host write has set it since reset (R36). -/
def ibufAt (s : State) (a : Nat) : Option Byte := memGet s.ibuf a

/-! ### Faults of the block -/

/-- The eighteen fault causes of R220, each with what ERRINFO locates. -/
inductive Cause where
  | emptyInput
  | emptyTable
  | noCode (i : Nat)
  | hdrTrunc (offset : Nat)
  | hdrNsymZero
  | hdrNdistRange (l : Nat)
  | hdrLenZero (k : Nat)
  | hdrDupSymbol (k : Nat)
  | hdrPrefixConflict (k : Nat)
  | hdrTreeOverflow (k : Nat)
  | bodyTrunc (em : Nat)
  | walkInvalid (bp : Nat)
  | badOpcode (op : BitVec 8)
  | badReserved (op : BitVec 8)
  | noTree
  | noTable
  | srcRange (n : Imm)
  | dstOverflow
  deriving DecidableEq, Repr

/-- CLASS (R220): 1 InputError, 2 EncodingError, 3 DecodingError, 4 IllegalCommand, 5 SequenceError,
6 CapacityError. -/
def causeClass : Cause → BitVec 8
  | .emptyInput | .emptyTable => 1
  | .noCode _ => 2
  | .hdrTrunc _ | .hdrNsymZero | .hdrNdistRange _ | .hdrLenZero _ | .hdrDupSymbol _
  | .hdrPrefixConflict _ | .hdrTreeOverflow _ | .bodyTrunc _ | .walkInvalid _ => 3
  | .badOpcode _ | .badReserved _ => 4
  | .noTree | .noTable => 5
  | .srcRange _ | .dstOverflow => 6

/-- SUB (R220). -/
def causeSub : Cause → BitVec 8
  | .emptyInput => 1
  | .emptyTable => 2
  | .noCode _ => 1
  | .hdrTrunc _ => 1
  | .hdrNsymZero => 2
  | .hdrNdistRange _ => 3
  | .hdrLenZero _ => 4
  | .hdrDupSymbol _ => 5
  | .hdrPrefixConflict _ => 6
  | .hdrTreeOverflow _ => 7
  | .bodyTrunc _ => 8
  | .walkInvalid _ => 9
  | .badOpcode _ => 1
  | .badReserved _ => 2
  | .noTree => 1
  | .noTable => 2
  | .srcRange _ => 1
  | .dstOverflow => 2

/-- ERR[15:0] = SUB·256 + CLASS (R220, R226). -/
def causeErr (c : Cause) : BitVec 16 := causeSub c ++ causeClass c

/-- The last column of R220's table (R228). -/
def causeInfo : Cause → Nat
  | .noCode i => i
  | .hdrTrunc offset => offset
  | .hdrNdistRange l => l
  | .hdrLenZero k | .hdrDupSymbol k | .hdrPrefixConflict k | .hdrTreeOverflow k => k
  | .bodyTrunc em => em
  | .walkInvalid bp => bp
  | .badOpcode op | .badReserved op => op.toNat
  | .srcRange n => n.toNat
  | .emptyInput | .emptyTable | .hdrNsymZero | .noTree | .noTable | .dstOverflow => 0

/-- Fault entry (R226): FAULT <- 1, ERR <- SUB·256 + CLASS, ERRINFO <- info mod 2^32, OLEN <- 0, and
nothing else; control goes nowhere, the block waits for the next command word. -/
def raise (c : Cause) (s : State) : State :=
  { s with fault := true, err := causeErr c, errinfo := BitVec.ofNat 32 (causeInfo c), olen := 0 }

/-- The return from a fault (R211, R231): the whole effect of CLR. CMDCNT, NODE and the bytes of both
buffers stay. -/
def clearBlock (s : State) : State :=
  { s with fault := false, treeValid := false, ctValid := false, err := 0, errinfo := 0,
           root := 0, nnodes := 0, rootf := 0, tbits := 0, olen := 0, ft := [], ct := [] }

/-- CMDCNT <- (CMDCNT + 1) mod 2^32 (R26, R212). -/
def bumpCmdcnt (s : State) : State := { s with cmdcnt := s.cmdcnt + 1 }

/-- The fault a word that is no command raises (R83, R84, R224). -/
def decodeCause : DecodeError → Cause
  | .badOpcode op => .badOpcode op
  | .badReserved op => .badReserved op

/-! ### How an engine ends -/

/-- An engine that does not complete: it raises a fault, with OBUF as it has written it so far (R230:
OBUF is the only state a faulting command may have changed; notes/assumptions/10.md), or the model
refuses it. -/
inductive Stop where
  | raised (c : Cause) (obuf : Memory)
  | refused (r : Refusal)
  deriving DecidableEq, Repr

/-- The outcome of a command that an engine stopped, in the state it began in. -/
def stopOutcome (s : State) : Stop → Host.Outcome State Fault Refusal
  | .raised c obuf => .next (raise c { s with obuf := obuf })
  | .refused r => .refused r

/-- An engine reads IBUF[a]: R36, a byte that no host write has set is refused
(notes/assumptions/3.md, and 16.md for the order of reads and tests). -/
def readByte (ibuf : Memory) (a : Nat) : Except Stop Byte :=
  match memGet ibuf a with
  | some b => .ok b
  | none => .error (.refused (.ibufUnwritten a))

end Sys2Proof.Machine
end

