-- ==== Sys2Proof/Machine/Operands.lean ====
section
/-! DEFINITION. The operand forms of the spec: IMM as a number (R81), header integers (R63), and the
packing of bit strings into bytes and back (R64, R65). -/

namespace Sys2Proof.Machine

open Sys2Proof

/-- IMM as a number: unsigned, zero-extended wherever it meets a wider quantity (R81). -/
def immNat (n : Imm) : Nat := n.toNat

/-- BE32(b0, b1, b2, b3) of R12 and R63. -/
def beToNat32 (b0 b1 b2 b3 : Byte) : Nat :=
  b0.toNat * 2 ^ 24 + b1.toNat * 2 ^ 16 + b2.toNat * 2 ^ 8 + b3.toNat

/-- BE16(b0, b1) of R12 and R63. -/
def beToNat16 (b0 b1 : Byte) : Nat := b0.toNat * 2 ^ 8 + b1.toNat

/-- be32(v), the four bytes of a 32-bit integer, most significant first (R12, R63). -/
def be32 (v : Nat) : List Byte :=
  [BitVec.ofNat 8 (v / 2 ^ 24), BitVec.ofNat 8 (v / 2 ^ 16), BitVec.ofNat 8 (v / 2 ^ 8), BitVec.ofNat 8 v]

/-- be16(v), the two bytes of a 16-bit integer, most significant first (R12, R63). -/
def be16 (v : Nat) : List Byte := [BitVec.ofNat 8 (v / 2 ^ 8), BitVec.ofNat 8 v]

/-- ceil(n / 8). -/
def bytesFor (n : Nat) : Nat := (n + 7) / 8

/-- The first eight bits of a bit string as a byte, absent bits 0: bit j weighs 2^(7-j) (R64). -/
def packByte (c : Code) : Byte :=
  BitVec.ofNat 8 (((List.range 8).map (fun j => if c.getD j false then 2 ^ (7 - j) else 0)).sum)

/-- pack(c) of R64: byte k holds the bits 8k to 8k + 7, the unused low bits of the last byte 0. -/
def pack (c : Code) : List Byte :=
  (List.range (bytesFor c.length)).map (fun k => packByte (c.drop (8 * k)))

/-- bit(byte, j) = (byte >> (7 - j)) & 1, for j in 0..7 (R12). -/
def byteBit (b : Byte) (j : Nat) : Bool := (b >>> (7 - j)) &&& 1 == 1

/-- Bit i of the packed bit string that starts at IBUF[a] (R65). -/
def readBit (ibuf : Memory) (a i : Nat) : Except Stop Bool :=
  match readByte ibuf (a + i / 8) with
  | .ok b => .ok (byteBit b (i % 8))
  | .error e => .error e

end Sys2Proof.Machine
end

