-- ==== Sys2Proof/Machine/Flags.lean ====
section
/-! DEFINITION. The flags of STATUS (R22, R23, R32): what each command does to TREE_VALID and CT_VALID,
and the word STATUS reads as. There are no arithmetic condition codes (R32). -/

namespace Sys2Proof.Machine

open Sys2Proof

/-- LDF and a successful COUNT: FT has changed, so TREE_VALID <- 0 and CT_VALID <- 0 (R23, R255). -/
def dropTree (s : State) : State := { s with treeValid := false, ctValid := false }

/-- A successful BUILD: TREE_VALID <- 1 and CT_VALID <- 0 (R23, R255). -/
def setTree (s : State) : State := { s with treeValid := true, ctValid := false }

/-- A successful GEN: CT_VALID <- 1 (R23). -/
def setTable (s : State) : State := { s with ctValid := true }

/-- STATUS: [0] FAULT, [1] TREE_VALID, [2] CT_VALID, [31:3] zero (R22). -/
def statusWord (s : State) : RegWord :=
  0#29 ++ BitVec.ofBool s.ctValid ++ BitVec.ofBool s.treeValid ++ BitVec.ofBool s.fault

end Sys2Proof.Machine
end

