-- ==== Sys2Proof/Machine/BitDecoder.lean ====
section
/-! DEFINITION. The Bit Decoder command DECODE (44_bit_decoder.md). -/

namespace Sys2Proof.Machine

open Sys2Proof

/-- One entry of the decoder's tree DT (R39): a node without a frequency. -/
structure DtNode where
  kind : NodeKind
  sym : Symbol
  left : Handle
  right : Handle
  deriving DecidableEq, Repr

/-- An INTERNAL entry with two NULL children, the root DT[0] among them (R183). -/
def dtInternal : DtNode := { kind := .internal, sym := 0, left := nullHandle, right := nullHandle }

/-- A LEAF entry (R183). -/
def dtLeaf (sym : Symbol) : DtNode := { kind := .leaf, sym := sym, left := nullHandle, right := nullHandle }

/-- DT[h] of the allocated entries; `dn` is the length of the list (R39). -/
def dtAt (dt : List DtNode) (h : Handle) : DtNode := dt.getD h.toNat dtInternal

/-- The child a bit selects: left for 0, right for 1 (R183, R187). -/
def dtChild (dt : List DtNode) (h : Handle) (b : Bool) : Handle :=
  if b then (dtAt dt h).right else (dtAt dt h).left

/-- DT[h].left <- c or DT[h].right <- c. -/
def dtLink (dt : List DtNode) (h : Handle) (b : Bool) (c : Handle) : List DtNode :=
  dt.set h.toNat (if b then { dtAt dt h with right := c } else { dtAt dt h with left := c })

/-- Allocate DT[dn] and make it the child of `h` on side `b` (R183). -/
def dtGrow (dt : List DtNode) (h : Handle) (b : Bool) (n : DtNode) : List DtNode :=
  dtLink dt h b (BitVec.ofNat 9 dt.length) ++ [n]

/-- Insert the code of entry `k`, whose packed bits start at IBUF[p], as a path (R183): `rem` bits from
bit `j` on, from node `cur`. HDR_TREE_OVERFLOW, HDR_PREFIX_CONFLICT. -/
def insertCode (ibuf obuf : Memory) (sym : Symbol) (k p : Nat) :
    (rem j : Nat) → (cur : Handle) → List DtNode → Except Stop (List DtNode)
  | 0, _, _, dt => .ok dt
  | rem + 1, j, cur, dt =>
    match readBit ibuf p j with
    | .error e => .error e
    | .ok b =>
      let child := dtChild dt cur b
      if child = nullHandle then
        if dt.length = 511 then .error (.raised (.hdrTreeOverflow k) obuf)
        else insertCode ibuf obuf sym k p rem (j + 1) (BitVec.ofNat 9 dt.length)
          (dtGrow dt cur b (if rem = 0 then dtLeaf sym else dtInternal))
      else if rem = 0 then .error (.raised (.hdrPrefixConflict k) obuf)
      else if (dtAt dt child).kind = .leaf then .error (.raised (.hdrPrefixConflict k) obuf)
      else insertCode ibuf obuf sym k p rem (j + 1) child dt

/-- The frame-parse state (R40): the offset `p`, the set `seen`, and DT. -/
structure Parse where
  p : Nat
  seen : List Symbol
  dt : List DtNode
  deriving DecidableEq, Repr

/-- Parse entry `k` of a frame of `m` bytes (R182): HDR_TRUNC, HDR_LEN_ZERO, HDR_DUP_SYMBOL, HDR_TRUNC,
then its code (R183). -/
def parseEntry (ibuf obuf : Memory) (m k : Nat) (ps : Parse) : Except Stop Parse :=
  if m < ps.p + 2 then .error (.raised (.hdrTrunc ps.p) obuf)
  else
    match readByte ibuf ps.p with
    | .error e => .error e
    | .ok sym =>
      match readByte ibuf (ps.p + 1) with
      | .error e => .error e
      | .ok lenByte =>
        let len := lenByte.toNat
        let p := ps.p + 2
        if len = 0 then .error (.raised (.hdrLenZero k) obuf)
        else if ps.seen.contains sym then .error (.raised (.hdrDupSymbol k) obuf)
        else if m < p + bytesFor len then .error (.raised (.hdrTrunc p) obuf)
        else
          match insertCode ibuf obuf sym k p len 0 0 ps.dt with
          | .error e => .error e
          | .ok dt => .ok { p := p + bytesFor len, seen := sym :: ps.seen, dt := dt }

/-- The `cnt` entries from entry `k` on. -/
def parseEntries (ibuf obuf : Memory) (m : Nat) : (cnt k : Nat) → Parse → Except Stop Parse
  | 0, _, ps => .ok ps
  | cnt + 1, k, ps =>
    match parseEntry ibuf obuf m k ps with
    | .error e => .error e
    | .ok ps1 => parseEntries ibuf obuf m cnt (k + 1) ps1

/-- NSYM of a frame of `m` bytes (R181). -/
def parseNsym (ibuf obuf : Memory) (m : Nat) : Except Stop Nat :=
  if m < 4 then .error (.raised (.hdrTrunc 0) obuf)
  else
    match readByte ibuf 0, readByte ibuf 1, readByte ibuf 2, readByte ibuf 3 with
    | .ok b0, .ok b1, .ok b2, .ok b3 =>
      if beToNat32 b0 b1 b2 b3 = 0 then .error (.raised .hdrNsymZero obuf)
      else .ok (beToNat32 b0 b1 b2 b3)
    | .error e, _, _, _ => .error e
    | _, .error e, _, _ => .error e
    | _, _, .error e, _ => .error e
    | _, _, _, .error e => .error e

/-- NDIST of a frame of `m` bytes (R181). -/
def parseNdist (ibuf obuf : Memory) (m : Nat) : Except Stop Nat :=
  if m < 6 then .error (.raised (.hdrTrunc 4) obuf)
  else
    match readByte ibuf 4, readByte ibuf 5 with
    | .ok b0, .ok b1 =>
      if beToNat16 b0 b1 = 0 ∨ 256 < beToNat16 b0 b1 then
        .error (.raised (.hdrNdistRange (beToNat16 b0 b1)) obuf)
      else .ok (beToNat16 b0 b1)
    | .error e, _ => .error e
    | _, .error e => .error e

/-- The parse state before the first entry: p = 6, nothing seen, DT[0] an INTERNAL root (R183). -/
def parseStart : Parse := { p := 6, seen := [], dt := [dtInternal] }

/-- The whole header (R181 to R184): NSYM, and the parse state after the last entry. -/
def parseHeader (ibuf obuf : Memory) (m : Nat) : Except Stop (Nat × Parse) :=
  match parseNsym ibuf obuf m with
  | .error e => .error e
  | .ok n =>
    match parseNdist ibuf obuf m with
    | .error e => .error e
    | .ok l =>
      match parseEntries ibuf obuf m l 0 parseStart with
      | .error e => .error e
      | .ok ps => .ok (n, ps)

/-- The walk state (R40, R186), with OBUF. -/
structure Walk where
  cur : Handle
  bp : Nat
  em : Nat
  obuf : Memory
  deriving DecidableEq, Repr

/-- The states of the document's state machine (R40, R186). -/
inductive WalkPhase where
  | atRoot
  | atInternal (node : Handle)
  | done
  deriving DecidableEq, Repr

/-- R40: DONE is em = N; AT_ROOT is cur = 0 with em < N; AT_INTERNAL(node) is cur = node ≠ 0. -/
def walkPhase (n : Nat) (w : Walk) : WalkPhase :=
  if n ≤ w.em then .done else if w.cur = 0 then .atRoot else .atInternal w.cur

/-- One transition of the walk on body bit `b` (R187): WALK_INVALID (R189), or exactly one bit consumed. -/
def walkStep (dt : List DtNode) (b : Bool) (w : Walk) : Except Stop Walk :=
  let child := dtChild dt w.cur b
  if child = nullHandle then .error (.raised (.walkInvalid w.bp) w.obuf)
  else if (dtAt dt child).kind = .leaf then
    .ok { cur := 0, bp := w.bp + 1, em := w.em + 1, obuf := memPut w.obuf w.em (dtAt dt child).sym }
  else .ok { w with cur := child, bp := w.bp + 1 }

/-- The loop `while em < N` (R180, R187), `rem` body bits being left: BODY_TRUNC when none is (R188). -/
def walkLoop (ibuf : Memory) (dt : List DtNode) (p n : Nat) : (rem : Nat) → Walk → Except Stop Walk
  | rem, w =>
    if n ≤ w.em then .ok w
    else
      match rem with
      | 0 => .error (.raised (.bodyTrunc w.em) w.obuf)
      | rem + 1 =>
        match readBit ibuf p w.bp with
        | .error e => .error e
        | .ok b =>
          match walkStep dt b w with
          | .error e => .error e
          | .ok w1 => walkLoop ibuf dt p n rem w1

/-- The frame of `m` bytes decoded (R180): NSYM and the final walk state. -/
def readFrame (ibuf : Memory) (size m : Nat) (obuf : Memory) : Except Stop (Nat × Walk) :=
  match parseHeader ibuf obuf m with
  | .error e => .error e
  | .ok (n, ps) =>
    if size < n then .error (.raised .dstOverflow obuf)
    else
      match walkLoop ibuf ps.dt ps.p n (8 * (m - ps.p)) { cur := 0, bp := 0, em := 0, obuf := obuf } with
      | .error e => .error e
      | .ok w => .ok (n, w)

/-- DECODE m (R180): SRC_RANGE, then the frame; on success OLEN <- N. -/
def execDecode (m : Imm) (s : State) : Host.Outcome State Fault Refusal :=
  if s.cfg.ibufSize < m then .next (raise (.srcRange m) s)
  else match readFrame s.ibuf s.cfg.obufSize.toNat (immNat m) s.obuf with
    | .error e => stopOutcome s e
    | .ok (n, w) => .next { s with obuf := w.obuf, olen := BitVec.ofNat 32 n }

end Sys2Proof.Machine
end

