-- ==== Sys2Proof/Machine/BitEncoder.lean ====
section
/-! DEFINITION. The Bit Encoder command ENCODE (43_bit_encoder.md) and the frame header it writes
(30_encoding.md R90 to R95). -/

namespace Sys2Proof.Machine

open Sys2Proof

/-- One entry of the serialized code table (R92): SYM, LEN, pack(code). LEN is narrowed to its byte;
no reachable code passes 255 bits. DEDUCED (notes/assumptions/13.md). -/
def headerEntry (sym : Symbol) (c : Code) : List Byte :=
  sym :: BitVec.ofNat 8 c.length :: pack c

/-- The entries of the present symbols, ascending (R93). -/
def headerEntries (ct : Tab Code) : List Byte :=
  (present ct).flatMap (fun sym => headerEntry sym (ctAt ct sym))

/-- The header (R91, R161): NSYM = n, NDIST = the number of present entries, the entries. -/
def header (n : Nat) (ct : Tab Code) : List Byte :=
  be32 n ++ be16 (present ct).length ++ headerEntries ct

/-- The packing state (R41): pending bits, the next OBUF address, the body bits so far, and OBUF. -/
structure PackState where
  acc : Code
  wp : Nat
  total : Nat
  obuf : Memory
  deriving DecidableEq, Repr

/-- Write the next body byte, the first eight bits of `acc` (zero padded), unless it would lie at or above
OBUF_SIZE (R165). -/
def putBodyByte (size : Nat) (ps : PackState) : Except Stop PackState :=
  if size ≤ ps.wp then .error (.raised .dstOverflow ps.obuf)
  else .ok { ps with acc := ps.acc.drop 8, wp := ps.wp + 1,
                     obuf := memPut ps.obuf ps.wp (packByte ps.acc) }

/-- The loop `while |acc| >= 8` (R160), which runs |acc| div 8 times; `k` is that number. -/
def flushBytes (size : Nat) : (k : Nat) → PackState → Except Stop PackState
  | 0, ps => .ok ps
  | k + 1, ps =>
    match putBodyByte size ps with
    | .error e => .error e
    | .ok ps1 => flushBytes size k ps1

/-- Append one symbol's code, bit 0 first, and write the bytes that are complete (R160, R162). -/
def appendCode (size : Nat) (c : Code) (ps : PackState) : Except Stop PackState :=
  let acc := ps.acc ++ c
  flushBytes size (acc.length / 8) { ps with acc := acc, total := ps.total + c.length }

/-- The body loop (R160) over the `k` symbols from IBUF[i] on: NO_CODE before the writes the symbol's bits
cause (R165). -/
def encodeLoop (ct : Tab Code) (ibuf : Memory) (size : Nat) :
    (k i : Nat) → PackState → Except Stop PackState
  | 0, _, ps => .ok ps
  | k + 1, i, ps =>
    match readByte ibuf i with
    | .error e => .error e
    | .ok x =>
      if ctAt ct x = [] then .error (.raised (.noCode i) ps.obuf)
      else
        match appendCode size (ctAt ct x) ps with
        | .error e => .error e
        | .ok ps1 => encodeLoop ct ibuf size k (i + 1) ps1

/-- The final partial byte, zero padded (R163). -/
def flushLast (size : Nat) (ps : PackState) : Except Stop PackState :=
  if ps.acc = [] then .ok ps else putBodyByte size ps

/-- The frame (R160): the header tested and written whole, then the body. -/
def writeFrame (ct : Tab Code) (ibuf : Memory) (size n : Nat) (obuf : Memory) : Except Stop PackState :=
  let h := header n ct
  if size < h.length then .error (.raised .dstOverflow obuf)
  else
    match encodeLoop ct ibuf size n 0
        { acc := [], wp := h.length, total := 0, obuf := memWrite obuf 0 h } with
    | .error e => .error e
    | .ok ps => flushLast size ps

/-- ENCODE n (R160): NO_TABLE, EMPTY_INPUT, SRC_RANGE, then the frame; on success OLEN and TBITS. -/
def execEncode (n : Imm) (s : State) : Host.Outcome State Fault Refusal :=
  if s.ctValid = false then .next (raise .noTable s)
  else if n = 0 then .next (raise .emptyInput s)
  else if s.cfg.ibufSize < n then .next (raise (.srcRange n) s)
  else match writeFrame s.ct s.ibuf s.cfg.obufSize.toNat (immNat n) s.obuf with
    | .error e => stopOutcome s e
    | .ok ps => .next { s with obuf := ps.obuf, olen := BitVec.ofNat 32 ps.wp,
                               tbits := BitVec.ofNat 48 ps.total }

end Sys2Proof.Machine
end

