-- ==== Sys2Proof/Machine/CodeTable.lean ====
section
/-! DEFINITION. The Code Table Generator command GEN (42_code_table_generator.md). -/

namespace Sys2Proof.Machine

open Sys2Proof

/-- visit(h, path) of R150 and R151, with at most `depth` branches below `h`: a leaf records the path as
its symbol's code; an internal node visits its left child with '0' appended, then its right child with
'1' appended. None where NODE holds no node at `h` or the path grows past the depth. -/
def visit (node : Tab Node) : (depth : Nat) → Handle → Code → Tab Code → Option (Tab Code)
  | depth, h, path, ct =>
    match nodeAt node h with
    | none => none
    | some n =>
      match n.kind with
      | .leaf => some (ctPut ct n.sym path)
      | .internal =>
        match depth with
        | 0 => none
        | depth + 1 =>
          match visit node depth n.left (path ++ [false]) ct with
          | none => none
          | some ct1 => visit node depth n.right (path ++ [true]) ct1

/-- The code table of the tree under `root`, CT having been cleared: the one-bit code '0' for a tree that
is a single leaf (R152), else the traversal, 255 branches deep at most (R151). -/
def codesOf (node : Tab Node) (root : Handle) : Option (Tab Code) :=
  match nodeAt node root with
  | none => none
  | some n =>
    match n.kind with
    | .leaf => some (ctPut [] n.sym [false])
    | .internal => visit node 255 root [] []

/-- GEN (R150): NO_TREE, or CT and CT_VALID. -/
def execGen (s : State) : Host.Outcome State Fault Refusal :=
  if s.treeValid = false then .next (raise .noTree s)
  else match codesOf s.node s.root with
    | none => .fault .treeBroken
    | some ct => .next (setTable { s with ct := ct })

end Sys2Proof.Machine
end

