-- ==== Sys2Proof/Machine/Control.lean ====
section
/-! DEFINITION. The control commands NOP and CLR (45_control_commands.md). -/

namespace Sys2Proof.Machine

open Sys2Proof

/-- NOP (R210): no effect but the CMDCNT increment that accepting the word has made. -/
def execNop (s : State) : Host.Outcome State Fault Refusal := .next s

/-- CLR (R211). -/
def execClr (s : State) : Host.Outcome State Fault Refusal := .next (clearBlock s)

end Sys2Proof.Machine
end

