-- ==== Sys2Proof/Machine/FrequencyCounter.lean ====
section
/-! DEFINITION. The Frequency Counter commands LDF and COUNT (40_frequency_counter.md). -/

namespace Sys2Proof.Machine

open Sys2Proof

/-- LDF s, n (R123): FT[s] <- n, TREE_VALID <- 0, CT_VALID <- 0, always. -/
def execLdf (sym : Symbol) (n : Imm) (s : State) : Host.Outcome State Fault Refusal :=
  .next (dropTree { s with ft := ftPut s.ft sym n })

/-- The loop of COUNT (R120) over the `k` bytes from IBUF[i] on: FT[IBUF[i]] <- FT[IBUF[i]] + 1. -/
def countLoop (ibuf : Memory) : (k i : Nat) → Tab Count → Except Stop (Tab Count)
  | 0, _, ft => .ok ft
  | k + 1, i, ft =>
    match readByte ibuf i with
    | .error e => .error e
    | .ok x => countLoop ibuf k (i + 1) (ftPut ft x (ftAt ft x + 1))

/-- COUNT n (R120): EMPTY_INPUT, then SRC_RANGE, then FT is cleared and counted anew. -/
def execCount (n : Imm) (s : State) : Host.Outcome State Fault Refusal :=
  if n = 0 then .next (raise .emptyInput s)
  else if s.cfg.ibufSize < n then .next (raise (.srcRange n) s)
  else match countLoop s.ibuf (immNat n) 0 [] with
    | .error e => stopOutcome s e
    | .ok ft => .next (dropTree { s with ft := ft })

end Sys2Proof.Machine
end

