-- ==== Sys2Proof/Machine/TreeBuilder.lean ====
section
/-! DEFINITION. The Tree Builder command BUILD (41_tree_builder.md). -/

namespace Sys2Proof.Machine

open Sys2Proof

/-- The leaf of a key (R131). -/
def leafNode (ft : Tab Count) (sym : Symbol) : Node :=
  { kind := .leaf, sym := sym, freq := (ftAt ft sym).setWidth 40, left := nullHandle, right := nullHandle }

/-- NODE[h], NODE[h+1], … <- the leaves of the given keys (R131). -/
def putLeaves (ft : Tab Count) : List Symbol → (h : Nat) → Tab Node → Tab Node
  | [], _, node => node
  | sym :: rest, h, node =>
    putLeaves ft rest (h + 1) (nodePut node (BitVec.ofNat 9 h) (leafNode ft sym))

/-- Handle `a` is extracted before handle `b` (R132): lower frequency, or equal frequency and lower
handle. -/
def before (node : Tab Node) (a b : Handle) : Bool :=
  freqAt node a < freqAt node b || (freqAt node a == freqAt node b && a < b)

/-- The least element of a non-empty PQ in the order of R132: the least of `h` and the rest. -/
def leastFrom (node : Tab Node) : Handle → List Handle → Handle
  | h, [] => h
  | h, x :: rest => leastFrom node (if before node x h then x else h) rest

/-- Extract the least element: it, and PQ without it; none when PQ is empty. -/
def extractLeast (node : Tab Node) (pq : List Handle) : Option (Handle × List Handle) :=
  match pq with
  | [] => none
  | h :: rest =>
    let a := leastFrom node h rest
    some (a, pq.erase a)

/-- What the merge loop works on: the collection PQ (R38), the next free handle, and NODE. -/
structure Merge where
  pq : List Handle
  next : Handle
  node : Tab Node
  deriving DecidableEq, Repr

/-- The internal node of two extracted handles (R133): the first is the left child. -/
def mergeNode (node : Tab Node) (a b : Handle) : Node :=
  { kind := .internal, sym := 0, freq := freqAt node a + freqAt node b, left := a, right := b }

/-- One merge step (R133); none when PQ has fewer than two elements. -/
def mergeStep (m : Merge) : Option Merge :=
  match extractLeast m.node m.pq with
  | none => none
  | some (a, pq1) =>
    match extractLeast m.node pq1 with
    | none => none
    | some (b, pq2) =>
      some { pq := pq2 ++ [m.next], next := m.next + 1,
             node := nodePut m.node m.next (mergeNode m.node a b) }

/-- The loop `while |PQ| > 1`, which runs |PQ| - 1 times (R133); `k` is that number. -/
def mergeLoop : (k : Nat) → Merge → Merge
  | 0, m => m
  | k + 1, m =>
    match mergeStep m with
    | none => m
    | some m' => mergeLoop k m'

/-- The handles 0 to l - 1, the PQ that BUILD starts with. -/
def leafHandles (l : Nat) : List Handle := (List.range l).map (BitVec.ofNat 9)

/-- PQ, `next` and NODE when the merge loop begins. -/
def mergeStart (s : State) : Merge :=
  let l := ndist s.ft
  { pq := leafHandles l, next := BitVec.ofNat 9 l, node := putLeaves s.ft (keys s.ft) 0 s.node }

/-- BUILD (R130): EMPTY_TABLE, or the tree, its registers (R136) and its flags. ROOT is the one element
PQ ends with. -/
def execBuild (s : State) : Host.Outcome State Fault Refusal :=
  let l := ndist s.ft
  if l = 0 then .next (raise .emptyTable s)
  else
    let m := mergeLoop (l - 1) (mergeStart s)
    let root := m.pq.headD 0
    .next (setTree { s with node := m.node, root := root, nnodes := BitVec.ofNat 9 (2 * l - 1),
                            rootf := freqAt m.node root })

end Sys2Proof.Machine
end

