-- ==== Sys2Proof/Machine/Dispatch.lean ====
section
/-! DEFINITION. One arm for each command (R82). -/

namespace Sys2Proof.Machine

open Sys2Proof

def exec (i : Instr) (s : State) : Host.Outcome State Fault Refusal :=
  match i with
  | .nop => Sys2Proof.Machine.execNop s
  | .clr => Sys2Proof.Machine.execClr s
  | .ldf sym n => Sys2Proof.Machine.execLdf sym n s
  | .count n => Sys2Proof.Machine.execCount n s
  | .build => Sys2Proof.Machine.execBuild s
  | .gen => Sys2Proof.Machine.execGen s
  | .encode n => Sys2Proof.Machine.execEncode n s
  | .decode m => Sys2Proof.Machine.execDecode m s

end Sys2Proof.Machine
end

