-- ==== Sys2Proof/Machine/Accept.lean ====
section
/-! DEFINITION. What the block does with a command word written to the CMD port (R212). The
CMDCNT increment stands here and not in `exec`: DESIGN CHOICE (notes/assumptions/17.md). -/

namespace Sys2Proof.Machine

open Sys2Proof

/-- accept(w) of R212: CMDCNT first; while FAULT = 1 only the exact CLR word executes and every other word
is discarded; otherwise the word is decoded (R83) and executed, or raises IllegalCommand (R224). -/
def acceptWord (w : CmdWord) (s : State) : Host.Outcome State Fault Refusal :=
  let s1 := bumpCmdcnt s
  if s1.fault then
    if w = clrWord then exec .clr s1 else .next s1
  else
    match decode w with
    | .ok i => exec i s1
    | .error e => .next (raise (decodeCause e) s1)

end Sys2Proof.Machine
end

