-- ==== Sys2Proof/Machine/HostPort.lean ====
section
/-! DEFINITION. The host interface (R258): what each host action does, the register map (R22), and
reset (R250). -/

namespace Sys2Proof.Machine

open Sys2Proof

/-- REG[r], the twelve registers of R22; none for the numbers 12 and above (R31). -/
def readReg (s : State) : Nat → Option RegWord
  | 0 => some (statusWord s)
  | 1 => some (s.err.setWidth 32)
  | 2 => some s.errinfo
  | 3 => some s.cmdcnt
  | 4 => some (BitVec.ofNat 32 (ndist s.ft))
  | 5 => some (s.root.setWidth 32)
  | 6 => some (s.nnodes.setWidth 32)
  | 7 => some (s.rootf.extractLsb' 0 32)
  | 8 => some ((s.rootf.extractLsb' 32 8).setWidth 32)
  | 9 => some (s.tbits.extractLsb' 0 32)
  | 10 => some ((s.tbits.extractLsb' 32 16).setWidth 32)
  | 11 => some s.olen
  | _ => none

/-- The byte OBUF[a] has for the host, if it is defined (R37): written, and below OLEN. -/
def obufDefined (s : State) (a : Nat) : Option Byte :=
  if a < s.olen.toNat then memGet s.obuf a else none

/-- The byte IBUF[a] reads as for the host (R36, R258): the one last written, or a free value that stays the same
until a write or reset (R68; notes/assumptions/4.md). -/
def ibufRead (s : State) (a : Nat) : Byte := (ibufAt s a).getD (Config.unwrittenByte s.resets a)

/-- The host is answered with a byte of OBUF: the one that is defined, or a free value drawn anew (R37;
notes/assumptions/4.md). -/
def answerByte (s : State) : Option Byte → State
  | some b => { s with reply := .byte b }
  | none => { s with reply := .byte (Config.freeByte s.freeCtr), freeCtr := s.freeCtr + 1 }

/-- Reset (R250, R42): the block is as R42 says; NODE is not cleared (R34), and what is the host's (its
remaining actions, its last reply) and the count of free values stay. The reset is counted. -/
def resetBlock (s : State) : State :=
  { State.resetWith s.cfg with node := s.node, pending := s.pending, reply := s.reply, freeCtr := s.freeCtr,
                               resets := s.resets + 1 }

/-- One action of the host (R258). -/
def hostAct (a : HostAct) (s : State) : Host.Outcome State Fault Refusal :=
  match a with
  | .command w => acceptWord w s
  | .writeIbuf a v =>
    if s.cfg.ibufSize.toNat ≤ a then .fault (.noIbufByte a)
    else .next { s with ibuf := memPut s.ibuf a v }
  | .readIbuf a =>
    if s.cfg.ibufSize.toNat ≤ a then .fault (.noIbufByte a)
    else .next { s with reply := .byte (ibufRead s a) }
  | .readObuf a =>
    if s.cfg.obufSize.toNat ≤ a then .fault (.noObufByte a)
    else .next (answerByte s (obufDefined s a))
  | .writeObuf a _ => .refused (.obufWrite a)
  | .readReg r =>
    match readReg s r with
    | some v => .next { s with reply := .reg v }
    | none => .refused (.noSuchRegister r)
  | .writeReg r _ => .refused (.registerWrite r)
  | .reset => .next (resetBlock s)

end Sys2Proof.Machine
end

