-- ==== Sys2Proof/Machine/Step.lean ====
section
/-! DEFINITION. One step: the host's next action (R258, R259). The block fetches nothing; a command word
reaches it as a host action (R21, R71). -/

namespace Sys2Proof.Machine

open Sys2Proof

/-- One step. With no action of the host left the block is idle (R259). -/
def step (s : State) : Host.Outcome State Fault Refusal :=
  match s.pending with
  | [] => .next s
  | a :: rest => hostAct a { s with pending := rest }

/-- The state in which the host's next action writes the given command word to the CMD port
(notes/assumptions/1.md). -/
def State.withFetchWord (s : State) (nbits w : Nat) : State :=
  { s with pending := .command (tableWord nbits w) :: s.pending }

end Sys2Proof.Machine
end

