-- ==== Sys2Proof/Machine/Assembler.lean ====
section
/-! DEFINITION. The one-line assembler syntax (R86) and the pseudo-commands COMPRESS and DECOMPRESS
(R87). A line is a list of characters. What R86 leaves open of the text (blanks, a comma or a `;` in quotes,
digits' case, a line that is out of range or of no form) is notes/assumptions/12.md, DESIGN CHOICE; a quoted
character's ASCII code is 15.md, PRESUMED. -/

namespace Sys2Proof.Machine

open Sys2Proof

/-- A written command: a mnemonic with its operands as numbers (R86, R87). -/
inductive AsmLine where
  | nop
  | clr
  | ldf (sym n : Nat)
  | count (n : Nat)
  | build
  | gen
  | encode (n : Nat)
  | decode (m : Nat)
  | compress (n : Nat)
  | decompress (m : Nat)
  deriving DecidableEq, Repr

/-- R86: a number is 0 to 2^32 - 1. -/
def numberOk (n : Nat) : Bool := n < 2 ^ 32

/-- R86: a symbol is a number 0 to 255. -/
def symbolOk (sym : Nat) : Bool := sym < 256

/-- The operands of a line lie in their ranges (R86). -/
def AsmLine.wf : AsmLine → Bool
  | .nop | .clr | .build | .gen => true
  | .ldf sym n => symbolOk sym && numberOk n
  | .count n | .encode n | .decode n | .compress n | .decompress n => numberOk n

/-- The commands a line stands for (R86, R87): COMPRESS n is COUNT n, BUILD, GEN, ENCODE n;
DECOMPRESS m is DECODE m. -/
def expand : AsmLine → List Instr
  | .nop => [.nop]
  | .clr => [.clr]
  | .ldf sym n => [.ldf (BitVec.ofNat 8 sym) (BitVec.ofNat 32 n)]
  | .count n => [.count (BitVec.ofNat 32 n)]
  | .build => [.build]
  | .gen => [.gen]
  | .encode n => [.encode (BitVec.ofNat 32 n)]
  | .decode m => [.decode (BitVec.ofNat 32 m)]
  | .compress n => [.count (BitVec.ofNat 32 n), .build, .gen, .encode (BitVec.ofNat 32 n)]
  | .decompress m => [.decode (BitVec.ofNat 32 m)]

/-- The command words of a line (R86, R88); none where an operand is out of range: R86 gives the range, and
that such a line is rejected is a DESIGN CHOICE (notes/assumptions/12.md). -/
def assemble (l : AsmLine) : Option (List CmdWord) :=
  if l.wf then some ((expand l).map Sys2Proof.encode) else none

/-- A digit's value in base 16 (R86: decimal or 0x hexadecimal). -/
def digitVal (c : Char) : Option Nat :=
  if '0' ≤ c ∧ c ≤ '9' then some (c.toNat - 48)
  else if 'a' ≤ c ∧ c ≤ 'f' then some (c.toNat - 87)
  else if 'A' ≤ c ∧ c ≤ 'F' then some (c.toNat - 55)
  else none

/-- The number written by digits of a base, after the value `acc` of those before them. -/
def digitsVal (base acc : Nat) : List Char → Option Nat
  | [] => some acc
  | c :: cs =>
    match digitVal c with
    | some d => if d < base then digitsVal base (acc * base + d) cs else none
    | none => none

/-- A number, decimal or 0x hexadecimal (R86). -/
def parseNumber : List Char → Option Nat
  | [] => none
  | '0' :: 'x' :: c :: cs => digitsVal 16 0 (c :: cs)
  | c :: cs => digitsVal 10 0 (c :: cs)

/-- A symbol: a number, or one character in single quotes, which stands for its ASCII code (R86). -/
def parseSymbol : List Char → Option Nat
  | ['\'', c, '\''] => if c.toNat < 128 then some c.toNat else none
  | cs => parseNumber cs

/-- Leading and trailing spaces removed. -/
def trimSpaces (cs : List Char) : List Char :=
  ((cs.dropWhile (· == ' ')).reverse.dropWhile (· == ' ')).reverse

/-- Text from `;` to the end of the line is a comment (R86). A character in single quotes is one symbol, so a
quoted `;` begins none: DESIGN CHOICE (notes/assumptions/12.md). -/
def dropComment : List Char → List Char
  | [] => []
  | '\'' :: c :: '\'' :: cs => '\'' :: c :: '\'' :: dropComment cs
  | ';' :: _ => []
  | c :: cs => c :: dropComment cs

/-- The text before the first comma and the text after it (R86: operands are separated by a comma). A character
in single quotes is one symbol, so a quoted comma separates nothing: DESIGN CHOICE
(notes/assumptions/12.md). -/
def splitComma : List Char → List Char × Option (List Char)
  | [] => ([], none)
  | '\'' :: c :: '\'' :: cs => let r := splitComma cs; ('\'' :: c :: '\'' :: r.1, r.2)
  | ',' :: cs => ([], some cs)
  | c :: cs => let r := splitComma cs; (c :: r.1, r.2)

/-- One number operand and nothing else. -/
def parseOne (f : Nat → AsmLine) (cs : List Char) : Option AsmLine :=
  match splitComma cs with
  | (a, none) => (parseNumber (trimSpaces a)).map f
  | (_, some _) => none

/-- A symbol operand, a comma, a number operand. -/
def parseTwo (f : Nat → Nat → AsmLine) (cs : List Char) : Option AsmLine :=
  match splitComma cs with
  | (a, some b) =>
    match parseSymbol (trimSpaces a), parseNumber (trimSpaces b) with
    | some x, some y => some (f x y)
    | _, _ => none
  | (_, none) => none

/-- No operand. -/
def parseNone (l : AsmLine) (cs : List Char) : Option AsmLine :=
  if trimSpaces cs = [] then some l else none

/-- One line: the mnemonic in upper case, then its operands separated by a comma (R86, R87). -/
def parseLine (text : List Char) : Option AsmLine :=
  let cs := trimSpaces (dropComment text)
  let name := cs.takeWhile (· != ' ')
  let rest := cs.dropWhile (· != ' ')
  if name = ['N', 'O', 'P'] then parseNone .nop rest
  else if name = ['C', 'L', 'R'] then parseNone .clr rest
  else if name = ['L', 'D', 'F'] then parseTwo .ldf rest
  else if name = ['C', 'O', 'U', 'N', 'T'] then parseOne .count rest
  else if name = ['B', 'U', 'I', 'L', 'D'] then parseNone .build rest
  else if name = ['G', 'E', 'N'] then parseNone .gen rest
  else if name = ['E', 'N', 'C', 'O', 'D', 'E'] then parseOne .encode rest
  else if name = ['D', 'E', 'C', 'O', 'D', 'E'] then parseOne .decode rest
  else if name = ['C', 'O', 'M', 'P', 'R', 'E', 'S', 'S'] then parseOne .compress rest
  else if name = ['D', 'E', 'C', 'O', 'M', 'P', 'R', 'E', 'S', 'S'] then parseOne .decompress rest
  else none

end Sys2Proof.Machine
end

