-- ==== Sys2Proof/Machine/Layout.lean ====
section
/-! DEFINITION. The bit layouts inside the block (30_encoding.md R96, R97, R98). Nothing outside the block
sees them; State keeps a code as a list of bits and an entry as a structure, as those rules allow, and
this file says how they lie in the hardware's fields. -/

namespace Sys2Proof.Machine

open Sys2Proof

/-- The 255-bit `code` field of a CT entry: code bit i in field bit 254 - i, the rest zero (R96). -/
def ctField (c : Code) : BitVec 255 :=
  BitVec.ofNat 255 (((List.range 255).map (fun i => if c.getD i false then 2 ^ (254 - i) else 0)).sum)

/-- The code of `len` bits a field holds (R96). -/
def ofCtField (len : Nat) (f : BitVec 255) : Code :=
  (List.range len).map (fun i => f.getLsbD (254 - i))

/-- R34: LEAF = 0, INTERNAL = 1. -/
def kindBit : NodeKind → BitVec 1
  | .leaf => 0
  | .internal => 1

/-- The kind a bit stands for (R34). -/
def ofKindBit (b : BitVec 1) : NodeKind := if b = 0 then .leaf else .internal

/-- A NODE entry of 67 bits: [66] kind, [65:58] sym, [57:18] freq, [17:9] left, [8:0] right (R97). -/
def nodeWord (n : Node) : BitVec 67 := kindBit n.kind ++ n.sym ++ n.freq ++ n.left ++ n.right

/-- The entry of a 67-bit word (R97). -/
def ofNodeWord (w : BitVec 67) : Node :=
  { kind := ofKindBit (w.extractLsb' 66 1), sym := w.extractLsb' 58 8, freq := w.extractLsb' 18 40,
    left := w.extractLsb' 9 9, right := w.extractLsb' 0 9 }

/-- A DT entry of 27 bits: [26] kind, [25:18] sym, [17:9] left, [8:0] right (R98). -/
def dtWord (n : DtNode) : BitVec 27 := kindBit n.kind ++ n.sym ++ n.left ++ n.right

/-- The entry of a 27-bit word (R98). -/
def ofDtWord (w : BitVec 27) : DtNode :=
  { kind := ofKindBit (w.extractLsb' 26 1), sym := w.extractLsb' 18 8, left := w.extractLsb' 9 9,
    right := w.extractLsb' 0 9 }

end Sys2Proof.Machine
end

