-- ==== Sys2Proof/Safety.lean ====
section
/-! DEFINITION. What a safe run is, in the terms the statements use: the canonical form of State, the
invariants of 10_state.md R43, what a command needs to run, and the frames and trees statements speak of. -/

namespace Sys2Proof.Machine

open Sys2Proof

/-! ### Canonical form -/

/-- FT in canonical form: symbols 0 to 255 rising, no entry 0 (R33). -/
def ftWf (ft : Tab Count) : Bool := tabWf 256 ft && ft.all (fun e => e.2 != 0)

/-- CT in canonical form: symbols 0 to 255 rising, every listed code of 1 to 255 bits (R35). -/
def ctWf (ct : Tab Code) : Bool :=
  tabWf 256 ct && ct.all (fun e => e.2 != [] && e.2.length ≤ 255)

/-- A buffer in canonical form with no byte at or above its size (R36, R37). -/
def bufWf (size : Nat) (m : Memory) : Bool := Memory.wf m && m.all (fun e => e.1 < size)

/-- The state is in canonical form: equal contents are equal data. -/
def State.canonical (s : State) : Prop :=
  ftWf s.ft ∧ tabWf 511 s.node ∧ ctWf s.ct ∧
    bufWf s.cfg.ibufSize.toNat s.ibuf ∧ bufWf s.cfg.obufSize.toNat s.obuf

/-- Every byte of OBUF below OLEN is a defined byte, and OLEN is within the buffer (R30, R37). -/
def State.outputDefined (s : State) : Prop :=
  s.olen.toNat ≤ s.cfg.obufSize.toNat ∧ ∀ a, a < s.olen.toNat → (memGet s.obuf a).isSome

/-! ### The invariants of R43 -/

/-- R43 (a): FAULT = 0 implies ERR = 0 and ERRINFO = 0. -/
def State.latchClear (s : State) : Prop := s.fault = false → s.err = 0 ∧ s.errinfo = 0

/-- R43 (b): FAULT = 1 implies OLEN = 0 and ERR[7:0] in 1..6. -/
def State.latchSet (s : State) : Prop :=
  s.fault = true → s.olen = 0 ∧ 1 ≤ (s.err.extractLsb' 0 8).toNat ∧ (s.err.extractLsb' 0 8).toNat ≤ 6

/-- R43 (c): CT_VALID = 1 implies TREE_VALID = 1. -/
def State.tableNeedsTree (s : State) : Prop := s.ctValid = true → s.treeValid = true

/-- The sum of all FT entries. -/
def ftSum (ft : Tab Count) : Nat := (allSymbols.map (fun sym => (ftAt ft sym).toNat)).sum

/-- NODE[h] for a handle given as a number. -/
def nodeNo (node : Tab Node) (h : Nat) : Option Node := nodeAt node (BitVec.ofNat 9 h)

/-- Handle `h` is the left or the right child of NODE[i]. -/
def isChild (node : Tab Node) (i h : Nat) : Prop :=
  ∃ n, nodeNo node i = some n ∧ (n.left.toNat = h ∨ n.right.toNat = h)

/-- NODE holds, for the FrequencyTable `ft` of `l` keys, the leaves of R131 at the handles 0 to l - 1. -/
def leavesStand (ft : Tab Count) (node : Tab Node) : Prop :=
  ∀ i sym, (keys ft)[i]? = some sym → nodeNo node i = some (leafNode ft sym)

/-- NODE[i] is internal, with two different children of lower handle, and its frequency is the sum of
theirs (R133, R137). -/
def internalStands (node : Tab Node) (i : Nat) : Prop :=
  ∃ n nl nr, nodeNo node i = some n ∧ n.kind = .internal ∧ n.sym = 0 ∧
    n.left.toNat < i ∧ n.right.toNat < i ∧ n.left ≠ n.right ∧
    nodeAt node n.left = some nl ∧ nodeAt node n.right = some nr ∧
    n.freq.toNat = nl.freq.toNat + nr.freq.toNat

/-- The tree of a FrequencyTable of `l` keys in NODE (R43 (d), R137): leaves, internal nodes, and every
handle below the root the child of exactly one internal node. -/
def treeStands (ft : Tab Count) (node : Tab Node) : Prop :=
  leavesStand ft node ∧
  (∀ i, ndist ft ≤ i → i ≤ 2 * ndist ft - 2 → internalStands node i) ∧
  (∀ h, h < 2 * ndist ft - 2 → ∃! i, ndist ft ≤ i ∧ i ≤ 2 * ndist ft - 2 ∧ isChild node i h)

/-- R43 (d): TREE_VALID = 1 implies that NODE, ROOT, NNODES and ROOTF hold the tree of the current FT. -/
def State.treeOk (s : State) : Prop :=
  s.treeValid = true →
    1 ≤ ndist s.ft ∧ s.nnodes.toNat = 2 * ndist s.ft - 1 ∧ s.root.toNat = 2 * ndist s.ft - 2 ∧
    treeStands s.ft s.node ∧ s.rootf = freqAt s.node s.root ∧ s.rootf.toNat = ftSum s.ft

/-- The handle the bits of a path lead to from `h`, left for 0 and right for 1. -/
def descend (node : Tab Node) : Handle → Code → Option Handle
  | h, [] => some h
  | h, b :: rest =>
    match nodeAt node h with
    | none => none
    | some n =>
      match n.kind with
      | .leaf => none
      | .internal => descend node (if b then n.right else n.left) rest

/-- `c` is the root-to-leaf path of the leaf of `sym` (R151). -/
def isPathOf (node : Tab Node) (root : Handle) (sym : Symbol) (c : Code) : Prop :=
  ∃ h n, descend node root c = some h ∧ nodeAt node h = some n ∧ n.kind = .leaf ∧ n.sym = sym

/-- R43 (e): CT_VALID = 1 implies that CT has codes for exactly the keys of FT, and they are the
root-to-leaf paths of NODE, or the single code '0' when there is one key (R152). -/
def State.tableOk (s : State) : Prop :=
  s.ctValid = true →
    (∀ sym, ctAt s.ct sym ≠ [] ↔ ftAt s.ft sym ≠ 0) ∧
    (∀ sym, ftAt s.ft sym ≠ 0 →
      if ndist s.ft = 1 then ctAt s.ct sym = [false]
      else isPathOf s.node s.root sym (ctAt s.ct sym))

/-- R43 whole. -/
def State.r43 (s : State) : Prop :=
  s.latchClear ∧ s.latchSet ∧ s.tableNeedsTree ∧ s.treeOk ∧ s.tableOk

/-! ### What statements about buffers and codes say -/

/-- IBUF holds the bytes `bs` from address 0. -/
def ibufHolds (s : State) (bs : List Byte) : Prop := ∀ a, a < bs.length → memGet s.ibuf a = bs[a]?

/-- OBUF holds the bytes `bs` from address 0. -/
def obufHolds (s : State) (bs : List Byte) : Prop := ∀ a, a < bs.length → memGet s.obuf a = bs[a]?

/-- The bits of bytes in order, bit 7 of each byte first (R64, R65). -/
def bitsOf (bs : List Byte) : Code := bs.flatMap (fun b => (List.range 8).map (byteBit b))

/-- Every present code of CT is no prefix of another present code (R153). -/
def prefixFree (ct : Tab Code) : Prop :=
  ∀ x y : Symbol, x ≠ y → ctAt ct x ≠ [] → ctAt ct y ≠ [] → ¬ (ctAt ct x <+: ctAt ct y)

/-- The body bits of a symbol sequence (R94). -/
def bodyBits (ct : Tab Code) (xs : List Symbol) : Code := xs.flatMap (ctAt ct)

/-- The frame of a symbol sequence (R90 to R94). -/
def frameOf (ct : Tab Code) (xs : List Symbol) : List Byte :=
  header xs.length ct ++ pack (bodyBits ct xs)

/-! ### What a frame to be decoded says -/

/-- The bytes of one header entry of symbol and code (R92), whatever its pad bits are. -/
def entryBytes (e : Symbol × Code) (bs : List Byte) : Prop :=
  ∃ cb, bs = e.1 :: BitVec.ofNat 8 e.2.length :: cb ∧ cb.length = bytesFor e.2.length ∧ e.2 <+: bitsOf cb

/-- The bytes of a list of entries. -/
def entriesBytes (es : List (Symbol × Code)) (bs : List Byte) : Prop :=
  ∃ parts, List.Forall₂ entryBytes es parts ∧ bs = parts.flatten

/-- How many DT nodes a list of codes needs beside the root: its distinct non-empty prefixes (R183). -/
def dtNeed (es : List (Symbol × Code)) : Nat := (es.flatMap (fun e => e.2.inits.tail)).dedup.length

/-- Two codes of which neither is a prefix of the other. -/
def apart (c d : Code) : Prop := ¬ c <+: d ∧ ¬ d <+: c

/-- Entries DECODE accepts (R182, R183): 1 to 255 bits a code, no symbol twice, a prefix code, and no
more than 511 DT nodes with the root. -/
structure tableFits (es : List (Symbol × Code)) : Prop where
  lens : ∀ e ∈ es, 1 ≤ e.2.length ∧ e.2.length ≤ 255
  syms : (es.map Prod.fst).Nodup
  codes : es.Pairwise (fun e f => apart e.2 f.2)
  nodes : dtNeed es ≤ 510

/-- IBUF[0..m-1] is a frame of NSYM = `n`, NDIST = `l`, the entries `es`, and then the bytes `rest`
(R90 to R92). -/
def frameInIbuf (s : State) (m : Imm) (n l : Nat) (es : List (Symbol × Code)) (rest : List Byte) : Prop :=
  m ≤ s.cfg.ibufSize ∧ 1 ≤ n ∧ n < 2 ^ 32 ∧ 1 ≤ l ∧ l ≤ 256 ∧
    ∃ eb, entriesBytes es eb ∧ m.toNat = (be32 n ++ be16 l ++ eb ++ rest).length ∧
      ibufHolds s (be32 n ++ be16 l ++ eb ++ rest)

/-- IBUF[0..m-1] begins as a frame of NSYM = `n`, NDIST = `l`, the entries `es`, and then the bytes `got`, and
its next byte, IBUF[a], has not been written (R36). -/
def frameBreaksOff (s : State) (m : Imm) (n l : Nat) (es : List (Symbol × Code)) (got : List Byte) (a : Nat) : Prop :=
  m ≤ s.cfg.ibufSize ∧ 1 ≤ n ∧ n < 2 ^ 32 ∧ 1 ≤ l ∧ l ≤ 256 ∧
    ∃ eb, entriesBytes es eb ∧ a = (be32 n ++ be16 l ++ eb ++ got).length ∧ a < m.toNat ∧
      ibufHolds s (be32 n ++ be16 l ++ eb ++ got) ∧ memGet s.ibuf a = none

/-- The codes of a symbol sequence under a list of entries, one after another. -/
def codesUnder (es : List (Symbol × Code)) : List Symbol → Code → Prop
  | [], b => b = []
  | x :: xs, b => ∃ c r, (x, c) ∈ es ∧ b = c ++ r ∧ codesUnder es xs r

/-! ### Running commands -/

/-- Accept one command word after another (R213), stopping at the first stop of the machine. -/
def acceptWords : List CmdWord → State → Host.Outcome State Fault Refusal
  | [], s => .next s
  | w :: ws, s =>
    match acceptWord w s with
    | .next s1 => acceptWords ws s1
    | .fault r => .fault r
    | .refused r => .refused r

/-- The words of the pseudo-command COMPRESS n (R87, R214). -/
def compressWords (n : Imm) : List CmdWord :=
  [encode (.count n), encode .build, encode .gen, encode (.encode n)]

/-- Every byte of IBUF that the command may read has been written by the host (R251 (2), the host's
duty). -/
def readable (i : Instr) (s : State) : Prop :=
  match i with
  | .count n | .encode n | .decode n => n ≤ s.cfg.ibufSize → ∀ a, a < n.toNat → (memGet s.ibuf a).isSome
  | _ => True

/-- What no command but those it names changes beside the block's own registers: the sizes, IBUF, and what
is the host's. -/
def outsideSame (s t : State) : Prop :=
  t.cfg = s.cfg ∧ t.ibuf = s.ibuf ∧ t.pending = s.pending ∧ t.reply = s.reply ∧ t.freeCtr = s.freeCtr ∧
    t.resets = s.resets

/-- The tables and result registers a faulting command leaves as they were (R226, R230). -/
def productsSame (s t : State) : Prop :=
  t.treeValid = s.treeValid ∧ t.ctValid = s.ctValid ∧ t.cmdcnt = s.cmdcnt ∧ t.root = s.root ∧
    t.nnodes = s.nnodes ∧ t.rootf = s.rootf ∧ t.tbits = s.tbits ∧ t.ft = s.ft ∧ t.node = s.node ∧
    t.ct = s.ct

end Sys2Proof.Machine
end

