-- ==== Sys2Proof/Certificates/Slice0/Obligations.lean ====
section
/-! DEFINITION. The statements for the provers, family by family in the spec's order. Each docstring names
the rule of spec/ it formalises, or says that it rests on a choice of the model. -/

open Sys2Proof Sys2Proof.Machine

/-! ### Command words (30_encoding.md) -/

/-- R80, R82, R83, R86: no bit of an encoding is dropped, and every legal word has one meaning. -/
def Obligations.DecodeEncodeAgree : Prop :=
  (∀ i : Instr, decode (encode i) = .ok i) ∧
  (∀ (w : CmdWord) (i : Instr), decode w = .ok i → encode i = w)

/-- R88, the eight worked encodings, read both ways. -/
def Obligations.WorkedCommandWords : Prop :=
  (encode .nop = 0x0000000000000000#64 ∧ decode 0x0000000000000000#64 = .ok .nop) ∧
  (encode .clr = 0x0100000000000000#64 ∧ decode 0x0100000000000000#64 = .ok .clr) ∧
  (encode (.ldf 0x61 5) = 0x0261000000000005#64 ∧ decode 0x0261000000000005#64 = .ok (.ldf 0x61 5)) ∧
  (encode (.count 11) = 0x030000000000000B#64 ∧ decode 0x030000000000000B#64 = .ok (.count 11)) ∧
  (encode .build = 0x0400000000000000#64 ∧ decode 0x0400000000000000#64 = .ok .build) ∧
  (encode .gen = 0x0500000000000000#64 ∧ decode 0x0500000000000000#64 = .ok .gen) ∧
  (encode (.encode 11) = 0x060000000000000B#64 ∧ decode 0x060000000000000B#64 = .ok (.encode 11)) ∧
  (encode (.decode 24) = 0x0700000000000018#64 ∧ decode 0x0700000000000018#64 = .ok (.decode 24))

/-- R83: with FAULT = 0 an opcode above 0x07 raises BAD_OPCODE; else a non-zero RSV, or a non-zero SYM or
IMM the command does not use, raises BAD_RESERVED; else the command of R82 executes. -/
def Obligations.WordsAreClassified : Prop :=
  ∀ (w : CmdWord) (s : State), s.fault = false →
    let op := w.extractLsb' 56 8
    let unusedSet := w.extractLsb' 32 16 ≠ 0 ∨ (op ≠ 0x02#8 ∧ w.extractLsb' 48 8 ≠ 0) ∨
      (op ≠ 0x02#8 ∧ op ≠ 0x03#8 ∧ op ≠ 0x06#8 ∧ op ≠ 0x07#8 ∧ w.extractLsb' 0 32 ≠ 0)
    (7 < op.toNat → decode w = .error (.badOpcode op) ∧
      acceptWord w s = .next (raise (.badOpcode op) { s with cmdcnt := s.cmdcnt + 1 })) ∧
    (op.toNat ≤ 7 → unusedSet → decode w = .error (.badReserved op) ∧
      acceptWord w s = .next (raise (.badReserved op) { s with cmdcnt := s.cmdcnt + 1 })) ∧
    (op.toNat ≤ 7 → ¬ unusedSet → ∃ i, decode w = .ok i ∧ i.fields.op = op ∧
      acceptWord w s = exec i { s with cmdcnt := s.cmdcnt + 1 })

/-- R82: a word is the command of a row exactly when `w & mask = match`. -/
def Obligations.OpcodeMapSelects : Prop :=
  ∀ (w : CmdWord), ∀ r ∈ opRows, (w &&& r.mask = r.mtch ↔ ∃ i, decode w = .ok i ∧ i.fields.op = r.op)

/-- R87 and R86: what the two pseudo-commands expand to. That a number of 2^32 or more, which R86's range shuts
out, assembles to nothing is the model's choice (notes/assumptions/12.md). -/
def Obligations.PseudoCommandsExpand : Prop :=
  (∀ n : Nat, n < 2 ^ 32 →
    assemble (.compress n) = some [encode (.count (BitVec.ofNat 32 n)), encode .build, encode .gen,
      encode (.encode (BitVec.ofNat 32 n))] ∧
    assemble (.decompress n) = some [encode (.decode (BitVec.ofNat 32 n))]) ∧
  (∀ n : Nat, 2 ^ 32 ≤ n → assemble (.compress n) = none ∧ assemble (.decompress n) = none)

/-! ### Byte order and bit order (20_memory.md) -/

/-- R63: the header integers are big-endian. -/
def Obligations.HeaderIntegersAreBigEndian : Prop :=
  (∀ v : Nat, v < 2 ^ 32 → ∃ b0 b1 b2 b3, be32 v = [b0, b1, b2, b3] ∧
    v = b0.toNat * 2 ^ 24 + b1.toNat * 2 ^ 16 + b2.toNat * 2 ^ 8 + b3.toNat ∧ beToNat32 b0 b1 b2 b3 = v) ∧
  (∀ v : Nat, v < 2 ^ 16 → ∃ b0 b1, be16 v = [b0, b1] ∧
    v = b0.toNat * 2 ^ 8 + b1.toNat ∧ beToNat16 b0 b1 = v)

/-- R64, R65: a bit is read from the byte at a + i div 8, place i mod 8 from the top; pack(c) has ceil(n/8) bytes, and bit i of the bit string, read from the byte i div 8 at place
i mod 8 as the decoder reads it, is c[i], or 0 in the pad. -/
def Obligations.PackedBitsReadBack : Prop :=
  (∀ (ibuf : Memory) (a i : Nat) (b : Byte), memGet ibuf (a + i / 8) = some b →
    readBit ibuf a i = .ok (decide (b.toNat / 2 ^ (7 - i % 8) % 2 = 1))) ∧
  ∀ d : Code,
    (pack d).length = (d.length + 7) / 8 ∧
    (∀ (k j : Nat) (b : Byte), (pack d)[k]? = some b → j < 8 →
      (b.toNat / 2 ^ (7 - j) % 2 = 1 ↔ d[8 * k + j]? = some true)) ∧
    (∀ (ibuf : Memory) (a i : Nat), (∀ k, k < (pack d).length → memGet ibuf (a + k) = (pack d)[k]?) →
      i < 8 * (pack d).length → readBit ibuf a i = .ok (d.getD i false))

/-! ### Accepting a command word (45_control_commands.md) -/

/-- R212 whole: the count, the discard while FAULT = 1, and the decoding. -/
def Obligations.AcceptCommandWord : Prop :=
  ∀ (w : CmdWord) (s : State),
    (s.fault = true → w = 0x0100000000000000#64 →
      acceptWord w s = exec .clr { s with cmdcnt := s.cmdcnt + 1 }) ∧
    (s.fault = true → w ≠ 0x0100000000000000#64 →
      acceptWord w s = .next { s with cmdcnt := s.cmdcnt + 1 }) ∧
    (s.fault = false → ∀ i, decode w = .ok i →
      acceptWord w s = exec i { s with cmdcnt := s.cmdcnt + 1 }) ∧
    (s.fault = false → ∀ e, decode w = .error e →
      acceptWord w s = .next (raise (decodeCause e) { s with cmdcnt := s.cmdcnt + 1 }))

/-- A step runs the decoded instruction: when the host's next action writes a word that decodes to `i` and
FAULT = 0, the step is `exec i` with CMDCNT counted and the action served (R212, R213). A step on any action is
that action with the action served, and a word written is accepted, so that AcceptCommandWord,
HostAccessesBuffersAndRegisters and ResetLeavesAllClear speak of steps. With no action left the block is idle
(the model's choice, notes/assumptions/5.md; that actions wait in the state is notes/assumptions/1.md). -/
def Obligations.StepRunsDecodedCommand : Prop :=
  (∀ (s : State) (w : CmdWord) (rest : List HostAct) (i : Instr),
    s.pending = .command w :: rest → s.fault = false → decode w = .ok i →
      step s = exec i { s with pending := rest, cmdcnt := s.cmdcnt + 1 }) ∧
  (∀ (s : State) (a : HostAct) (rest : List HostAct), s.pending = a :: rest →
    step s = hostAct a { s with pending := rest }) ∧
  (∀ (w : CmdWord) (s : State), hostAct (.command w) s = acceptWord w s) ∧
  (∀ s : State, s.pending = [] → step s = .next s)

/-- R26: every accepted word adds one to CMDCNT modulo 2^32, however it ends; of the host's other actions
only reset changes it. -/
def Obligations.CmdcntCountsAcceptedWords : Prop :=
  (∀ (w : CmdWord) (s t : State), acceptWord w s = .next t → t.cmdcnt.toNat = (s.cmdcnt.toNat + 1) % 2 ^ 32) ∧
  (∀ (i : Instr) (s t : State), exec i s = .next t → t.cmdcnt = s.cmdcnt) ∧
  (∀ (a : HostAct) (s t : State), (∀ w, a ≠ .command w) → hostAct a s = .next t →
    t.cmdcnt = if a = .reset then 0 else s.cmdcnt)

/-- R210: NOP has no effect but the CMDCNT increment, whether FAULT is 0 or 1. -/
def Obligations.NopOnlyCounts : Prop :=
  ∀ s : State, exec .nop s = .next s ∧ encode .nop = 0 ∧
    acceptWord 0 s = .next { s with cmdcnt := s.cmdcnt + 1 }

/-- R211: CLR clears the latch, the tables and the result registers, keeps CMDCNT, IBUF, OBUF and NODE, and
runs whether FAULT is 0 or 1. -/
def Obligations.ClrClearsBlock : Prop :=
  ∀ s : State,
    exec .clr s = .next { s with fault := false, treeValid := false, ctValid := false, err := 0, errinfo := 0, root := 0, nnodes := 0, rootf := 0, tbits := 0, olen := 0, ft := [], ct := [] } ∧
    (∀ sym, ftAt [] sym = 0 ∧ ctAt [] sym = []) ∧ encode .clr = 0x0100000000000000#64 ∧
    acceptWord 0x0100000000000000#64 s = exec .clr { s with cmdcnt := s.cmdcnt + 1 }

/-- R232: while FAULT = 1 any number of words other than CLR changes CMDCNT alone, so ERR and ERRINFO keep
the first fault, and CLR then clears it without a fault of its own. -/
def Obligations.FaultLatchIsSticky : Prop :=
  ∀ (ws : List CmdWord) (s : State), s.fault = true → (∀ w ∈ ws, w ≠ clrWord) →
    acceptWords ws s = .next { s with cmdcnt := s.cmdcnt + BitVec.ofNat 32 ws.length } ∧
    ∃ t, acceptWords (ws ++ [clrWord]) s = .next t ∧ t.fault = false ∧ t.err = 0 ∧ t.errinfo = 0

/-! ### Frequency Counter (40_frequency_counter.md) -/

/-- R123: LDF's encoding; it sets one entry and drops both flags, always; nothing else changes. -/
def Obligations.LdfSetsOneCount : Prop :=
  ∀ (sym : Symbol) (n : Imm) (s : State),
    fieldsOf (encode (.ldf sym n)) = { op := 0x02, sym := sym, rsv := 0, imm := n } ∧ ∃ ft,
    exec (.ldf sym n) s = .next { s with ft := ft, treeValid := false, ctValid := false } ∧
    ftAt ft sym = n ∧ ∀ y, y ≠ sym → ftAt ft y = ftAt s.ft y

/-- R27: NDIST reads the number of symbols with a non-zero count, 0 to 256. -/
def Obligations.NdistReadsKeyCount : Prop :=
  ∀ s : State, ndist s.ft ≤ 256 ∧
    readReg s 4 = some (BitVec.ofNat 32
      ((Finset.univ.filter (fun x : Fin 256 => ftAt s.ft (BitVec.ofNat 8 x.val) ≠ 0)).card))

/-- R120, R122: COUNT's encoding, its two faults in their order, and otherwise the table of the first n bytes of IBUF,
whatever FT held, with both flags dropped and nothing else changed. -/
def Obligations.CountCountsSymbols : Prop :=
  ∀ (n : Imm) (s : State),
    fieldsOf (encode (.count n)) = { op := 0x03, sym := 0, rsv := 0, imm := n } ∧
    (n = 0 → exec (.count n) s = .next (raise .emptyInput s)) ∧
    (n ≠ 0 → s.cfg.ibufSize < n → exec (.count n) s = .next (raise (.srcRange n) s)) ∧
    (n ≠ 0 → n ≤ s.cfg.ibufSize → ∀ xs : List Symbol, xs.length = n.toNat → ibufHolds s xs → ∃ ft,
      exec (.count n) s = .next { s with ft := ft, treeValid := false, ctValid := false } ∧
      ∀ x, (ftAt ft x).toNat = xs.count x)

/-- R121: after a successful COUNT the counts sum to n and the keys are the bytes that occur. -/
def Obligations.CountConservesFrequency : Prop :=
  ∀ (n : Imm) (s : State) (xs : List Symbol), n ≠ 0 → n ≤ s.cfg.ibufSize → xs.length = n.toNat →
    ibufHolds s xs → ∃ t, exec (.count n) s = .next t ∧ ftSum t.ft = n.toNat ∧
      ∀ x, ftAt t.ft x ≠ 0 ↔ x ∈ xs

/-! ### Unwritten bytes of IBUF (10_state.md R36) -/

/-- R36 and V5, for the three commands that read IBUF: a command that reaches a byte no host write has set is
refused, at that byte, and no command is refused otherwise. COUNT and ENCODE reach byte a after the a bytes before
it; DECODE reaches it in NSYM or NDIST, in the two fixed bytes of an entry, in the code of an entry, or in the body.
Which reads come before which tests is the order of the pseudocode (notes/assumptions/3.md, 16.md). -/
def Obligations.UnwrittenByteIsRefused : Prop :=
  (∀ (n : Imm) (s : State) (a : Nat), n ≤ s.cfg.ibufSize → a < n.toNat →
    (∀ b, b < a → (memGet s.ibuf b).isSome) → memGet s.ibuf a = none →
      exec (.count n) s = .refused (.ibufUnwritten a)) ∧
  (∀ (n : Imm) (s : State) (xs : List Symbol), s.ctValid = true → n ≤ s.cfg.ibufSize → xs.length < n.toNat →
    ibufHolds s xs → memGet s.ibuf xs.length = none → (∀ x ∈ xs, ctAt s.ct x ≠ []) →
    (header n.toNat s.ct).length + (bodyBits s.ct xs).length / 8 ≤ s.cfg.obufSize.toNat →
      exec (.encode n) s = .refused (.ibufUnwritten xs.length)) ∧
  (∀ (m : Imm) (s : State) (bs : List Byte), m ≤ s.cfg.ibufSize → ibufHolds s bs → memGet s.ibuf bs.length = none →
    ((bs.length < 4 ∧ 4 ≤ m.toNat) ∨ (4 ≤ bs.length ∧ bs.length < 6 ∧ 6 ≤ m.toNat ∧ bs.take 4 ≠ [0, 0, 0, 0])) →
      exec (.decode m) s = .refused (.ibufUnwritten bs.length)) ∧
  (∀ (m : Imm) (s : State) (n l : Nat) (es : List (Symbol × Code)) (got : List Byte) (a : Nat),
    frameBreaksOff s m n l es got a → tableFits es →
    (es.length < l → got.length < 2 → a - got.length + 2 ≤ m.toNat →
      exec (.decode m) s = .refused (.ibufUnwritten a)) ∧
    (∀ (sym lenByte : Byte) (cb : List Byte), es.length < l → got = sym :: lenByte :: cb → lenByte ≠ 0 →
      sym ∉ es.map Prod.fst → cb.length < (lenByte.toNat + 7) / 8 →
      a - cb.length + (lenByte.toNat + 7) / 8 ≤ m.toNat → (∀ e ∈ es, ¬ e.2 <+: bitsOf cb) →
      dtNeed (es ++ [(sym, bitsOf cb)]) ≤ 510 → exec (.decode m) s = .refused (.ibufUnwritten a)) ∧
    (∀ (xs : List Symbol) (bits part : Code), es.length = l → n ≤ s.cfg.obufSize.toNat → codesUnder es xs bits →
      bitsOf got = bits ++ part → (∃ e ∈ es, part <+: e.2 ∧ part ≠ e.2) → xs.length < n →
      exec (.decode m) s = .refused (.ibufUnwritten a))) ∧
  (∀ (i : Instr) (s : State) (r : Refusal), exec i s = .refused r → ∃ a, r = .ibufUnwritten a ∧
    memGet s.ibuf a = none ∧ a < i.fields.imm.toNat ∧ i.fields.imm ≤ s.cfg.ibufSize)

/-! ### Tree Builder (41_tree_builder.md) -/

/-- R130, R136, R139: EMPTY_TABLE on the empty table; otherwise the result registers, the flags, and every
NODE entry at handle 2L - 1 or above unchanged. After COUNT n, ROOTF is n. -/
def Obligations.BuildWritesResultRegisters : Prop :=
  (∀ s : State, (∀ sym, ftAt s.ft sym = 0) → exec .build s = .next (raise .emptyTable s)) ∧
  (∀ s : State, (∃ sym, ftAt s.ft sym ≠ 0) → ∃ node root nnodes rootf,
    exec .build s = .next { s with node := node, root := root, nnodes := nnodes, rootf := rootf, treeValid := true, ctValid := false } ∧
    root.toNat = 2 * ndist s.ft - 2 ∧ nnodes.toNat = 2 * ndist s.ft - 1 ∧
    (∃ n, nodeAt node root = some n ∧ n.freq = rootf) ∧ rootf.toNat = ftSum s.ft ∧
    ∀ h : Handle, 2 * ndist s.ft - 1 ≤ h.toNat → nodeAt node h = nodeAt s.node h) ∧
  (∀ (n : Imm) (s t u : State), exec (.count n) s = .next t → s.fault = false → t.fault = false →
    exec .build t = .next u → u.fault = false ∧ u.rootf.toNat = n.toNat)

/-- R131: one leaf for each symbol with a non-zero count, in ascending order, at the handles 0, 1, …. -/
def Obligations.BuildMakesLeavesInOrder : Prop :=
  ∀ s : State, (∃ sym, ftAt s.ft sym ≠ 0) → ∃ t, exec .build s = .next t ∧
    (keys s.ft).Pairwise (· < ·) ∧ (∀ sym, sym ∈ keys s.ft ↔ ftAt s.ft sym ≠ 0) ∧
    ∀ i sym, (keys s.ft)[i]? = some sym → nodeNo t.node i =
      some { kind := .leaf, sym := sym, freq := (ftAt s.ft sym).setWidth 40, left := 511#9, right := 511#9 }

/-- R132, R133: the node of handle i, made when the handles below i that are no child yet are waiting, has
the least waiting handle on the left, the least of the rest on the right, and the sum of their
frequencies; least in the order of (frequency, handle). -/
def Obligations.BuildMergesTwoLeast : Prop :=
  ∀ s : State, (∃ sym, ftAt s.ft sym ≠ 0) → ∃ t, exec .build s = .next t ∧
    ∀ i, ndist s.ft ≤ i → i ≤ 2 * ndist s.ft - 2 → ∃ n nl nr, nodeNo t.node i = some n ∧ n.kind = .internal ∧
      nodeAt t.node n.left = some nl ∧ nodeAt t.node n.right = some nr ∧
      n.freq.toNat = nl.freq.toNat + nr.freq.toNat ∧
      (let waiting := fun h : Nat => h < i ∧ ∀ j, ndist s.ft ≤ j → j < i → ¬ isChild t.node j h
       let first := fun (g h : Nat) => (freqAt t.node (BitVec.ofNat 9 g)).toNat < (freqAt t.node (BitVec.ofNat 9 h)).toNat ∨
         ((freqAt t.node (BitVec.ofNat 9 g)).toNat = (freqAt t.node (BitVec.ofNat 9 h)).toNat ∧ g < h)
       waiting n.left.toNat ∧ waiting n.right.toNat ∧ n.left ≠ n.right ∧
       (∀ h, waiting h → h ≠ n.left.toNat → first n.left.toNat h) ∧
       (∀ h, waiting h → h ≠ n.left.toNat → h ≠ n.right.toNat → first n.right.toNat h))

/-- R137 (but for optimality, which the spec takes from the document) and R138: the finished tree, and no
frequency above 256 × (2^32 - 1). -/
def Obligations.BuildTreeStands : Prop :=
  ∀ s : State, (∃ sym, ftAt s.ft sym ≠ 0) → ∃ t, exec .build s = .next t ∧ treeStands s.ft t.node ∧
    ∀ i, i < 2 * ndist s.ft - 1 → ∃ n, nodeNo t.node i = some n ∧ n.freq.toNat ≤ 256 * (2 ^ 32 - 1)

/-- R135: one key gives one leaf and no merge. -/
def Obligations.BuildSingleLeaf : Prop :=
  ∀ (s : State) (sym : Symbol), ftAt s.ft sym ≠ 0 → (∀ y, y ≠ sym → ftAt s.ft y = 0) →
    ∃ t, exec .build s = .next t ∧ t.root = 0 ∧ t.nnodes = 1 ∧ t.rootf = (ftAt s.ft sym).setWidth 40 ∧
      nodeAt t.node 0 = some { kind := .leaf, sym := sym, freq := (ftAt s.ft sym).setWidth 40, left := 511#9, right := 511#9 }

/-! ### Code Table Generator (42_code_table_generator.md) -/

/-- R150, R225: GEN without a finalized tree raises NO_TREE and touches nothing else. -/
def Obligations.GenNeedsTree : Prop :=
  ∀ s : State, s.treeValid = false → exec .gen s = .next (raise .noTree s) ∧
    (raise .noTree s).ct = s.ct ∧ readReg (raise .noTree s) 1 = some 0x0105

/-- R151 on a finalized tree of two or more leaves (R43 (d) as premise): GEN completes, writes CT and
CT_VALID alone, records for every key its root-to-leaf path and leaves every other symbol absent. -/
def Obligations.GenRecordsPaths : Prop :=
  ∀ s : State, s.treeValid = true → s.treeOk → 2 ≤ ndist s.ft → ∃ ct,
    exec .gen s = .next { s with ct := ct, ctValid := true } ∧
    (∀ sym, ftAt s.ft sym ≠ 0 → isPathOf s.node s.root sym (ctAt ct sym)) ∧
    (∀ sym, ftAt s.ft sym = 0 → ctAt ct sym = [])

/-- R152: a root that is a leaf gives its symbol the one-bit code '0', and no other symbol a code. -/
def Obligations.GenSingleLeaf : Prop :=
  ∀ (s : State) (n : Node), s.treeValid = true → nodeAt s.node s.root = some n → n.kind = .leaf → ∃ ct,
    exec .gen s = .next { s with ct := ct, ctValid := true } ∧ ctAt ct n.sym = [false] ∧
    ∀ y, y ≠ n.sym → ctAt ct y = []

/-- R153, for every FrequencyTable with a key: BUILD and GEN give a prefix code of exactly the keys, complete
when there are two or more, and {'0'} when there is one. -/
def Obligations.GeneratedCodesArePrefixCode : Prop :=
  ∀ s : State, (∃ sym, ftAt s.ft sym ≠ 0) → ∃ t u, exec .build s = .next t ∧ exec .gen t = .next u ∧
    prefixFree u.ct ∧ (∀ sym, ctAt u.ct sym ≠ [] ↔ ftAt s.ft sym ≠ 0) ∧
    (2 ≤ ndist s.ft → ∀ b : Code, 255 ≤ b.length → ∃! sym, ctAt u.ct sym ≠ [] ∧ ctAt u.ct sym <+: b) ∧
    (ndist s.ft = 1 → ∀ sym, ctAt u.ct sym ≠ [] → ctAt u.ct sym = [false])

/-- R154, its first sentence: a code is 1 to L - 1 bits long when L ≥ 2, and 1 bit when L = 1; so it fits
the 8-bit length field. -/
def Obligations.CodeLengthsAreBounded : Prop :=
  ∀ s : State, (∃ sym, ftAt s.ft sym ≠ 0) → ∃ t u, exec .build s = .next t ∧ exec .gen t = .next u ∧
    ∀ sym, ftAt s.ft sym ≠ 0 → 1 ≤ (ctAt u.ct sym).length ∧ (ctAt u.ct sym).length ≤ 255 ∧
      (ctAt u.ct sym).length ≤ max 1 (ndist s.ft - 1)

/-! ### Bit Encoder (43_bit_encoder.md) -/

/-- R160, R229: the order of ENCODE's tests before the first symbol. -/
def Obligations.EncodeTestsInOrder : Prop :=
  ∀ (n : Imm) (s : State),
    (s.ctValid = false → exec (.encode n) s = .next (raise .noTable s)) ∧
    (s.ctValid = true → n = 0 → exec (.encode n) s = .next (raise .emptyInput s)) ∧
    (s.ctValid = true → n ≠ 0 → s.cfg.ibufSize < n → exec (.encode n) s = .next (raise (.srcRange n) s)) ∧
    (s.ctValid = true → n ≠ 0 → n ≤ s.cfg.ibufSize → s.cfg.obufSize.toNat < (header n.toNat s.ct).length →
      exec (.encode n) s = .next (raise .dstOverflow s))

/-- R162, R163: when every symbol has a code and the frame fits, ENCODE completes: OBUF holds the header and
then pack of the codes in input order, OLEN is the frame's length, TBITS the body bits; nothing else changes.
The last clause, that OBUF at or above OLEN keeps its bytes, is the model's (notes/assumptions/10.md, DEDUCED): R37
lets the host read any value there. -/
def Obligations.EncodeWritesFrame : Prop :=
  ∀ (n : Imm) (s : State) (xs : List Symbol), s.ctValid = true → n ≠ 0 → n ≤ s.cfg.ibufSize →
    xs.length = n.toNat → ibufHolds s xs → (∀ x ∈ xs, ctAt s.ct x ≠ []) →
    (header n.toNat s.ct ++ pack (bodyBits s.ct xs)).length ≤ s.cfg.obufSize.toNat → ∃ obuf olen tbits,
      exec (.encode n) s = .next { s with obuf := obuf, olen := olen, tbits := tbits } ∧
      (∀ a, a < olen.toNat → memGet obuf a = (header n.toNat s.ct ++ pack (bodyBits s.ct xs))[a]?) ∧
      olen.toNat = (header n.toNat s.ct).length + ((bodyBits s.ct xs).length + 7) / 8 ∧
      tbits.toNat = (bodyBits s.ct xs).length ∧
      (∀ a, olen.toNat ≤ a → memGet obuf a = memGet s.obuf a)

/-- R91, R92, R93, R95, R161: the present symbols in ascending order, the header's length and the frame's; for a code
table in canonical form, the header's six fixed bytes and its entries with LEN exact, and the bound of its length. A
frame of at least one symbol has 10 bytes or more, and R100's frame of four 'a' has 10. -/
def Obligations.HeaderLayout : Prop :=
  (∀ (n : Nat) (ct : Tab Code),
    (present ct).Pairwise (· < ·) ∧ (∀ sym, sym ∈ present ct ↔ ctAt ct sym ≠ []) ∧
    (header n ct).length = 6 + ((present ct).map (fun sym => 2 + ((ctAt ct sym).length + 7) / 8)).sum ∧
    (ctWf ct = true →
      header n ct = be32 n ++ be16 (present ct).length ++
        (present ct).flatMap (fun sym => [sym, BitVec.ofNat 8 (ctAt ct sym).length] ++ pack (ctAt ct sym)) ∧
      (∀ sym, (BitVec.ofNat 8 (ctAt ct sym).length).toNat = (ctAt ct sym).length) ∧
      (header n ct).length ≤ 8710)) ∧
  (∀ (ct : Tab Code) (xs : List Symbol),
    (frameOf ct xs).length = 6 + ((present ct).map (fun sym => 2 + ((ctAt ct sym).length + 7) / 8)).sum +
      ((bodyBits ct xs).length + 7) / 8 ∧
    (xs ≠ [] → (∀ x ∈ xs, ctAt ct x ≠ []) → 10 ≤ (frameOf ct xs).length)) ∧
  frameOf [(0x61, [false])] [0x61, 0x61, 0x61, 0x61] = [0x00, 0x00, 0x00, 0x04, 0x00, 0x01, 0x61, 0x01, 0x00, 0x00]

/-- R164, R165: a header that does not fit raises DST_OVERFLOW before any byte is written; else the first symbol without a code raises NO_CODE at its index if the whole
bytes of the codes before it fit; a body that outgrows OBUF first, or a frame that does not fit, raises
DST_OVERFLOW. OBUF is all a stopped ENCODE may have written. -/
def Obligations.EncodeStops : Prop :=
  ∀ (n : Imm) (s : State) (xs : List Symbol), s.ctValid = true → n ≠ 0 → n ≤ s.cfg.ibufSize →
    xs.length = n.toNat → ibufHolds s xs →
    let size := s.cfg.obufSize.toNat
    let head := (header n.toNat s.ct).length
    (size < head → exec (.encode n) s = .next (raise .dstOverflow s)) ∧
    (∀ (i : Nat) (x : Symbol), head ≤ size → xs[i]? = some x → ctAt s.ct x = [] →
      (∀ y ∈ xs.take i, ctAt s.ct y ≠ []) →
      let whole := head + (bodyBits s.ct (xs.take i)).length / 8
      (whole ≤ size → ∃ obuf, exec (.encode n) s = .next (raise (.noCode i) { s with obuf := obuf })) ∧
      (size < whole → ∃ obuf, exec (.encode n) s = .next (raise .dstOverflow { s with obuf := obuf }))) ∧
    (head ≤ size → (∀ x ∈ xs, ctAt s.ct x ≠ []) → size < head + ((bodyBits s.ct xs).length + 7) / 8 →
      ∃ obuf, exec (.encode n) s = .next (raise .dstOverflow { s with obuf := obuf }))

/-- R167, its first half: ENCODE is a function of n, the first n bytes of IBUF, CT and the sizes: two states
that agree on those give the same fault or the same registers and the same defined bytes of OBUF. -/
def Obligations.EncodeDependsOnInputAndTable : Prop :=
  ∀ (n : Imm) (s t s' t' : State), s.cfg = t.cfg → s.ctValid = t.ctValid → s.fault = false → t.fault = false →
    (∀ sym, ctAt s.ct sym = ctAt t.ct sym) → (∀ a, a < n.toNat → memGet s.ibuf a = memGet t.ibuf a) →
    exec (.encode n) s = .next s' → exec (.encode n) t = .next t' →
      s'.fault = t'.fault ∧ s'.olen = t'.olen ∧ (s'.fault = true → s'.err = t'.err ∧ s'.errinfo = t'.errinfo) ∧
      (s'.fault = false → s'.tbits = t'.tbits) ∧ ∀ a, a < s'.olen.toNat → memGet s'.obuf a = memGet t'.obuf a

/-! ### Bit Decoder (44_bit_decoder.md) -/

/-- R180, R181: SRC_RANGE, then the fixed header's faults in frame order. -/
def Obligations.DecodeFixedHeaderFaults : Prop :=
  ∀ (m : Imm) (s : State),
    (s.cfg.ibufSize < m → exec (.decode m) s = .next (raise (.srcRange m) s)) ∧
    (∀ bs : List Byte, m ≤ s.cfg.ibufSize → bs.length = m.toNat → ibufHolds s bs →
      (bs.length < 4 → exec (.decode m) s = .next (raise (.hdrTrunc 0) s)) ∧
      (∀ (b0 b1 b2 b3 : Byte) (r : List Byte), bs = b0 :: b1 :: b2 :: b3 :: r →
        let n := b0.toNat * 2 ^ 24 + b1.toNat * 2 ^ 16 + b2.toNat * 2 ^ 8 + b3.toNat
        (n = 0 → exec (.decode m) s = .next (raise .hdrNsymZero s)) ∧
        (n ≠ 0 → r.length < 2 → exec (.decode m) s = .next (raise (.hdrTrunc 4) s)) ∧
        (∀ (c0 c1 : Byte) (r' : List Byte), n ≠ 0 → r = c0 :: c1 :: r' →
          let l := c0.toNat * 2 ^ 8 + c1.toNat
          (l = 0 ∨ 256 < l) → exec (.decode m) s = .next (raise (.hdrNdistRange l) s))))

/-- R182: after k good entries, the tests of entry k in their order. -/
def Obligations.DecodeEntryFaults : Prop :=
  ∀ (m : Imm) (s : State) (n l : Nat) (es : List (Symbol × Code)) (rest : List Byte),
    frameInIbuf s m n l es rest → tableFits es → es.length < l →
    (rest.length < 2 →
      exec (.decode m) s = .next (raise (.hdrTrunc (m.toNat - rest.length)) s)) ∧
    (∀ (sym lenByte : Byte) (r : List Byte), rest = sym :: lenByte :: r →
      (lenByte = 0 → exec (.decode m) s = .next (raise (.hdrLenZero es.length) s)) ∧
      (lenByte ≠ 0 → sym ∈ es.map Prod.fst →
        exec (.decode m) s = .next (raise (.hdrDupSymbol es.length) s)) ∧
      (lenByte ≠ 0 → sym ∉ es.map Prod.fst → r.length < (lenByte.toNat + 7) / 8 →
        exec (.decode m) s = .next (raise (.hdrTrunc (m.toNat - r.length)) s)))

/-- R183: after k good entries, a code that clashes with an earlier one raises HDR_PREFIX_CONFLICT, and one
that clashes with none but needs a 512th node raises HDR_TREE_OVERFLOW. -/
def Obligations.DecodeTableFaults : Prop :=
  ∀ (m : Imm) (s : State) (n l : Nat) (es : List (Symbol × Code)) (e : Symbol × Code) (eb rest : List Byte),
    frameInIbuf s m n l es (eb ++ rest) → tableFits es → es.length < l → entryBytes e eb →
    1 ≤ e.2.length → e.2.length ≤ 255 → e.1 ∉ es.map Prod.fst →
    ((∃ f ∈ es, ¬ apart f.2 e.2) →
      exec (.decode m) s = .next (raise (.hdrPrefixConflict es.length) s)) ∧
    ((∀ f ∈ es, apart f.2 e.2) → 510 < dtNeed (es ++ [e]) →
      exec (.decode m) s = .next (raise (.hdrTreeOverflow es.length) s))

/-- R185: after a good header, NSYM above OBUF_SIZE raises DST_OVERFLOW. -/
def Obligations.DecodeTestsCapacity : Prop :=
  ∀ (m : Imm) (s : State) (n : Nat) (es : List (Symbol × Code)) (rest : List Byte),
    frameInIbuf s m n es.length es rest → tableFits es → s.cfg.obufSize.toNat < n →
      exec (.decode m) s = .next (raise .dstOverflow s)

/-- R187, R190, R191, R193: a good header, in any order of entries and with any pad bits, and a body whose bits
begin with the codes of xs, whatever follows: DECODE completes with OLEN = NSYM and OBUF holding xs; nothing else
changes. The last clause, that OBUF at or above NSYM keeps its bytes, is the model's (notes/assumptions/10.md,
DEDUCED): R37 lets the host read any value there. -/
def Obligations.DecodeReproducesSymbols : Prop :=
  ∀ (m : Imm) (s : State) (es : List (Symbol × Code)) (xs : List Symbol) (bits : Code) (body : List Byte),
    frameInIbuf s m xs.length es.length es body → tableFits es → xs.length ≤ s.cfg.obufSize.toNat →
    codesUnder es xs bits → bits <+: bitsOf body → ∃ obuf olen,
      exec (.decode m) s = .next { s with obuf := obuf, olen := olen } ∧ olen.toNat = xs.length ∧
      (∀ a, a < xs.length → memGet obuf a = xs[a]?) ∧
      (∀ a, xs.length ≤ a → memGet obuf a = memGet s.obuf a)

/-- R188: a body whose bits are the codes of xs and then a proper part of a code, or nothing, while NSYM says
more symbols: BODY_TRUNC with the number of symbols emitted. -/
def Obligations.DecodeTruncatedBody : Prop :=
  ∀ (m : Imm) (s : State) (n : Nat) (es : List (Symbol × Code)) (xs : List Symbol) (bits part : Code) (body : List Byte),
    frameInIbuf s m n es.length es body → tableFits es → n ≤ s.cfg.obufSize.toNat →
    codesUnder es xs bits → bitsOf body = bits ++ part → (∃ e ∈ es, part <+: e.2 ∧ part ≠ e.2) →
    xs.length < n → ∃ obuf,
      exec (.decode m) s = .next (raise (.bodyTrunc xs.length) { s with obuf := obuf })

/-- R189: a body bit that leads out of the tree while symbols are missing: WALK_INVALID with the index of that
bit. -/
def Obligations.DecodeInvalidWalk : Prop :=
  ∀ (m : Imm) (s : State) (n : Nat) (es : List (Symbol × Code)) (xs : List Symbol) (bits part : Code) (b : Bool)
    (body : List Byte),
    frameInIbuf s m n es.length es body → tableFits es → n ≤ s.cfg.obufSize.toNat →
    codesUnder es xs bits → bits ++ part ++ [b] <+: bitsOf body → (∃ e ∈ es, part <+: e.2 ∧ part ≠ e.2) →
    (∀ e ∈ es, ¬ part ++ [b] <+: e.2) → xs.length < n → ∃ obuf,
      exec (.decode m) s = .next (raise (.walkInvalid (bits.length + part.length)) { s with obuf := obuf })

/-- R180: DECODE works from the frame alone: two states with the same sizes and the same first m bytes of IBUF
get the same fault or the same output, whatever FT, NODE, CT, the flags and the registers hold. -/
def Obligations.DecodeReadsFrameAlone : Prop :=
  ∀ (m : Imm) (s t s' t' : State), s.cfg = t.cfg → s.fault = false → t.fault = false →
    (∀ a, a < m.toNat → memGet s.ibuf a = memGet t.ibuf a) →
    exec (.decode m) s = .next s' → exec (.decode m) t = .next t' →
      s'.fault = t'.fault ∧ s'.olen = t'.olen ∧ (s'.fault = true → s'.err = t'.err ∧ s'.errinfo = t'.errinfo) ∧
      ∀ a, a < s'.olen.toNat → memGet s'.obuf a = memGet t'.obuf a

/-! ### COMPRESS and the round trip (45_control_commands.md, 44_bit_decoder.md) -/

/-- R214: COMPRESS n on n written bytes with FAULT = 0. Its first three words complete and leave the code table of
the bytes. When OBUF is large enough for the frame, the four words end with the flags, ROOTF, TBITS, OLEN and
CMDCNT the rule gives and the frame in OBUF; when it is not, with DST_OVERFLOW (R161, R165), so no other fault
occurs. A frame has at most 8710 + 32n bytes (R154, R161). COMPRESS 0 raises EMPTY_INPUT and its other three words
are discarded. -/
def Obligations.CompressRuns : Prop :=
  (∀ (n : Imm) (s : State) (xs : List Symbol), s.fault = false → n ≠ 0 → n ≤ s.cfg.ibufSize →
    xs.length = n.toNat → ibufHolds s xs → ∃ t1,
      acceptWords [encode (.count n), encode .build, encode .gen] s = .next t1 ∧
      (frameOf t1.ct xs).length ≤ 8710 + 32 * n.toNat ∧
      ((frameOf t1.ct xs).length ≤ s.cfg.obufSize.toNat → ∃ t,
        acceptWords (compressWords n) s = .next t ∧ t.fault = false ∧ t.treeValid = true ∧ t.ctValid = true ∧
        t.ct = t1.ct ∧ t.olen.toNat = (frameOf t.ct xs).length ∧ obufHolds t (frameOf t.ct xs) ∧
        t.rootf.toNat = n.toNat ∧ t.tbits.toNat = (bodyBits t.ct xs).length ∧ t.cmdcnt = s.cmdcnt + 4) ∧
      (s.cfg.obufSize.toNat < (frameOf t1.ct xs).length → ∃ t,
        acceptWords (compressWords n) s = .next t ∧ t.fault = true ∧ readReg t 1 = some 0x0206 ∧ t.olen = 0)) ∧
  (∀ s : State, s.fault = false → acceptWords (compressWords 0) s =
    .next { raise .emptyInput s with cmdcnt := s.cmdcnt + 4 })

/-- R192, the document's round trip: a frame that COMPRESS n wrote, copied to IBUF, decodes to the n symbols. -/
def Obligations.CompressThenDecodeRoundTrip : Prop :=
  ∀ (n : Imm) (s t u : State) (xs : List Symbol) (f : List Byte), s.fault = false → n ≠ 0 → n ≤ s.cfg.ibufSize →
    xs.length = n.toNat → ibufHolds s xs → acceptWords (compressWords n) s = .next t → t.fault = false →
    f.length = t.olen.toNat → obufHolds t f → ibufHolds u f → t.olen ≤ u.cfg.ibufSize →
    n ≤ u.cfg.obufSize → ∃ v,
      exec (.decode t.olen) u = .next v ∧ v.fault = u.fault ∧ v.olen = n ∧ obufHolds v xs

/-- R167, its second half, and the document's determinism: COMPRESS n is a function of n, the first n bytes of
IBUF and the sizes alone: two states that agree on those end with the same fault, or with the same flags, registers
(but CMDCNT), tables (NODE below NNODES) and defined bytes of OBUF, whatever else they held. -/
def Obligations.CompressDependsOnInputAlone : Prop :=
  ∀ (n : Imm) (s t s' t' : State), s.cfg = t.cfg → s.fault = false → t.fault = false →
    (∀ a, a < n.toNat → memGet s.ibuf a = memGet t.ibuf a) →
    acceptWords (compressWords n) s = .next s' → acceptWords (compressWords n) t = .next t' →
      s'.fault = t'.fault ∧ s'.olen = t'.olen ∧
      (s'.fault = true → s'.err = t'.err ∧ s'.errinfo = t'.errinfo) ∧
      (s'.fault = false → s'.treeValid = t'.treeValid ∧ s'.ctValid = t'.ctValid ∧ s'.root = t'.root ∧
        s'.nnodes = t'.nnodes ∧ s'.rootf = t'.rootf ∧ s'.tbits = t'.tbits ∧ s'.ft = t'.ft ∧ s'.ct = t'.ct ∧
        ∀ h : Handle, h.toNat < s'.nnodes.toNat → nodeAt s'.node h = nodeAt t'.node h) ∧
      ∀ a, a < s'.olen.toNat → memGet s'.obuf a = memGet t'.obuf a

/-- R166, its sentences on T: after COMPRESS n, TBITS is the sum over the symbols of count times code length,
and n when the input is one symbol repeated ("average code length equals 1 bit"). -/
def Obligations.CompressCountsBodyBits : Prop :=
  ∀ (n : Imm) (s t : State) (xs : List Symbol), s.fault = false → n ≤ s.cfg.ibufSize → xs.length = n.toNat →
    ibufHolds s xs → acceptWords (compressWords n) s = .next t → t.fault = false →
      t.tbits.toNat = (allSymbols.map (fun x => (ftAt t.ft x).toNat * (ctAt t.ct x).length)).sum ∧
      (∀ x, (ftAt t.ft x).toNat = xs.count x) ∧
      (∀ y : Symbol, (∀ x ∈ xs, x = y) → t.tbits.toNat = n.toNat)

/-! ### Faults (60_exceptions.md) -/

/-- R226: fault entry, and the registers the host then reads; everything else stays. -/
def Obligations.FaultEntryLatches : Prop :=
  ∀ (c : Cause) (s : State),
    raise c s = { s with fault := true, err := (raise c s).err, errinfo := (raise c s).errinfo, olen := 0 } ∧
    readReg (raise c s) 1 = some (BitVec.ofNat 32 ((causeSub c).toNat * 256 + (causeClass c).toNat)) ∧
    (raise c s).errinfo.toNat = causeInfo c % 2 ^ 32 ∧ readReg (raise c s) 11 = some 0

/-- R220, R228: the ERR value of every cause, and what its ERRINFO is. -/
def Obligations.FaultCodes : Prop :=
  causeErr .emptyInput = 0x0101 ∧ causeErr .emptyTable = 0x0201 ∧ (∀ i, causeErr (.noCode i) = 0x0102) ∧
  (∀ p, causeErr (.hdrTrunc p) = 0x0103) ∧ causeErr .hdrNsymZero = 0x0203 ∧
  (∀ l, causeErr (.hdrNdistRange l) = 0x0303) ∧ (∀ k, causeErr (.hdrLenZero k) = 0x0403) ∧
  (∀ k, causeErr (.hdrDupSymbol k) = 0x0503) ∧ (∀ k, causeErr (.hdrPrefixConflict k) = 0x0603) ∧
  (∀ k, causeErr (.hdrTreeOverflow k) = 0x0703) ∧ (∀ em, causeErr (.bodyTrunc em) = 0x0803) ∧
  (∀ bp, causeErr (.walkInvalid bp) = 0x0903) ∧ (∀ op, causeErr (.badOpcode op) = 0x0104) ∧
  (∀ op, causeErr (.badReserved op) = 0x0204) ∧ causeErr .noTree = 0x0105 ∧ causeErr .noTable = 0x0205 ∧
  (∀ n, causeErr (.srcRange n) = 0x0106) ∧ causeErr .dstOverflow = 0x0206 ∧
  causeInfo .emptyInput = 0 ∧ causeInfo .emptyTable = 0 ∧ causeInfo .hdrNsymZero = 0 ∧ causeInfo .noTree = 0 ∧
  causeInfo .noTable = 0 ∧ causeInfo .dstOverflow = 0 ∧
  (∀ n : Nat, causeInfo (.noCode n) = n ∧ causeInfo (.hdrTrunc n) = n ∧ causeInfo (.hdrNdistRange n) = n ∧
    causeInfo (.hdrLenZero n) = n ∧ causeInfo (.hdrDupSymbol n) = n ∧ causeInfo (.hdrPrefixConflict n) = n ∧
    causeInfo (.hdrTreeOverflow n) = n ∧ causeInfo (.bodyTrunc n) = n ∧ causeInfo (.walkInvalid n) = n) ∧
  (∀ op : BitVec 8, causeInfo (.badOpcode op) = op.toNat ∧ causeInfo (.badReserved op) = op.toNat) ∧
  (∀ n : Imm, causeInfo (.srcRange n) = n.toNat)

/-- R230: a command that faults leaves the flags, the tables and the result registers exactly as they were;
only OBUF may have changed, and OLEN is 0. -/
def Obligations.FaultsArePrecise : Prop :=
  ∀ (i : Instr) (s t : State), s.fault = false → exec i s = .next t → t.fault = true →
    productsSame s t ∧ outsideSame s t ∧ t.olen = 0 ∧
    ((∀ n, i ≠ .encode n) → (∀ m, i ≠ .decode m) → t.obuf = s.obuf)

/-! ### The whole block (10_state.md, 20_memory.md, 70_reset_and_hazards.md) -/

/-- R22, R31: the register map, whole. -/
def Obligations.RegisterMap : Prop :=
  ∀ s : State,
    (∃ st, readReg s 0 = some st ∧ st.getLsbD 0 = s.fault ∧ st.getLsbD 1 = s.treeValid ∧ st.getLsbD 2 = s.ctValid ∧
      ∀ k, 3 ≤ k → st.getLsbD k = false) ∧
    (∃ v, readReg s 1 = some v ∧ v.toNat = s.err.toNat) ∧ readReg s 2 = some s.errinfo ∧
    readReg s 3 = some s.cmdcnt ∧ (∃ v, readReg s 4 = some v ∧ v.toNat = ndist s.ft) ∧
    (∃ v, readReg s 5 = some v ∧ v.toNat = s.root.toNat) ∧
    (∃ v, readReg s 6 = some v ∧ v.toNat = s.nnodes.toNat) ∧
    (∃ lo hi, readReg s 7 = some lo ∧ readReg s 8 = some hi ∧ s.rootf.toNat = hi.toNat * 2 ^ 32 + lo.toNat) ∧
    (∃ lo hi, readReg s 9 = some lo ∧ readReg s 10 = some hi ∧ s.tbits.toNat = hi.toNat * 2 ^ 32 + lo.toNat) ∧
    readReg s 11 = some s.olen ∧ ∀ r, 12 ≤ r → readReg s r = none

/-- R42, R250, for every pair of sizes: what reset leaves, and that the reset action gives it from any state.
That NODE keeps its bytes (R34: "not cleared by reset") is notes/assumptions/6.md. -/
def Obligations.ResetLeavesAllClear : Prop :=
  (∀ (c : Config) (r : Nat), r < 12 → readReg (State.resetWith c) r = some 0) ∧
  (∀ (c : Config) (sym : Symbol), ftAt (State.resetWith c).ft sym = 0 ∧ ctAt (State.resetWith c).ct sym = []) ∧
  (∀ s : State, hostAct .reset s = .next { State.resetWith s.cfg with node := s.node, pending := s.pending, reply := s.reply, freeCtr := s.freeCtr, resets := s.resets + 1 }) ∧
  State.reset = State.resetWith Config.vectors

/-- R258, the host's accesses to the buffers and the registers: what they change, and what the spec refuses. A byte
of OBUF at or above OLEN is answered with a free value drawn anew (R37), and a byte of IBUF that is not written with
a free value that stays (R36, R68): the two free values are notes/assumptions/4.md, that a step gives the host's
answer in a field of State is notes/assumptions/11.md, and the faults at addresses outside a buffer are
notes/assumptions/9.md. The last three clauses are R68: reading the same location twice gives the same answer and
the second read changes nothing. -/
def Obligations.HostAccessesBuffersAndRegisters : Prop :=
  (∀ (s : State) (a : Nat) (v : Byte), a < s.cfg.ibufSize.toNat → ∃ ibuf,
    hostAct (.writeIbuf a v) s = .next { s with ibuf := ibuf } ∧ memGet ibuf a = some v ∧
    ∀ b, b ≠ a → memGet ibuf b = memGet s.ibuf b) ∧
  (∀ (s : State) (a : Nat) (v : Byte), a < s.cfg.ibufSize.toNat → memGet s.ibuf a = some v →
    hostAct (.readIbuf a) s = .next { s with reply := .byte v }) ∧
  (∀ (s : State) (a : Nat), a < s.cfg.ibufSize.toNat → memGet s.ibuf a = none →
    hostAct (.readIbuf a) s = .next { s with reply := .byte (Config.unwrittenByte s.resets a) }) ∧
  (∀ (s : State) (a : Nat) (v : Byte), a < s.cfg.obufSize.toNat → a < s.olen.toNat → memGet s.obuf a = some v →
    hostAct (.readObuf a) s = .next { s with reply := .byte v }) ∧
  (∀ (s : State) (a : Nat), a < s.cfg.obufSize.toNat → s.olen.toNat ≤ a →
    hostAct (.readObuf a) s = .next { s with reply := .byte (Config.freeByte s.freeCtr), freeCtr := s.freeCtr + 1 }) ∧
  (∀ (s : State) (a : Nat), s.cfg.ibufSize.toNat ≤ a → hostAct (.readIbuf a) s = .fault (.noIbufByte a) ∧
    ∀ v : Byte, hostAct (.writeIbuf a v) s = .fault (.noIbufByte a)) ∧
  (∀ (s : State) (a : Nat), s.cfg.obufSize.toNat ≤ a → hostAct (.readObuf a) s = .fault (.noObufByte a)) ∧
  (∀ (s : State) (r : Nat) (v : RegWord), readReg s r = some v →
    hostAct (.readReg r) s = .next { s with reply := .reg v }) ∧
  (∀ (s : State) (r : Nat), 12 ≤ r → hostAct (.readReg r) s = .refused (.noSuchRegister r)) ∧
  (∀ (s : State) (r : Nat) (v : RegWord), hostAct (.writeReg r v) s = .refused (.registerWrite r)) ∧
  (∀ (s : State) (a : Nat) (v : Byte), hostAct (.writeObuf a v) s = .refused (.obufWrite a)) ∧
  (∀ (s t : State) (a : Nat), hostAct (.readIbuf a) s = .next t → hostAct (.readIbuf a) t = .next t) ∧
  (∀ (s t : State) (r : Nat), hostAct (.readReg r) s = .next t → hostAct (.readReg r) t = .next t) ∧
  (∀ (s t : State) (a : Nat), a < s.olen.toNat → (memGet s.obuf a).isSome → hostAct (.readObuf a) s = .next t →
    hostAct (.readObuf a) t = .next t)

/-- R23, R28, R29, R30, R33, R34, R35, R36, R62: which commands write what. IBUF and what is the host's are
written by no command; NODE and the root registers by BUILD (CLR clears the registers); FT by COUNT, LDF
and CLR; CT by GEN and CLR; TBITS by ENCODE and CLR; OLEN by no other command that does not fault; OBUF by
ENCODE and DECODE, never at or above OBUF_SIZE. -/
def Obligations.CommandsWriteOnlyTheirProducts : Prop :=
  ∀ (i : Instr) (s t : State), exec i s = .next t →
    outsideSame s t ∧
    (i ≠ .build → t.node = s.node) ∧
    (i ≠ .build → i ≠ .clr → t.root = s.root ∧ t.nnodes = s.nnodes ∧ t.rootf = s.rootf) ∧
    ((∀ n, i ≠ .count n) → (∀ sym n, i ≠ .ldf sym n) → i ≠ .clr → t.ft = s.ft) ∧
    (i ≠ .gen → i ≠ .clr → t.ct = s.ct) ∧
    ((∀ n, i ≠ .encode n) → i ≠ .clr → t.tbits = s.tbits) ∧
    (t.fault = false → (∀ n, i ≠ .encode n) → (∀ m, i ≠ .decode m) → i ≠ .clr → t.olen = s.olen) ∧
    ((∀ n, i ≠ .encode n) → (∀ m, i ≠ .decode m) → t.obuf = s.obuf) ∧
    (∀ a, s.cfg.obufSize.toNat ≤ a → memGet t.obuf a = memGet s.obuf a)

/-- R23, R255: how one command moves the two valid flags. TREE_VALID rises by BUILD alone and CT_VALID by GEN
alone; a changed FT leaves neither set, and a new tree leaves no code table. -/
def Obligations.ValidFlagsFollowStages : Prop :=
  ∀ (i : Instr) (s t : State), s.fault = false → exec i s = .next t →
    (s.treeValid = false → t.treeValid = true → i = .build ∧ t.ctValid = false) ∧
    (s.ctValid = false → t.ctValid = true → i = .gen ∧ s.treeValid = true ∧ t.treeValid = true) ∧
    (t.ft ≠ s.ft → t.treeValid = false ∧ t.ctValid = false) ∧
    (t.node ≠ s.node → t.ctValid = false) ∧
    (t.fault = true → t.treeValid = s.treeValid ∧ t.ctValid = s.ctValid)

/-- R256, R194: every command ends. On a finalized tree or none (R43 (d)) and with the host's duty of R251 (2)
done, no command stops the machine. -/
def Obligations.EveryCommandEnds : Prop :=
  ∀ (i : Instr) (s : State), s.treeOk → readable i s → ∃ t, exec i s = .next t

/-- The canonical form is kept by every step (the model's own: equal contents are equal data). -/
def Obligations.StepKeepsCanonicalForm : Prop :=
  ∀ s t : State, s.canonical → step s = .next t → t.canonical

/-- R37: every byte of OBUF below OLEN is defined, kept by every step. -/
def Obligations.StepKeepsOutputDefined : Prop :=
  ∀ s t : State, s.outputDefined → step s = .next t → t.outputDefined

/-- R43 (a), (b), (c), kept by every step. -/
def Obligations.StepKeepsLatchAndFlagRules : Prop :=
  ∀ s t : State, s.latchClear ∧ s.latchSet ∧ s.tableNeedsTree → step s = .next t →
    t.latchClear ∧ t.latchSet ∧ t.tableNeedsTree

/-- R43 whole, kept by every step from every state that has it. -/
def Obligations.StepKeepsR43 : Prop :=
  ∀ s t : State, s.r43 → step s = .next t → t.r43

/-- R43, the canonical form and the defined output hold at reset, for every pair of sizes. -/
def Obligations.ResetHasInvariants : Prop :=
  ∀ c : Config, (State.resetWith c).r43 ∧ (State.resetWith c).canonical ∧ (State.resetWith c).outputDefined

/-- R96, R97, R98: the fields inside the block hold a code and an entry without loss, and lie where the rules
say. -/
def Obligations.InternalLayoutsRoundTrip : Prop :=
  (∀ c : Code, c.length ≤ 255 → ofCtField c.length (ctField c) = c ∧
    (∀ i, i < c.length → (ctField c).getLsbD (254 - i) = c.getD i false) ∧
    (∀ k, k < 255 - c.length → (ctField c).getLsbD k = false)) ∧
  (∀ n : Node, ofNodeWord (nodeWord n) = n ∧ ((nodeWord n).getLsbD 66 = true ↔ n.kind = .internal) ∧
    (nodeWord n).extractLsb' 58 8 = n.sym ∧ (nodeWord n).extractLsb' 18 40 = n.freq ∧
    (nodeWord n).extractLsb' 9 9 = n.left ∧ (nodeWord n).extractLsb' 0 9 = n.right) ∧
  (∀ w : BitVec 67, nodeWord (ofNodeWord w) = w) ∧
  (∀ n : DtNode, ofDtWord (dtWord n) = n ∧ ((dtWord n).getLsbD 26 = true ↔ n.kind = .internal) ∧
    (dtWord n).extractLsb' 18 8 = n.sym ∧ (dtWord n).extractLsb' 9 9 = n.left ∧
    (dtWord n).extractLsb' 0 9 = n.right) ∧
  (∀ w : BitVec 27, dtWord (ofDtWord w) = w)
end

