-- ==== Sys2Proof/Laws/State.lean ====
section
/-! SUPPORT. One lemma for each field of State under each named update, so that no proof unfolds a record
update. -/

namespace Sys2Proof.Machine

open Sys2Proof

/-! ### raise -/

@[simp] theorem raise_cfg (c : Cause) (s : State) : (raise c s).cfg = s.cfg := rfl
@[simp] theorem raise_fault (c : Cause) (s : State) : (raise c s).fault = true := rfl
@[simp] theorem raise_treeValid (c : Cause) (s : State) : (raise c s).treeValid = s.treeValid := rfl
@[simp] theorem raise_ctValid (c : Cause) (s : State) : (raise c s).ctValid = s.ctValid := rfl
@[simp] theorem raise_err (c : Cause) (s : State) : (raise c s).err = causeErr c := rfl
@[simp] theorem raise_errinfo (c : Cause) (s : State) : (raise c s).errinfo = BitVec.ofNat 32 (causeInfo c) := rfl
@[simp] theorem raise_cmdcnt (c : Cause) (s : State) : (raise c s).cmdcnt = s.cmdcnt := rfl
@[simp] theorem raise_root (c : Cause) (s : State) : (raise c s).root = s.root := rfl
@[simp] theorem raise_nnodes (c : Cause) (s : State) : (raise c s).nnodes = s.nnodes := rfl
@[simp] theorem raise_rootf (c : Cause) (s : State) : (raise c s).rootf = s.rootf := rfl
@[simp] theorem raise_tbits (c : Cause) (s : State) : (raise c s).tbits = s.tbits := rfl
@[simp] theorem raise_olen (c : Cause) (s : State) : (raise c s).olen = 0 := rfl
@[simp] theorem raise_ft (c : Cause) (s : State) : (raise c s).ft = s.ft := rfl
@[simp] theorem raise_node (c : Cause) (s : State) : (raise c s).node = s.node := rfl
@[simp] theorem raise_ct (c : Cause) (s : State) : (raise c s).ct = s.ct := rfl
@[simp] theorem raise_ibuf (c : Cause) (s : State) : (raise c s).ibuf = s.ibuf := rfl
@[simp] theorem raise_obuf (c : Cause) (s : State) : (raise c s).obuf = s.obuf := rfl
@[simp] theorem raise_pending (c : Cause) (s : State) : (raise c s).pending = s.pending := rfl
@[simp] theorem raise_reply (c : Cause) (s : State) : (raise c s).reply = s.reply := rfl
@[simp] theorem raise_freeCtr (c : Cause) (s : State) : (raise c s).freeCtr = s.freeCtr := rfl
@[simp] theorem raise_resets (c : Cause) (s : State) : (raise c s).resets = s.resets := rfl

/-! ### clearBlock -/

@[simp] theorem clearBlock_cfg (s : State) : (clearBlock s).cfg = s.cfg := rfl
@[simp] theorem clearBlock_fault (s : State) : (clearBlock s).fault = false := rfl
@[simp] theorem clearBlock_treeValid (s : State) : (clearBlock s).treeValid = false := rfl
@[simp] theorem clearBlock_ctValid (s : State) : (clearBlock s).ctValid = false := rfl
@[simp] theorem clearBlock_err (s : State) : (clearBlock s).err = 0 := rfl
@[simp] theorem clearBlock_errinfo (s : State) : (clearBlock s).errinfo = 0 := rfl
@[simp] theorem clearBlock_cmdcnt (s : State) : (clearBlock s).cmdcnt = s.cmdcnt := rfl
@[simp] theorem clearBlock_root (s : State) : (clearBlock s).root = 0 := rfl
@[simp] theorem clearBlock_nnodes (s : State) : (clearBlock s).nnodes = 0 := rfl
@[simp] theorem clearBlock_rootf (s : State) : (clearBlock s).rootf = 0 := rfl
@[simp] theorem clearBlock_tbits (s : State) : (clearBlock s).tbits = 0 := rfl
@[simp] theorem clearBlock_olen (s : State) : (clearBlock s).olen = 0 := rfl
@[simp] theorem clearBlock_ft (s : State) : (clearBlock s).ft = [] := rfl
@[simp] theorem clearBlock_node (s : State) : (clearBlock s).node = s.node := rfl
@[simp] theorem clearBlock_ct (s : State) : (clearBlock s).ct = [] := rfl
@[simp] theorem clearBlock_ibuf (s : State) : (clearBlock s).ibuf = s.ibuf := rfl
@[simp] theorem clearBlock_obuf (s : State) : (clearBlock s).obuf = s.obuf := rfl
@[simp] theorem clearBlock_pending (s : State) : (clearBlock s).pending = s.pending := rfl
@[simp] theorem clearBlock_reply (s : State) : (clearBlock s).reply = s.reply := rfl
@[simp] theorem clearBlock_freeCtr (s : State) : (clearBlock s).freeCtr = s.freeCtr := rfl
@[simp] theorem clearBlock_resets (s : State) : (clearBlock s).resets = s.resets := rfl

/-! ### bumpCmdcnt -/

@[simp] theorem bumpCmdcnt_cfg (s : State) : (bumpCmdcnt s).cfg = s.cfg := rfl
@[simp] theorem bumpCmdcnt_fault (s : State) : (bumpCmdcnt s).fault = s.fault := rfl
@[simp] theorem bumpCmdcnt_treeValid (s : State) : (bumpCmdcnt s).treeValid = s.treeValid := rfl
@[simp] theorem bumpCmdcnt_ctValid (s : State) : (bumpCmdcnt s).ctValid = s.ctValid := rfl
@[simp] theorem bumpCmdcnt_err (s : State) : (bumpCmdcnt s).err = s.err := rfl
@[simp] theorem bumpCmdcnt_errinfo (s : State) : (bumpCmdcnt s).errinfo = s.errinfo := rfl
@[simp] theorem bumpCmdcnt_cmdcnt (s : State) : (bumpCmdcnt s).cmdcnt = s.cmdcnt + 1 := rfl
@[simp] theorem bumpCmdcnt_root (s : State) : (bumpCmdcnt s).root = s.root := rfl
@[simp] theorem bumpCmdcnt_nnodes (s : State) : (bumpCmdcnt s).nnodes = s.nnodes := rfl
@[simp] theorem bumpCmdcnt_rootf (s : State) : (bumpCmdcnt s).rootf = s.rootf := rfl
@[simp] theorem bumpCmdcnt_tbits (s : State) : (bumpCmdcnt s).tbits = s.tbits := rfl
@[simp] theorem bumpCmdcnt_olen (s : State) : (bumpCmdcnt s).olen = s.olen := rfl
@[simp] theorem bumpCmdcnt_ft (s : State) : (bumpCmdcnt s).ft = s.ft := rfl
@[simp] theorem bumpCmdcnt_node (s : State) : (bumpCmdcnt s).node = s.node := rfl
@[simp] theorem bumpCmdcnt_ct (s : State) : (bumpCmdcnt s).ct = s.ct := rfl
@[simp] theorem bumpCmdcnt_ibuf (s : State) : (bumpCmdcnt s).ibuf = s.ibuf := rfl
@[simp] theorem bumpCmdcnt_obuf (s : State) : (bumpCmdcnt s).obuf = s.obuf := rfl
@[simp] theorem bumpCmdcnt_pending (s : State) : (bumpCmdcnt s).pending = s.pending := rfl
@[simp] theorem bumpCmdcnt_reply (s : State) : (bumpCmdcnt s).reply = s.reply := rfl
@[simp] theorem bumpCmdcnt_freeCtr (s : State) : (bumpCmdcnt s).freeCtr = s.freeCtr := rfl
@[simp] theorem bumpCmdcnt_resets (s : State) : (bumpCmdcnt s).resets = s.resets := rfl

/-! ### dropTree -/

@[simp] theorem dropTree_cfg (s : State) : (dropTree s).cfg = s.cfg := rfl
@[simp] theorem dropTree_fault (s : State) : (dropTree s).fault = s.fault := rfl
@[simp] theorem dropTree_treeValid (s : State) : (dropTree s).treeValid = false := rfl
@[simp] theorem dropTree_ctValid (s : State) : (dropTree s).ctValid = false := rfl
@[simp] theorem dropTree_err (s : State) : (dropTree s).err = s.err := rfl
@[simp] theorem dropTree_errinfo (s : State) : (dropTree s).errinfo = s.errinfo := rfl
@[simp] theorem dropTree_cmdcnt (s : State) : (dropTree s).cmdcnt = s.cmdcnt := rfl
@[simp] theorem dropTree_root (s : State) : (dropTree s).root = s.root := rfl
@[simp] theorem dropTree_nnodes (s : State) : (dropTree s).nnodes = s.nnodes := rfl
@[simp] theorem dropTree_rootf (s : State) : (dropTree s).rootf = s.rootf := rfl
@[simp] theorem dropTree_tbits (s : State) : (dropTree s).tbits = s.tbits := rfl
@[simp] theorem dropTree_olen (s : State) : (dropTree s).olen = s.olen := rfl
@[simp] theorem dropTree_ft (s : State) : (dropTree s).ft = s.ft := rfl
@[simp] theorem dropTree_node (s : State) : (dropTree s).node = s.node := rfl
@[simp] theorem dropTree_ct (s : State) : (dropTree s).ct = s.ct := rfl
@[simp] theorem dropTree_ibuf (s : State) : (dropTree s).ibuf = s.ibuf := rfl
@[simp] theorem dropTree_obuf (s : State) : (dropTree s).obuf = s.obuf := rfl
@[simp] theorem dropTree_pending (s : State) : (dropTree s).pending = s.pending := rfl
@[simp] theorem dropTree_reply (s : State) : (dropTree s).reply = s.reply := rfl
@[simp] theorem dropTree_freeCtr (s : State) : (dropTree s).freeCtr = s.freeCtr := rfl
@[simp] theorem dropTree_resets (s : State) : (dropTree s).resets = s.resets := rfl

/-! ### setTree -/

@[simp] theorem setTree_cfg (s : State) : (setTree s).cfg = s.cfg := rfl
@[simp] theorem setTree_fault (s : State) : (setTree s).fault = s.fault := rfl
@[simp] theorem setTree_treeValid (s : State) : (setTree s).treeValid = true := rfl
@[simp] theorem setTree_ctValid (s : State) : (setTree s).ctValid = false := rfl
@[simp] theorem setTree_err (s : State) : (setTree s).err = s.err := rfl
@[simp] theorem setTree_errinfo (s : State) : (setTree s).errinfo = s.errinfo := rfl
@[simp] theorem setTree_cmdcnt (s : State) : (setTree s).cmdcnt = s.cmdcnt := rfl
@[simp] theorem setTree_root (s : State) : (setTree s).root = s.root := rfl
@[simp] theorem setTree_nnodes (s : State) : (setTree s).nnodes = s.nnodes := rfl
@[simp] theorem setTree_rootf (s : State) : (setTree s).rootf = s.rootf := rfl
@[simp] theorem setTree_tbits (s : State) : (setTree s).tbits = s.tbits := rfl
@[simp] theorem setTree_olen (s : State) : (setTree s).olen = s.olen := rfl
@[simp] theorem setTree_ft (s : State) : (setTree s).ft = s.ft := rfl
@[simp] theorem setTree_node (s : State) : (setTree s).node = s.node := rfl
@[simp] theorem setTree_ct (s : State) : (setTree s).ct = s.ct := rfl
@[simp] theorem setTree_ibuf (s : State) : (setTree s).ibuf = s.ibuf := rfl
@[simp] theorem setTree_obuf (s : State) : (setTree s).obuf = s.obuf := rfl
@[simp] theorem setTree_pending (s : State) : (setTree s).pending = s.pending := rfl
@[simp] theorem setTree_reply (s : State) : (setTree s).reply = s.reply := rfl
@[simp] theorem setTree_freeCtr (s : State) : (setTree s).freeCtr = s.freeCtr := rfl
@[simp] theorem setTree_resets (s : State) : (setTree s).resets = s.resets := rfl

/-! ### setTable -/

@[simp] theorem setTable_cfg (s : State) : (setTable s).cfg = s.cfg := rfl
@[simp] theorem setTable_fault (s : State) : (setTable s).fault = s.fault := rfl
@[simp] theorem setTable_treeValid (s : State) : (setTable s).treeValid = s.treeValid := rfl
@[simp] theorem setTable_ctValid (s : State) : (setTable s).ctValid = true := rfl
@[simp] theorem setTable_err (s : State) : (setTable s).err = s.err := rfl
@[simp] theorem setTable_errinfo (s : State) : (setTable s).errinfo = s.errinfo := rfl
@[simp] theorem setTable_cmdcnt (s : State) : (setTable s).cmdcnt = s.cmdcnt := rfl
@[simp] theorem setTable_root (s : State) : (setTable s).root = s.root := rfl
@[simp] theorem setTable_nnodes (s : State) : (setTable s).nnodes = s.nnodes := rfl
@[simp] theorem setTable_rootf (s : State) : (setTable s).rootf = s.rootf := rfl
@[simp] theorem setTable_tbits (s : State) : (setTable s).tbits = s.tbits := rfl
@[simp] theorem setTable_olen (s : State) : (setTable s).olen = s.olen := rfl
@[simp] theorem setTable_ft (s : State) : (setTable s).ft = s.ft := rfl
@[simp] theorem setTable_node (s : State) : (setTable s).node = s.node := rfl
@[simp] theorem setTable_ct (s : State) : (setTable s).ct = s.ct := rfl
@[simp] theorem setTable_ibuf (s : State) : (setTable s).ibuf = s.ibuf := rfl
@[simp] theorem setTable_obuf (s : State) : (setTable s).obuf = s.obuf := rfl
@[simp] theorem setTable_pending (s : State) : (setTable s).pending = s.pending := rfl
@[simp] theorem setTable_reply (s : State) : (setTable s).reply = s.reply := rfl
@[simp] theorem setTable_freeCtr (s : State) : (setTable s).freeCtr = s.freeCtr := rfl
@[simp] theorem setTable_resets (s : State) : (setTable s).resets = s.resets := rfl

/-! ### resetBlock and State.resetWith -/

@[simp] theorem resetBlock_cfg (s : State) : (resetBlock s).cfg = s.cfg := rfl
@[simp] theorem resetBlock_fault (s : State) : (resetBlock s).fault = false := rfl
@[simp] theorem resetBlock_treeValid (s : State) : (resetBlock s).treeValid = false := rfl
@[simp] theorem resetBlock_ctValid (s : State) : (resetBlock s).ctValid = false := rfl
@[simp] theorem resetBlock_err (s : State) : (resetBlock s).err = 0 := rfl
@[simp] theorem resetBlock_errinfo (s : State) : (resetBlock s).errinfo = 0 := rfl
@[simp] theorem resetBlock_cmdcnt (s : State) : (resetBlock s).cmdcnt = 0 := rfl
@[simp] theorem resetBlock_root (s : State) : (resetBlock s).root = 0 := rfl
@[simp] theorem resetBlock_nnodes (s : State) : (resetBlock s).nnodes = 0 := rfl
@[simp] theorem resetBlock_rootf (s : State) : (resetBlock s).rootf = 0 := rfl
@[simp] theorem resetBlock_tbits (s : State) : (resetBlock s).tbits = 0 := rfl
@[simp] theorem resetBlock_olen (s : State) : (resetBlock s).olen = 0 := rfl
@[simp] theorem resetBlock_ft (s : State) : (resetBlock s).ft = [] := rfl
@[simp] theorem resetBlock_node (s : State) : (resetBlock s).node = s.node := rfl
@[simp] theorem resetBlock_ct (s : State) : (resetBlock s).ct = [] := rfl
@[simp] theorem resetBlock_ibuf (s : State) : (resetBlock s).ibuf = [] := rfl
@[simp] theorem resetBlock_obuf (s : State) : (resetBlock s).obuf = [] := rfl
@[simp] theorem resetBlock_pending (s : State) : (resetBlock s).pending = s.pending := rfl
@[simp] theorem resetBlock_reply (s : State) : (resetBlock s).reply = s.reply := rfl
@[simp] theorem resetBlock_freeCtr (s : State) : (resetBlock s).freeCtr = s.freeCtr := rfl
@[simp] theorem resetBlock_resets (s : State) : (resetBlock s).resets = s.resets + 1 := rfl

@[simp] theorem resetWith_cfg (c : Config) : (State.resetWith c).cfg = c := rfl
@[simp] theorem resetWith_fault (c : Config) : (State.resetWith c).fault = false := rfl
@[simp] theorem resetWith_treeValid (c : Config) : (State.resetWith c).treeValid = false := rfl
@[simp] theorem resetWith_ctValid (c : Config) : (State.resetWith c).ctValid = false := rfl
@[simp] theorem resetWith_err (c : Config) : (State.resetWith c).err = 0 := rfl
@[simp] theorem resetWith_errinfo (c : Config) : (State.resetWith c).errinfo = 0 := rfl
@[simp] theorem resetWith_cmdcnt (c : Config) : (State.resetWith c).cmdcnt = 0 := rfl
@[simp] theorem resetWith_root (c : Config) : (State.resetWith c).root = 0 := rfl
@[simp] theorem resetWith_nnodes (c : Config) : (State.resetWith c).nnodes = 0 := rfl
@[simp] theorem resetWith_rootf (c : Config) : (State.resetWith c).rootf = 0 := rfl
@[simp] theorem resetWith_tbits (c : Config) : (State.resetWith c).tbits = 0 := rfl
@[simp] theorem resetWith_olen (c : Config) : (State.resetWith c).olen = 0 := rfl
@[simp] theorem resetWith_ft (c : Config) : (State.resetWith c).ft = [] := rfl
@[simp] theorem resetWith_node (c : Config) : (State.resetWith c).node = [] := rfl
@[simp] theorem resetWith_ct (c : Config) : (State.resetWith c).ct = [] := rfl
@[simp] theorem resetWith_ibuf (c : Config) : (State.resetWith c).ibuf = [] := rfl
@[simp] theorem resetWith_obuf (c : Config) : (State.resetWith c).obuf = [] := rfl
@[simp] theorem resetWith_pending (c : Config) : (State.resetWith c).pending = [] := rfl
@[simp] theorem resetWith_reply (c : Config) : (State.resetWith c).reply = .none := rfl
@[simp] theorem resetWith_freeCtr (c : Config) : (State.resetWith c).freeCtr = 0 := rfl
@[simp] theorem resetWith_resets (c : Config) : (State.resetWith c).resets = 0 := rfl

/-! ### answerByte: the reply and the counter of free values, nothing else -/

@[simp] theorem answerByte_cfg (s : State) (o : Option Byte) : (answerByte s o).cfg = s.cfg := by
  cases o <;> rfl
@[simp] theorem answerByte_fault (s : State) (o : Option Byte) : (answerByte s o).fault = s.fault := by
  cases o <;> rfl
@[simp] theorem answerByte_treeValid (s : State) (o : Option Byte) : (answerByte s o).treeValid = s.treeValid := by
  cases o <;> rfl
@[simp] theorem answerByte_ctValid (s : State) (o : Option Byte) : (answerByte s o).ctValid = s.ctValid := by
  cases o <;> rfl
@[simp] theorem answerByte_err (s : State) (o : Option Byte) : (answerByte s o).err = s.err := by
  cases o <;> rfl
@[simp] theorem answerByte_errinfo (s : State) (o : Option Byte) : (answerByte s o).errinfo = s.errinfo := by
  cases o <;> rfl
@[simp] theorem answerByte_cmdcnt (s : State) (o : Option Byte) : (answerByte s o).cmdcnt = s.cmdcnt := by
  cases o <;> rfl
@[simp] theorem answerByte_root (s : State) (o : Option Byte) : (answerByte s o).root = s.root := by
  cases o <;> rfl
@[simp] theorem answerByte_nnodes (s : State) (o : Option Byte) : (answerByte s o).nnodes = s.nnodes := by
  cases o <;> rfl
@[simp] theorem answerByte_rootf (s : State) (o : Option Byte) : (answerByte s o).rootf = s.rootf := by
  cases o <;> rfl
@[simp] theorem answerByte_tbits (s : State) (o : Option Byte) : (answerByte s o).tbits = s.tbits := by
  cases o <;> rfl
@[simp] theorem answerByte_olen (s : State) (o : Option Byte) : (answerByte s o).olen = s.olen := by
  cases o <;> rfl
@[simp] theorem answerByte_ft (s : State) (o : Option Byte) : (answerByte s o).ft = s.ft := by
  cases o <;> rfl
@[simp] theorem answerByte_node (s : State) (o : Option Byte) : (answerByte s o).node = s.node := by
  cases o <;> rfl
@[simp] theorem answerByte_ct (s : State) (o : Option Byte) : (answerByte s o).ct = s.ct := by
  cases o <;> rfl
@[simp] theorem answerByte_ibuf (s : State) (o : Option Byte) : (answerByte s o).ibuf = s.ibuf := by
  cases o <;> rfl
@[simp] theorem answerByte_obuf (s : State) (o : Option Byte) : (answerByte s o).obuf = s.obuf := by
  cases o <;> rfl
@[simp] theorem answerByte_pending (s : State) (o : Option Byte) : (answerByte s o).pending = s.pending := by
  cases o <;> rfl
@[simp] theorem answerByte_resets (s : State) (o : Option Byte) : (answerByte s o).resets = s.resets := by
  cases o <;> rfl

@[simp] theorem answerByte_reply_some (s : State) (b : Byte) : (answerByte s (some b)).reply = .byte b := rfl

/-! ### ibufRead: what the host reads of IBUF -/

theorem ibufRead_written (s : State) (a : Nat) (v : Byte) (h : memGet s.ibuf a = some v) : ibufRead s a = v := by
  simp [ibufRead, ibufAt, h]

theorem ibufRead_unwritten (s : State) (a : Nat) (h : memGet s.ibuf a = none) :
    ibufRead s a = Config.unwrittenByte s.resets a := by
  simp [ibufRead, ibufAt, h]

/-- What the host reads of IBUF depends on the bytes written and the resets alone (R68). -/
theorem ibufRead_congr (s t : State) (a : Nat) (hm : memGet t.ibuf a = memGet s.ibuf a) (hr : t.resets = s.resets) :
    ibufRead t a = ibufRead s a := by
  simp [ibufRead, ibufAt, hm, hr]

end Sys2Proof.Machine
end

