-- ==== Sys2Proof/Laws/Table.lean ====
section
/-! SUPPORT. Tables and buffers: reading after writing, and the canonical form kept by every operation. -/

namespace Sys2Proof.Machine

open Sys2Proof

variable {α : Type}

/-! ### Reading after writing -/

@[simp] theorem tabGet_nil (k : Nat) : tabGet ([] : Tab α) k = none := rfl

theorem tabGet_tabPut (t : Tab α) (k j : Nat) (v : α) :
    tabGet (tabPut t k v) j = if k = j then some v else tabGet t j := by
  induction t with
  | nil => simp [tabPut, tabGet]
  | cons e rest ih =>
    obtain ⟨k0, v0⟩ := e
    simp only [tabPut]
    split
    · simp [tabGet]
    · split
      · subst_vars
        simp only [tabGet]
        split <;> rfl
      · simp only [tabGet, ih]
        split <;> split <;> simp_all

@[simp] theorem tabGet_tabPut_same (t : Tab α) (k : Nat) (v : α) : tabGet (tabPut t k v) k = some v := by
  simp [tabGet_tabPut]

theorem tabGet_tabPut_ne (t : Tab α) {k j : Nat} (v : α) (h : k ≠ j) :
    tabGet (tabPut t k v) j = tabGet t j := by
  simp [tabGet_tabPut, h]

theorem tabGet_tabDrop (t : Tab α) (k j : Nat) :
    tabGet (tabDrop t k) j = if k = j then none else tabGet t j := by
  induction t with
  | nil => simp [tabDrop, tabGet]
  | cons e rest ih =>
    obtain ⟨k0, v0⟩ := e
    simp only [tabDrop] at ih
    by_cases h0 : k0 = k
    · subst h0
      simp only [tabDrop, List.filter_cons, bne_self_eq_false, Bool.false_eq_true, if_false, ih, tabGet]
      split <;> rfl
    · simp only [tabDrop, List.filter_cons, bne_iff_ne, ne_eq, h0, not_false_eq_true, if_true, tabGet, ih]
      split <;> split <;> simp_all

/-- Reading one byte of a buffer after writing one. -/
theorem memGet_memPut (m : Memory) (a b : Nat) (v : Byte) :
    memGet (memPut m a v) b = if a = b then some v else memGet m b := tabGet_tabPut m a b v

@[simp] theorem memGet_memPut_same (m : Memory) (a : Nat) (v : Byte) :
    memGet (memPut m a v) a = some v := tabGet_tabPut_same m a v

theorem memGet_memPut_ne (m : Memory) {a b : Nat} (v : Byte) (h : a ≠ b) :
    memGet (memPut m a v) b = memGet m b := tabGet_tabPut_ne m v h

/-- Reading one byte of a buffer after `MemWrite`. -/
theorem memGet_memWrite (bs : List Byte) (m : Memory) (a b : Nat) :
    memGet (memWrite m a bs) b = if a ≤ b ∧ b < a + bs.length then bs[b - a]? else memGet m b := by
  induction bs generalizing m a with
  | nil =>
    have h0 : ¬ (a ≤ b ∧ b < a + ([] : List Byte).length) := by simp
    rw [if_neg h0]
    rfl
  | cons x xs ih =>
    simp only [memWrite, ih, memGet_memPut, List.length_cons]
    by_cases hab : a = b
    · subst hab
      simp
    · by_cases hlt : a + 1 ≤ b ∧ b < a + 1 + xs.length
      · have h1 : a ≤ b ∧ b < a + (xs.length + 1) := by omega
        have h2 : b - a = (b - (a + 1)) + 1 := by omega
        simp [hlt, h1, h2]
      · have h1 : ¬ (a ≤ b ∧ b < a + (xs.length + 1)) := by omega
        rw [if_neg hlt, if_neg h1, if_neg hab]

/-- FT[y] after FT[x] <- c. -/
theorem ftAt_ftPut (ft : Tab Count) (x y : Symbol) (c : Count) :
    ftAt (ftPut ft x c) y = if x = y then c else ftAt ft y := by
  have hxy : x.toNat = y.toNat ↔ x = y := BitVec.toNat_inj
  unfold ftAt ftPut
  split
  · simp only [tabGet_tabDrop, hxy]
    split <;> simp_all
  · simp only [tabGet_tabPut, hxy]
    split <;> simp

@[simp] theorem ftAt_nil (x : Symbol) : ftAt [] x = 0 := rfl

/-- CT[y] after CT[x] <- c. -/
theorem ctAt_ctPut (ct : Tab Code) (x y : Symbol) (c : Code) :
    ctAt (ctPut ct x c) y = if x = y then c else ctAt ct y := by
  have hxy : x.toNat = y.toNat ↔ x = y := BitVec.toNat_inj
  unfold ctAt ctPut
  split
  · simp only [tabGet_tabDrop, hxy]
    split <;> simp_all
  · simp only [tabGet_tabPut, hxy]
    split <;> simp

@[simp] theorem ctAt_nil (x : Symbol) : ctAt [] x = [] := rfl

/-- NODE[h] after NODE[g] <- n, for a handle of the arena. -/
theorem nodeAt_nodePut (node : Tab Node) (g h : Handle) (n : Node) (hg : g ≠ nullHandle) :
    nodeAt (nodePut node g n) h = if g = h then some n else nodeAt node h := by
  have hgh : g.toNat = h.toNat ↔ g = h := BitVec.toNat_inj
  unfold nodeAt nodePut
  simp only [tabGet_tabPut, hgh]
  split <;> split <;> simp_all

@[simp] theorem nodeAt_null (node : Tab Node) : nodeAt node nullHandle = none := by
  simp [nodeAt]

/-! ### The canonical form -/

theorem mem_keys_tabPut (t : Tab α) (k : Nat) (v : α) (j : Nat) (h : j ∈ (tabPut t k v).map Prod.fst) :
    j = k ∨ j ∈ t.map Prod.fst := by
  induction t with
  | nil => simp_all [tabPut]
  | cons e rest ih =>
    obtain ⟨k0, v0⟩ := e
    simp only [tabPut] at h
    split at h
    · simp_all
    · split at h
      · simp_all
      · simp only [List.map_cons, List.mem_cons] at h ⊢
        rcases h with h | h
        · exact .inr (.inl h)
        · rcases ih h with h | h
          · exact .inl h
          · exact .inr (.inr h)

/-- Writing an entry keeps the keys rising. -/
theorem tabPut_sorted (t : Tab α) (k : Nat) (v : α) (h : (t.map Prod.fst).Pairwise (· < ·)) :
    ((tabPut t k v).map Prod.fst).Pairwise (· < ·) := by
  induction t with
  | nil => simp [tabPut]
  | cons e rest ih =>
    obtain ⟨k0, v0⟩ := e
    simp only [List.map_cons, List.pairwise_cons] at h
    simp only [tabPut]
    split
    · rename_i hk
      simp only [List.map_cons, List.pairwise_cons, List.mem_cons]
      exact ⟨fun a ha => ha.elim (fun h1 => h1 ▸ hk) (fun h1 => Nat.lt_trans hk (h.1 a h1)), h⟩
    · split
      · rename_i hk
        subst hk
        simpa only [List.map_cons, List.pairwise_cons] using h
      · simp only [List.map_cons, List.pairwise_cons]
        refine ⟨fun a ha => ?_, ih h.2⟩
        rcases mem_keys_tabPut rest k v a ha with h1 | h1
        · omega
        · exact h.1 a h1

/-- Every entry of a written table is the new one or an old one. -/
theorem mem_tabPut (t : Tab α) (k : Nat) (v : α) (e : Nat × α) (h : e ∈ tabPut t k v) :
    e = (k, v) ∨ e ∈ t := by
  induction t with
  | nil => simp_all [tabPut]
  | cons e0 rest ih =>
    obtain ⟨k0, v0⟩ := e0
    simp only [tabPut] at h
    split at h
    · simpa using h
    · split at h
      · simp only [List.mem_cons] at h ⊢
        tauto
      · simp only [List.mem_cons] at h ⊢
        rcases h with h | h
        · exact .inr (.inl h)
        · exact (ih h).imp_right .inr

theorem tabDrop_sorted (t : Tab α) (k : Nat) (h : (t.map Prod.fst).Pairwise (· < ·)) :
    ((tabDrop t k).map Prod.fst).Pairwise (· < ·) :=
  h.sublist ((List.filter_sublist (l := t)).map _)

/-- Writing one byte keeps a buffer canonical. -/
theorem memPut_wf (m : Memory) (a : Nat) (v : Byte) (h : Memory.wf m = true) :
    Memory.wf (memPut m a v) = true := by
  simp only [Memory.wf, decide_eq_true_eq] at h ⊢
  exact tabPut_sorted m a v h

/-- `MemWrite` keeps a buffer canonical. -/
theorem memWrite_wf (bs : List Byte) (m : Memory) (a : Nat) (h : Memory.wf m = true) :
    Memory.wf (memWrite m a bs) = true := by
  induction bs generalizing m a with
  | nil => exact h
  | cons x xs ih => exact ih _ _ (memPut_wf m a x h)

@[simp] theorem reset_ibuf_wf : Memory.wf State.reset.ibuf = true := rfl

@[simp] theorem reset_obuf_wf : Memory.wf State.reset.obuf = true := rfl

/-- Writing one byte below the size keeps a buffer canonical and within its size. -/
theorem memPut_bufWf (m : Memory) (size a : Nat) (v : Byte) (h : bufWf size m = true) (ha : a < size) :
    bufWf size (memPut m a v) = true := by
  simp only [bufWf, Bool.and_eq_true, List.all_eq_true, decide_eq_true_eq] at h ⊢
  refine ⟨memPut_wf m a v h.1, fun e he => ?_⟩
  rcases mem_tabPut m a v e he with h1 | h1
  · simpa [h1] using ha
  · exact h.2 e h1

/-- `MemWrite` below the size keeps a buffer canonical and within its size. -/
theorem memWrite_bufWf (bs : List Byte) (m : Memory) (size a : Nat) (h : bufWf size m = true)
    (ha : a + bs.length ≤ size) : bufWf size (memWrite m a bs) = true := by
  induction bs generalizing m a with
  | nil => exact h
  | cons x xs ih =>
    simp only [List.length_cons] at ha
    exact ih _ _ (memPut_bufWf m size a x h (by omega)) (by omega)

/-- Writing an entry below the bound keeps a table canonical. -/
theorem tabPut_tabWf (t : Tab α) (bound k : Nat) (v : α) (h : tabWf bound t = true) (hk : k < bound) :
    tabWf bound (tabPut t k v) = true := by
  simp only [tabWf, Bool.and_eq_true, List.all_eq_true, decide_eq_true_eq] at h ⊢
  refine ⟨tabPut_sorted t k v h.1, fun e he => ?_⟩
  rcases mem_tabPut t k v e he with h1 | h1
  · simpa [h1] using hk
  · exact h.2 e h1

theorem tabDrop_tabWf (t : Tab α) (bound k : Nat) (h : tabWf bound t = true) :
    tabWf bound (tabDrop t k) = true := by
  simp only [tabWf, Bool.and_eq_true, List.all_eq_true, decide_eq_true_eq] at h ⊢
  exact ⟨tabDrop_sorted t k h.1, fun e he => h.2 e (List.mem_of_mem_filter he)⟩

/-- FT[s] <- c keeps FT canonical. -/
theorem ftPut_ftWf (ft : Tab Count) (x : Symbol) (c : Count) (h : ftWf ft = true) :
    ftWf (ftPut ft x c) = true := by
  simp only [ftWf, Bool.and_eq_true, List.all_eq_true] at h ⊢
  unfold ftPut
  split
  · exact ⟨tabDrop_tabWf ft 256 _ h.1, fun e he => h.2 e (List.mem_of_mem_filter he)⟩
  · rename_i hc
    refine ⟨tabPut_tabWf ft 256 _ c h.1 x.isLt, fun e he => ?_⟩
    rcases mem_tabPut ft _ c e he with h1 | h1
    · simpa [h1] using hc
    · exact h.2 e h1

/-- CT[s] <- c keeps CT canonical, for a code of at most 255 bits. -/
theorem ctPut_ctWf (ct : Tab Code) (x : Symbol) (c : Code) (h : ctWf ct = true) (hc : c.length ≤ 255) :
    ctWf (ctPut ct x c) = true := by
  simp only [ctWf, Bool.and_eq_true, List.all_eq_true] at h ⊢
  unfold ctPut
  split
  · exact ⟨tabDrop_tabWf ct 256 _ h.1, fun e he => h.2 e (List.mem_of_mem_filter he)⟩
  · rename_i hne
    refine ⟨tabPut_tabWf ct 256 _ c h.1 x.isLt, fun e he => ?_⟩
    rcases mem_tabPut ct _ c e he with h1 | h1
    · simpa [h1, hne] using hc
    · exact h.2 e h1

end Sys2Proof.Machine
end

