-- ==== Sys2Proof/Laws/Pack.lean ====
section
/-! SUPPORT. Packing bits into bytes and reading them back (20_memory.md R63 to R65). -/

namespace Sys2Proof.Machine

open Sys2Proof

/-- The byte of eight given bits, by their weights. -/
theorem byteBit_ofBits (b0 b1 b2 b3 b4 b5 b6 b7 : Bool) (j : Fin 8) :
    byteBit (BitVec.ofNat 8 ([if b0 then 2 ^ 7 else 0, if b1 then 2 ^ 6 else 0, if b2 then 2 ^ 5 else 0,
      if b3 then 2 ^ 4 else 0, if b4 then 2 ^ 3 else 0, if b5 then 2 ^ 2 else 0, if b6 then 2 ^ 1 else 0,
      if b7 then 2 ^ 0 else 0].sum)) j = [b0, b1, b2, b3, b4, b5, b6, b7][j] := by
  revert b0 b1 b2 b3 b4 b5 b6 b7 j
  decide +kernel

/-- Bit j of a packed byte is bit j of the string, or 0 past its end (R64, R65). -/
theorem byteBit_packByte (d : Code) (j : Nat) (hj : j < 8) : byteBit (packByte d) j = d.getD j false := by
  have h := byteBit_ofBits (d.getD 0 false) (d.getD 1 false) (d.getD 2 false) (d.getD 3 false)
    (d.getD 4 false) (d.getD 5 false) (d.getD 6 false) (d.getD 7 false) ⟨j, hj⟩
  have hp : packByte d = BitVec.ofNat 8 ([if d.getD 0 false then 2 ^ 7 else 0,
      if d.getD 1 false then 2 ^ 6 else 0, if d.getD 2 false then 2 ^ 5 else 0,
      if d.getD 3 false then 2 ^ 4 else 0, if d.getD 4 false then 2 ^ 3 else 0,
      if d.getD 5 false then 2 ^ 2 else 0, if d.getD 6 false then 2 ^ 1 else 0,
      if d.getD 7 false then 2 ^ 0 else 0].sum) := rfl
  rw [hp, h]
  interval_cases j <;> rfl

@[simp] theorem length_pack (d : Code) : (pack d).length = bytesFor d.length := by
  simp [pack]

theorem getElem?_pack (d : Code) (k : Nat) (hk : k < bytesFor d.length) :
    (pack d)[k]? = some (packByte (d.drop (8 * k))) := by
  simp [pack, hk]

/-- Reading the i-th bit of bytes held in a buffer (R65). -/
theorem readBit_of_bytes (ibuf : Memory) (a i : Nat) (bs : List Byte) (hi : i < 8 * bs.length)
    (h : ∀ k, k < bs.length → memGet ibuf (a + k) = bs[k]?) :
    readBit ibuf a i = .ok (byteBit (bs.getD (i / 8) 0) (i % 8)) := by
  have hk : i / 8 < bs.length := by omega
  have := h (i / 8) hk
  simp [readBit, readByte, this, hk]

@[simp] theorem bitsOf_nil : bitsOf [] = [] := rfl

@[simp] theorem bitsOf_cons (b : Byte) (bs : List Byte) :
    bitsOf (b :: bs) = (List.range 8).map (byteBit b) ++ bitsOf bs := rfl

@[simp] theorem bitsOf_append (as bs : List Byte) : bitsOf (as ++ bs) = bitsOf as ++ bitsOf bs := by
  simp [bitsOf]

@[simp] theorem length_bitsOf (bs : List Byte) : (bitsOf bs).length = 8 * bs.length := by
  induction bs with
  | nil => rfl
  | cons b bs ih => simp [ih]; omega

/-- The i-th bit of bytes. -/
theorem getElem?_bitsOf (bs : List Byte) (i : Nat) (hi : i < 8 * bs.length) :
    (bitsOf bs)[i]? = some (byteBit (bs.getD (i / 8) 0) (i % 8)) := by
  induction bs generalizing i with
  | nil => simp at hi
  | cons b bs ih =>
    simp only [List.length_cons] at hi
    rw [bitsOf_cons]
    by_cases h8 : i < 8
    · have h0 : i / 8 = 0 := by omega
      have hm : i % 8 = i := by omega
      rw [List.getElem?_append_left (by simpa using h8), h0, hm]
      simp [h8]
    · have hd : i / 8 = (i - 8) / 8 + 1 := by omega
      have hm : i % 8 = (i - 8) % 8 := by omega
      rw [List.getElem?_append_right (by simp; omega), hd, hm]
      simpa using ih (i - 8) (by omega)

/-- Reading a bit of bytes held in a buffer gives that bit of them. -/
theorem readBit_bitsOf (ibuf : Memory) (a i : Nat) (bs : List Byte) (b : Bool)
    (h : ∀ k, k < bs.length → memGet ibuf (a + k) = bs[k]?) (hb : (bitsOf bs)[i]? = some b) :
    readBit ibuf a i = .ok b := by
  have hi : i < 8 * bs.length := by
    have := (List.getElem?_eq_some_iff.mp hb).1
    simpa using this
  rw [readBit_of_bytes ibuf a i bs hi h]
  rw [getElem?_bitsOf bs i hi] at hb
  simpa using hb

theorem getElem?_bitsOf_pack (d : Code) (i : Nat) (hi : i < 8 * bytesFor d.length) :
    (bitsOf (pack d))[i]? = some (d.getD i false) := by
  have hk : i / 8 < bytesFor d.length := by omega
  rw [getElem?_bitsOf _ _ (by simpa using hi)]
  have : (pack d).getD (i / 8) 0 = packByte (d.drop (8 * (i / 8))) := by
    simp [List.getD, getElem?_pack d _ hk]
  rw [this, byteBit_packByte _ _ (by omega)]
  simp only [List.getD_eq_getElem?_getD, List.getElem?_drop]
  congr 3
  omega

/-- A bit string is what its packed bytes begin with (R64, R65). -/
theorem prefix_bitsOf_pack (d : Code) : d <+: bitsOf (pack d) := by
  rw [List.prefix_iff_getElem?]
  intro i hi
  have hb : i < 8 * bytesFor d.length := by unfold bytesFor; omega
  rw [getElem?_bitsOf_pack d i hb]
  simp [List.getD, hi]

/-! ### Header integers -/

theorem beToNat32_be32 (v : Nat) (hv : v < 2 ^ 32) :
    beToNat32 (BitVec.ofNat 8 (v / 2 ^ 24)) (BitVec.ofNat 8 (v / 2 ^ 16)) (BitVec.ofNat 8 (v / 2 ^ 8))
      (BitVec.ofNat 8 v) = v := by
  simp only [beToNat32, BitVec.toNat_ofNat]
  omega

theorem beToNat16_be16 (v : Nat) (hv : v < 2 ^ 16) :
    beToNat16 (BitVec.ofNat 8 (v / 2 ^ 8)) (BitVec.ofNat 8 v) = v := by
  simp only [beToNat16, BitVec.toNat_ofNat]
  omega

@[simp] theorem length_be32 (v : Nat) : (be32 v).length = 4 := rfl

@[simp] theorem length_be16 (v : Nat) : (be16 v).length = 2 := rfl

end Sys2Proof.Machine
end

