-- ==== Sys2Proof/Laws/Engines.lean ====
section
/-! SUPPORT. Symbols, the Frequency Counter's loop, and for every command one lemma that says what a next
state of it is. -/

namespace Sys2Proof.Machine

open Sys2Proof

/-! ### The 256 symbols -/

theorem mem_allSymbols (x : Symbol) : x ∈ allSymbols := by
  simp only [allSymbols, List.mem_map, List.mem_range]
  exact ⟨x.toNat, x.isLt, by simp⟩

theorem allSymbols_sorted : allSymbols.Pairwise (· < ·) := by
  rw [allSymbols, List.pairwise_map]
  refine List.pairwise_lt_range.imp_of_mem ?_
  intro a b ha hb hab
  simp only [List.mem_range] at ha hb
  rw [BitVec.lt_def, BitVec.toNat_ofNat, BitVec.toNat_ofNat]
  omega

theorem nodup_allSymbols : allSymbols.Nodup := by
  refine allSymbols_sorted.imp ?_
  intro a b h hab
  rw [hab, BitVec.lt_def] at h
  omega

@[simp] theorem length_allSymbols : allSymbols.length = 256 := by simp [allSymbols]

theorem mem_keys (ft : Tab Count) (x : Symbol) : x ∈ keys ft ↔ ftAt ft x ≠ 0 := by
  simp [keys, mem_allSymbols]

theorem keys_sorted (ft : Tab Count) : (keys ft).Pairwise (· < ·) :=
  allSymbols_sorted.sublist List.filter_sublist

theorem nodup_keys (ft : Tab Count) : (keys ft).Nodup := nodup_allSymbols.sublist List.filter_sublist

theorem ndist_le (ft : Tab Count) : ndist ft ≤ 256 := by
  have := List.length_filter_le (fun s => ftAt ft s != 0) allSymbols
  simpa [ndist, keys] using this

theorem ndist_pos_iff (ft : Tab Count) : 0 < ndist ft ↔ ∃ x, ftAt ft x ≠ 0 := by
  simp only [ndist, List.length_pos_iff_exists_mem, mem_keys]

theorem mem_present (ct : Tab Code) (x : Symbol) : x ∈ present ct ↔ ctAt ct x ≠ [] := by
  simp [present, mem_allSymbols]

theorem present_sorted (ct : Tab Code) : (present ct).Pairwise (· < ·) :=
  allSymbols_sorted.sublist List.filter_sublist

theorem nodup_present (ct : Tab Code) : (present ct).Nodup := nodup_allSymbols.sublist List.filter_sublist

theorem length_present_le (ct : Tab Code) : (present ct).length ≤ 256 := by
  have := List.length_filter_le (fun s => ctAt ct s != []) allSymbols
  simpa [present] using this

/-- Two code tables with the same codes have the same present symbols. -/
theorem present_congr (ct ct' : Tab Code) (h : ∀ x, ctAt ct x = ctAt ct' x) : present ct = present ct' := by
  simp [present, h]

theorem keys_congr (ft ft' : Tab Count) (h : ∀ x, ftAt ft x = ftAt ft' x) : keys ft = keys ft' := by
  simp [keys, h]

/-! ### Reading IBUF -/

/-- An engine's read either gives the byte or is refused (R36); it raises no fault. -/
theorem readByte_error (ibuf : Memory) (a : Nat) (e : Stop) (h : readByte ibuf a = .error e) :
    memGet ibuf a = none ∧ e = .refused (.ibufUnwritten a) := by
  unfold readByte at h
  split at h <;> simp_all

theorem readByte_ok (ibuf : Memory) (a : Nat) (b : Byte) : readByte ibuf a = .ok b ↔ memGet ibuf a = some b := by
  unfold readByte
  split <;> simp_all

/-- A byte IBUF lacks is refused (R36). -/
theorem readByte_none (ibuf : Memory) (a : Nat) (h : memGet ibuf a = none) :
    readByte ibuf a = .error (.refused (.ibufUnwritten a)) := by
  simp [readByte, h]

theorem readBit_error (ibuf : Memory) (a i : Nat) (e : Stop) (h : readBit ibuf a i = .error e) :
    memGet ibuf (a + i / 8) = none ∧ e = .refused (.ibufUnwritten (a + i / 8)) := by
  unfold readBit at h
  split at h
  · simp at h
  · rename_i e' he
    obtain rfl : e' = e := by simpa using h
    exact readByte_error ibuf _ _ he

/-! ### The Frequency Counter -/

/-- COUNT's loop over bytes that are there adds each symbol's number of occurrences (R120). -/
theorem countLoop_ok (xs : List Symbol) (ibuf : Memory) (i : Nat) (ft : Tab Count)
    (h : ∀ j, j < xs.length → memGet ibuf (i + j) = xs[j]?) :
    ∃ ft', countLoop ibuf xs.length i ft = .ok ft' ∧
      ∀ x, ftAt ft' x = ftAt ft x + BitVec.ofNat 32 (xs.count x) := by
  induction xs generalizing i ft with
  | nil => exact ⟨ft, rfl, by simp⟩
  | cons y ys ih =>
    have h0 : readByte ibuf i = .ok y := by
      rw [readByte_ok]
      simpa using h 0 (by simp)
    obtain ⟨ft', hok, hft⟩ := ih (i + 1) (ftPut ft y (ftAt ft y + 1)) (fun j hj => by
      have := h (j + 1) (by simpa using hj)
      simpa [Nat.add_assoc, Nat.add_comm 1 j] using this)
    refine ⟨ft', ?_, fun x => ?_⟩
    · simp only [List.length_cons, countLoop, h0]
      exact hok
    rw [hft, ftAt_ftPut, List.count_cons]
    by_cases hxy : y = x
    · subst hxy
      have h1 : BitVec.ofNat 32 (List.count y ys + 1) = BitVec.ofNat 32 (List.count y ys) + 1#32 := BitVec.ofNat_add ..
      simp only [if_true, beq_self_eq_true, h1, BitVec.add_assoc]
      rw [BitVec.add_comm (1 : BitVec 32)]
      rfl
    · simp [hxy]

/-- COUNT's loop stops only at an unwritten byte, the first one. -/
theorem countLoop_error (ibuf : Memory) (k i : Nat) (ft : Tab Count) (e : Stop)
    (h : countLoop ibuf k i ft = .error e) :
    ∃ a, i ≤ a ∧ a < i + k ∧ memGet ibuf a = none ∧ e = .refused (.ibufUnwritten a) := by
  induction k generalizing i ft with
  | zero => simp [countLoop] at h
  | succ k ih =>
    unfold countLoop at h
    split at h
    · rename_i e' he
      obtain rfl : e' = e := by simpa using h
      obtain ⟨h1, h2⟩ := readByte_error ibuf i _ he
      exact ⟨i, by omega, by omega, h1, h2⟩
    · obtain ⟨a, h1, h2, h3⟩ := ih _ _ h
      exact ⟨a, by omega, by omega, h3⟩

/-- A loop of COUNT that ran to its end read bytes that are there. -/
theorem countLoop_bytes (ibuf : Memory) (k i : Nat) (ft ft' : Tab Count) (h : countLoop ibuf k i ft = .ok ft') :
    ∃ xs : List Symbol, xs.length = k ∧ ∀ j, j < k → memGet ibuf (i + j) = xs[j]? := by
  induction k generalizing i ft with
  | zero => exact ⟨[], rfl, fun j hj => by omega⟩
  | succ k ih =>
    unfold countLoop at h
    split at h
    · simp at h
    · rename_i x hx
      obtain ⟨xs, h1, h2⟩ := ih _ _ h
      refine ⟨x :: xs, by simp [h1], fun j hj => ?_⟩
      cases j with
      | zero => simpa using (readByte_ok _ _ _).mp hx
      | succ j =>
        rw [List.getElem?_cons_succ, ← h2 j (by omega)]
        congr 1
        omega

theorem sum_indicator (y : Symbol) (l : List Symbol) (hn : l.Nodup) (hy : y ∈ l) (f : Symbol → Nat) :
    (l.map (fun x => if y = x then f x else 0)).sum = f y := by
  induction l with
  | nil => simp at hy
  | cons a l ih =>
    rw [List.nodup_cons] at hn
    rw [List.map_cons, List.sum_cons]
    by_cases hya : y = a
    · subst hya
      have : (l.map (fun x => if y = x then f x else 0)).sum = 0 := by
        rw [List.sum_eq_zero_iff]
        intro n hn'
        obtain ⟨x, hx, rfl⟩ := List.mem_map.mp hn'
        rw [if_neg]
        rintro rfl
        exact hn.1 hx
      rw [if_pos rfl, this, Nat.add_zero]
    · rw [if_neg hya, ih hn.2 ((List.mem_cons.mp hy).resolve_left hya), Nat.zero_add]

/-- The sum of a weight over a sequence, symbol by symbol of the alphabet. -/
theorem sum_count_mul (f : Symbol → Nat) (xs : List Symbol) :
    (allSymbols.map (fun x => xs.count x * f x)).sum = (xs.map f).sum := by
  induction xs with
  | nil =>
    have h : ∀ l : List Symbol, (l.map (fun x => ([] : List Symbol).count x * f x)).sum = 0 := by
      intro l
      induction l with
      | nil => rfl
      | cons a l ih => rw [List.map_cons, List.sum_cons, ih, List.count_nil, Nat.zero_mul]
    exact h allSymbols
  | cons y ys ih =>
    have hsplit : (fun x => (y :: ys).count x * f x) =
        fun x => ys.count x * f x + (if y = x then f x else 0) := by
      funext x
      rw [List.count_cons]
      by_cases h : y = x
      · simp [h, Nat.add_mul]
      · simp [h]
    rw [hsplit, List.sum_map_add, ih, sum_indicator y _ nodup_allSymbols (mem_allSymbols y)]
    simp [Nat.add_comm]

/-- Counts of a sequence sum to its length (R121). -/
theorem ftSum_of_counts (ft : Tab Count) (xs : List Symbol) (h : ∀ x, (ftAt ft x).toNat = xs.count x) :
    ftSum ft = xs.length := by
  have := sum_count_mul (fun _ => 1) xs
  simpa [ftSum, h] using this

/-- What COUNT leaves of n bytes that are there (R120): the number of times each occurs. -/
theorem countLoop_counts (xs : List Symbol) (ibuf : Memory) (h : ∀ j, j < xs.length → memGet ibuf j = xs[j]?)
    (hlt : xs.length < 2 ^ 32) :
    ∃ ft, countLoop ibuf xs.length 0 [] = .ok ft ∧ ∀ x, (ftAt ft x).toNat = xs.count x := by
  obtain ⟨ft, h1, h2⟩ := countLoop_ok xs ibuf 0 [] (fun j hj => by rw [Nat.zero_add]; exact h j hj)
  refine ⟨ft, h1, fun x => ?_⟩
  have := List.count_le_length (a := x) (l := xs)
  rw [h2, ftAt_nil, show (0 : Count) = 0#32 from rfl, BitVec.zero_add, BitVec.toNat_ofNat, Nat.mod_eq_of_lt (by omega)]

/-- COUNT's loop gives a canonical table from a canonical one. -/
theorem countLoop_ftWf (ibuf : Memory) (k i : Nat) (ft ft' : Tab Count) (hw : ftWf ft = true)
    (h : countLoop ibuf k i ft = .ok ft') : ftWf ft' = true := by
  induction k generalizing i ft with
  | zero =>
    obtain rfl : ft = ft' := by simpa [countLoop] using h
    exact hw
  | succ k ih =>
    unfold countLoop at h
    split at h
    · simp at h
    · exact ih _ _ (ftPut_ftWf _ _ _ hw) h

/-! ### A command past its tests runs its engine -/

theorem execCount_run (n : Imm) (s : State) (h1 : n ≠ 0) (h2 : n ≤ s.cfg.ibufSize) : execCount n s =
    match countLoop s.ibuf n.toNat 0 [] with
    | .error e => stopOutcome s e
    | .ok ft => .next (dropTree { s with ft := ft }) := by
  rw [execCount, if_neg h1, if_neg (by simpa [BitVec.not_lt] using h2)]
  rfl

theorem execEncode_run (n : Imm) (s : State) (h0 : s.ctValid = true) (h1 : n ≠ 0) (h2 : n ≤ s.cfg.ibufSize) :
    execEncode n s = match writeFrame s.ct s.ibuf s.cfg.obufSize.toNat n.toNat s.obuf with
      | .error e => stopOutcome s e
      | .ok ps => .next { s with obuf := ps.obuf, olen := BitVec.ofNat 32 ps.wp,
                                 tbits := BitVec.ofNat 48 ps.total } := by
  rw [execEncode, if_neg (by simp [h0]), if_neg h1, if_neg (by simpa [BitVec.not_lt] using h2)]
  rfl

theorem execDecode_run (m : Imm) (s : State) (h : m ≤ s.cfg.ibufSize) : execDecode m s =
    match readFrame s.ibuf s.cfg.obufSize.toNat m.toNat s.obuf with
    | .error e => stopOutcome s e
    | .ok (n, w) => .next { s with obuf := w.obuf, olen := BitVec.ofNat 32 n } := by
  rw [execDecode, if_neg (by simpa [BitVec.not_lt] using h)]
  rfl

/-! ### What a next state of each command is -/

theorem execNop_next (s t : State) (h : execNop s = .next t) : t = s := by
  simpa [execNop, eq_comm] using h

theorem execClr_next (s t : State) (h : execClr s = .next t) : t = clearBlock s := by
  simpa [execClr, eq_comm] using h

theorem execLdf_next (sym : Symbol) (n : Imm) (s t : State) (h : execLdf sym n s = .next t) :
    t = dropTree { s with ft := ftPut s.ft sym n } := by
  simpa [execLdf, eq_comm] using h

/-- A stopped engine's next state is fault entry with OBUF as the engine left it. -/
theorem stopOutcome_next (s t : State) (e : Stop) (h : stopOutcome s e = .next t) :
    ∃ c obuf, e = .raised c obuf ∧ t = raise c { s with obuf := obuf } := by
  cases e with
  | raised c obuf => exact ⟨c, obuf, rfl, by simpa [stopOutcome, eq_comm] using h⟩
  | refused r => simp [stopOutcome] at h

/-- COUNT (R120): a fault before FT is touched, or the new table. -/
theorem execCount_next (n : Imm) (s t : State) (h : execCount n s = .next t) :
    (n = 0 ∧ t = raise .emptyInput s) ∨
    (n ≠ 0 ∧ s.cfg.ibufSize < n ∧ t = raise (.srcRange n) s) ∨
    (n ≠ 0 ∧ n ≤ s.cfg.ibufSize ∧ ∃ ft, countLoop s.ibuf n.toNat 0 [] = .ok ft ∧
      t = dropTree { s with ft := ft }) := by
  unfold execCount at h
  split at h
  · exact .inl ⟨‹_›, by simpa [eq_comm] using h⟩
  · split at h
    · exact .inr (.inl ⟨‹_›, ‹_›, by simpa [eq_comm] using h⟩)
    · split at h
      · rename_i e he
        obtain ⟨c, ob, rfl, _⟩ := stopOutcome_next s t e h
        obtain ⟨a, _, _, _, h4⟩ := countLoop_error _ _ _ _ _ he
        simp at h4
      · rename_i ft hft
        exact .inr (.inr ⟨‹_›, by simpa [BitVec.not_lt] using ‹¬ s.cfg.ibufSize < n›, ft, hft,
          by simpa [eq_comm] using h⟩)

/-- BUILD (R130): EMPTY_TABLE, or the tree. -/
theorem execBuild_next (s t : State) (h : execBuild s = .next t) :
    (ndist s.ft = 0 ∧ t = raise .emptyTable s) ∨
    (ndist s.ft ≠ 0 ∧
      t = setTree { s with
        node := (mergeLoop (ndist s.ft - 1) (mergeStart s)).node,
        root := (mergeLoop (ndist s.ft - 1) (mergeStart s)).pq.headD 0,
        nnodes := BitVec.ofNat 9 (2 * ndist s.ft - 1),
        rootf := freqAt (mergeLoop (ndist s.ft - 1) (mergeStart s)).node
          ((mergeLoop (ndist s.ft - 1) (mergeStart s)).pq.headD 0) }) := by
  unfold execBuild at h
  simp only at h
  split at h
  · exact .inl ⟨‹_›, by simpa [eq_comm] using h⟩
  · exact .inr ⟨‹_›, by simpa [eq_comm] using h⟩

/-- GEN (R150): NO_TREE, or the code table. -/
theorem execGen_next (s t : State) (h : execGen s = .next t) :
    (s.treeValid = false ∧ t = raise .noTree s) ∨
    (s.treeValid = true ∧ ∃ ct, codesOf s.node s.root = some ct ∧ t = setTable { s with ct := ct }) := by
  unfold execGen at h
  split at h
  · exact .inl ⟨‹_›, by simpa [eq_comm] using h⟩
  · split at h
    · simp at h
    · rename_i ct hct
      exact .inr ⟨by simpa using ‹¬ s.treeValid = false›, ct, hct, by simpa [eq_comm] using h⟩

/-- ENCODE (R160): one of the three tests before the frame, a fault while the frame is written, or the
frame. -/
theorem execEncode_next (n : Imm) (s t : State) (h : execEncode n s = .next t) :
    (s.ctValid = false ∧ t = raise .noTable s) ∨
    (s.ctValid = true ∧ n = 0 ∧ t = raise .emptyInput s) ∨
    (s.ctValid = true ∧ n ≠ 0 ∧ s.cfg.ibufSize < n ∧ t = raise (.srcRange n) s) ∨
    (s.ctValid = true ∧ n ≠ 0 ∧ n ≤ s.cfg.ibufSize ∧
      ((∃ c obuf, writeFrame s.ct s.ibuf s.cfg.obufSize.toNat n.toNat s.obuf = .error (.raised c obuf) ∧
          t = raise c { s with obuf := obuf }) ∨
       (∃ ps, writeFrame s.ct s.ibuf s.cfg.obufSize.toNat n.toNat s.obuf = .ok ps ∧
          t = { s with obuf := ps.obuf, olen := BitVec.ofNat 32 ps.wp, tbits := BitVec.ofNat 48 ps.total }))) := by
  unfold execEncode at h
  split at h
  · exact .inl ⟨‹_›, by simpa [eq_comm] using h⟩
  · have hc : s.ctValid = true := by simpa using ‹¬ s.ctValid = false›
    split at h
    · exact .inr (.inl ⟨hc, ‹_›, by simpa [eq_comm] using h⟩)
    · split at h
      · exact .inr (.inr (.inl ⟨hc, ‹_›, ‹_›, by simpa [eq_comm] using h⟩))
      · have hle : n ≤ s.cfg.ibufSize := by simpa [BitVec.not_lt] using ‹¬ s.cfg.ibufSize < n›
        refine .inr (.inr (.inr ⟨hc, ‹_›, hle, ?_⟩))
        split at h
        · rename_i e he
          obtain ⟨c, ob, rfl, h2⟩ := stopOutcome_next s t e h
          exact .inl ⟨c, ob, he, h2⟩
        · rename_i ps hps
          exact .inr ⟨ps, hps, by simpa [eq_comm] using h⟩

/-- DECODE (R180): SRC_RANGE, a fault of the frame, or its symbols. -/
theorem execDecode_next (m : Imm) (s t : State) (h : execDecode m s = .next t) :
    (s.cfg.ibufSize < m ∧ t = raise (.srcRange m) s) ∨
    (m ≤ s.cfg.ibufSize ∧
      ((∃ c obuf, readFrame s.ibuf s.cfg.obufSize.toNat m.toNat s.obuf = .error (.raised c obuf) ∧
          t = raise c { s with obuf := obuf }) ∨
       (∃ n w, readFrame s.ibuf s.cfg.obufSize.toNat m.toNat s.obuf = .ok (n, w) ∧
          t = { s with obuf := w.obuf, olen := BitVec.ofNat 32 n }))) := by
  unfold execDecode at h
  split at h
  · exact .inl ⟨‹_›, by simpa [eq_comm] using h⟩
  · have hle : m ≤ s.cfg.ibufSize := by simpa [BitVec.not_lt] using ‹¬ s.cfg.ibufSize < m›
    refine .inr ⟨hle, ?_⟩
    split at h
    · rename_i e he
      obtain ⟨c, ob, rfl, h2⟩ := stopOutcome_next s t e h
      exact .inl ⟨c, ob, he, h2⟩
    · rename_i n w hw
      exact .inr ⟨n, w, hw, by simpa [eq_comm] using h⟩

/-- Accepting a word (R212): the discard, a command, or IllegalCommand. -/
theorem acceptWord_next (w : CmdWord) (s t : State) (h : acceptWord w s = .next t) :
    (s.fault = true ∧ w = clrWord ∧ t = clearBlock (bumpCmdcnt s)) ∨
    (s.fault = true ∧ w ≠ clrWord ∧ t = bumpCmdcnt s) ∨
    (s.fault = false ∧ ∃ i, decode w = .ok i ∧ exec i (bumpCmdcnt s) = .next t) ∨
    (s.fault = false ∧ ∃ e, decode w = .error e ∧ t = raise (decodeCause e) (bumpCmdcnt s)) := by
  cases hf : s.fault with
  | true =>
    simp only [acceptWord, bumpCmdcnt_fault, hf, if_true] at h
    split at h
    · exact .inl ⟨rfl, ‹_›, execClr_next _ _ h⟩
    · exact .inr (.inl ⟨rfl, ‹_›, by simpa [eq_comm] using h⟩)
  | false =>
    simp only [acceptWord, bumpCmdcnt_fault, hf, Bool.false_eq_true, if_false] at h
    split at h
    · exact .inr (.inr (.inl ⟨rfl, _, ‹_›, h⟩))
    · exact .inr (.inr (.inr ⟨rfl, _, ‹_›, by simpa [eq_comm] using h⟩))

end Sys2Proof.Machine
end

