-- ==== Sys2Proof/Laws/Tree.lean ====
section
/-! SUPPORT. What BUILD's loops do (41_tree_builder.md): the leaves, one merge step, and the invariant of the
merge loop, from which the finished tree is read off. -/

namespace Sys2Proof.Machine

open Sys2Proof

/-! ### Handles as numbers -/

theorem nodeAt_eq_nodeNo (node : Tab Node) (h : Handle) : nodeAt node h = nodeNo node h.toNat := by
  simp [nodeNo]

theorem toNat_handle (j : Nat) (hj : j < 512) : (BitVec.ofNat 9 j).toNat = j := by
  simp only [BitVec.toNat_ofNat]
  omega

theorem ne_null_of_lt (g : Handle) (hg : g.toNat < 511) : g ≠ nullHandle := by
  intro h
  simp [h, nullHandle] at hg

/-- NODE[j] after NODE[g] <- n. -/
theorem nodeNo_nodePut (node : Tab Node) (g : Handle) (n : Node) (j : Nat) (hg : g.toNat < 511) (hj : j < 512) :
    nodeNo (nodePut node g n) j = if g.toNat = j then some n else nodeNo node j := by
  unfold nodeNo
  rw [nodeAt_nodePut node g _ n (ne_null_of_lt g hg)]
  have : g = BitVec.ofNat 9 j ↔ g.toNat = j := by
    rw [← BitVec.toNat_inj, toNat_handle j hj]
  simp [this]

/-- The frequency of a node that stands, as a number. -/
theorem freqAt_of_nodeAt (node : Tab Node) (h : Handle) (n : Node) (hn : nodeAt node h = some n) :
    freqAt node h = n.freq := by
  simp [freqAt, hn]

/-! ### The leaves (R131) -/

/-- The leaves stand one after another; nothing else is written. -/
theorem nodeNo_putLeaves (ft : Tab Count) (ks : List Symbol) (h : Nat) (node : Tab Node)
    (hk : h + ks.length ≤ 511) (j : Nat) (hj : j < 512) :
    nodeNo (putLeaves ft ks h node) j =
      if h ≤ j ∧ j < h + ks.length then (ks[j - h]?).map (leafNode ft) else nodeNo node j := by
  induction ks generalizing h node with
  | nil =>
    rw [if_neg (by simp)]
    rfl
  | cons k ks ih =>
    simp only [List.length_cons] at hk
    rw [putLeaves, ih (h + 1) _ (by omega)]
    have hh : (BitVec.ofNat 9 h).toNat = h := toNat_handle h (by omega)
    by_cases h1 : h + 1 ≤ j ∧ j < h + 1 + ks.length
    · rw [if_pos h1, if_pos (by simp; omega)]
      have : j - h = (j - (h + 1)) + 1 := by omega
      simp [this]
    · rw [if_neg h1, nodeNo_nodePut _ _ _ _ (by omega) hj, hh]
      by_cases h2 : h = j
      · subst h2
        simp
      · rw [if_neg h2, if_neg (by simp; omega)]

/-! ### The order of R132 and the least element -/

theorem before_iff (node : Tab Node) (a b : Handle) : before node a b = true ↔
    (freqAt node a).toNat < (freqAt node b).toNat ∨
      ((freqAt node a).toNat = (freqAt node b).toNat ∧ a.toNat < b.toNat) := by
  simp only [before, Bool.or_eq_true, Bool.and_eq_true, decide_eq_true_eq, beq_iff_eq, BitVec.lt_def,
    BitVec.toNat_inj]

theorem before_trans (node : Tab Node) {a b c' : Handle} (h1 : before node a b = true)
    (h2 : before node b c' = true) : before node a c' = true := by
  rw [before_iff] at *
  omega

theorem before_total (node : Tab Node) (a b : Handle) :
    a = b ∨ before node a b = true ∨ before node b a = true := by
  rw [before_iff, before_iff, ← BitVec.toNat_inj]
  omega

/-- `leastFrom` gives an element that comes before every other. -/
theorem leastFrom_spec (node : Tab Node) (h : Handle) (rest : List Handle) :
    leastFrom node h rest ∈ h :: rest ∧
      ∀ x ∈ h :: rest, x = leastFrom node h rest ∨ before node (leastFrom node h rest) x = true := by
  induction rest generalizing h with
  | nil => simp [leastFrom]
  | cons y rest ih =>
    simp only [leastFrom]
    split
    · rename_i hyh
      obtain ⟨h1, h2⟩ := ih y
      refine ⟨List.mem_cons_of_mem _ h1, fun x hx => ?_⟩
      rcases List.mem_cons.mp hx with rfl | hx
      · right
        rcases h2 y (by simp) with h3 | h3
        · rwa [← h3]
        · exact before_trans node h3 hyh
      · exact h2 x hx
    · rename_i hyh
      obtain ⟨h1, h2⟩ := ih h
      refine ⟨?_, fun x hx => ?_⟩
      · rcases List.mem_cons.mp h1 with h3 | h3
        · rw [h3]; simp
        · simp [h3]
      · rcases List.mem_cons.mp hx with rfl | hx
        · exact h2 x (by simp)
        · rcases List.mem_cons.mp hx with rfl | hx
          · rcases before_total node x h with h3 | h3 | h3
            · exact h3 ▸ h2 h (by simp)
            · exact absurd h3 hyh
            · right
              rcases h2 h (by simp) with h4 | h4
              · rwa [← h4]
              · exact before_trans node h4 h3
          · exact h2 x (List.mem_cons_of_mem _ hx)

/-- Extraction takes the least element, and there is one unless PQ is empty (R132). -/
theorem extractLeast_spec (node : Tab Node) (pq : List Handle) (hne : pq ≠ []) :
    ∃ a, extractLeast node pq = some (a, pq.erase a) ∧ a ∈ pq ∧ ∀ x ∈ pq, x ≠ a → before node a x = true := by
  cases pq with
  | nil => exact absurd rfl hne
  | cons h rest =>
    obtain ⟨h1, h2⟩ := leastFrom_spec node h rest
    exact ⟨_, rfl, h1, fun x hx hxa => (h2 x hx).resolve_left hxa⟩

/-- One merge step (R133): the two least elements become the children of the next node. -/
theorem mergeStep_spec (m : Merge) (hn : m.pq.Nodup) (h2 : 2 ≤ m.pq.length) :
    ∃ a b, a ∈ m.pq ∧ b ∈ m.pq ∧ a ≠ b ∧
      (∀ x ∈ m.pq, x ≠ a → before m.node a x = true) ∧
      (∀ x ∈ m.pq, x ≠ a → x ≠ b → before m.node b x = true) ∧
      mergeStep m = some { pq := (m.pq.erase a).erase b ++ [m.next], next := m.next + 1,
                           node := nodePut m.node m.next (mergeNode m.node a b) } := by
  obtain ⟨a, ha1, ha2, ha3⟩ := extractLeast_spec m.node m.pq (by
    intro h
    simp [h] at h2)
  have hlen : (m.pq.erase a).length = m.pq.length - 1 := List.length_erase_of_mem ha2
  obtain ⟨b, hb1, hb2, hb3⟩ := extractLeast_spec m.node (m.pq.erase a) (by
    intro h
    simp [h] at hlen
    omega)
  rw [hn.mem_erase_iff] at hb2
  refine ⟨a, b, ha2, hb2.2, fun h => hb2.1 h.symm, ha3, fun x hx hxa hxb => ?_, ?_⟩
  · exact hb3 x (hn.mem_erase_iff.mpr ⟨hxa, hx⟩) hxb
  · simp [mergeStep, ha1, hb1]

/-! ### Sums of frequencies -/

/-- The sum of the frequencies of a list of handles. -/
def freqSum (node : Tab Node) (hs : List Handle) : Nat := (hs.map (fun h => (freqAt node h).toNat)).sum

theorem freqSum_perm (node : Tab Node) {hs hs' : List Handle} (h : hs.Perm hs') :
    freqSum node hs = freqSum node hs' := (h.map _).sum_eq

theorem freqAt_le_freqSum (node : Tab Node) {hs : List Handle} {h : Handle} (hh : h ∈ hs) :
    (freqAt node h).toNat ≤ freqSum node hs :=
  List.le_sum_of_mem (List.mem_map.mpr ⟨h, hh, rfl⟩)

/-- The sum of FT is the sum over its keys. -/
theorem ftSum_eq_keys (ft : Tab Count) : ftSum ft = ((keys ft).map (fun x => (ftAt ft x).toNat)).sum := by
  unfold ftSum keys
  induction allSymbols with
  | nil => rfl
  | cons x xs ih =>
    rw [List.map_cons, List.sum_cons, ih, List.filter_cons]
    by_cases hx : ftAt ft x = 0
    · simp [hx]
    · rw [if_pos (by simpa using hx), List.map_cons, List.sum_cons]

/-- No sum of counts reaches 2^40 (R138). -/
theorem ftSum_le (ft : Tab Count) : ftSum ft ≤ 256 * (2 ^ 32 - 1) := by
  unfold ftSum
  have h : ∀ xs : List Symbol, (xs.map (fun x => (ftAt ft x).toNat)).sum ≤ xs.length * (2 ^ 32 - 1) := by
    intro xs
    induction xs with
    | nil => simp
    | cons x xs ih =>
      have hx : (ftAt ft x).toNat < 2 ^ 32 := (ftAt ft x).isLt
      simp only [List.map_cons, List.sum_cons, List.length_cons]
      omega
  have := h allSymbols
  rwa [length_allSymbols] at this

/-! ### The merge loop -/

/-- The node of handle i is made of the two least of the handles that wait, in the order of R132. -/
def mergedLeast (node : Tab Node) (l i : Nat) : Prop :=
  ∃ n, nodeNo node i = some n ∧
    ∀ h : Handle, h.toNat < i → (∀ j, l ≤ j → j < i → ¬ isChild node j h.toNat) →
      (h ≠ n.left → before node n.left h = true) ∧ (h ≠ n.left → h ≠ n.right → before node n.right h = true)

/-- The state of the merge loop after k steps on a table of l keys: what has been built, and what waits. -/
structure Merged (ft : Tab Count) (node0 : Tab Node) (k : Nat) (m : Merge) : Prop where
  next : m.next.toNat = ndist ft + k
  nodup : m.pq.Nodup
  len : m.pq.length = ndist ft - k
  waits : ∀ h, h ∈ m.pq ↔ h.toNat < ndist ft + k ∧
    ∀ i, ndist ft ≤ i → i < ndist ft + k → ¬ isChild m.node i h.toNat
  leaves : leavesStand ft m.node
  internal : ∀ i, ndist ft ≤ i → i < ndist ft + k → internalStands m.node i
  oneParent : ∀ i j h, ndist ft ≤ i → i < ndist ft + k → ndist ft ≤ j → j < ndist ft + k →
    isChild m.node i h → isChild m.node j h → i = j
  least : ∀ i, ndist ft ≤ i → i < ndist ft + k → mergedLeast m.node (ndist ft) i
  waitParent : ∀ i h, ndist ft ≤ i → i < ndist ft + k → isChild m.node i h →
    ∃ n, nodeNo m.node i = some n ∧ (∀ j, ndist ft ≤ j → j < i → ¬ isChild m.node j h)
  sum : freqSum m.node m.pq = ftSum ft
  bound : ∀ i, i < ndist ft + k → (freqAt m.node (BitVec.ofNat 9 i)).toNat ≤ ftSum ft
  above : ∀ j, ndist ft + k ≤ j → j < 512 → nodeNo m.node j = nodeNo node0 j

theorem isChild_lt {node : Tab Node} {i h : Nat} (hi : internalStands node i) (hc : isChild node i h) : h < i := by
  obtain ⟨n, _, _, hn, _, _, hl, hr, _⟩ := hi
  obtain ⟨n', hn', hor⟩ := hc
  rw [hn] at hn'
  cases hn'
  omega

/-- The handles below `b` in two arenas stand alike. -/
def sameBelow (node node' : Tab Node) (b : Nat) : Prop := ∀ j, j < b → nodeNo node' j = nodeNo node j

theorem sameBelow.nodeAt {node node' : Tab Node} {b : Nat} (hs : sameBelow node node' b) (h : Handle)
    (hb : h.toNat < b) : nodeAt node' h = nodeAt node h := by
  rw [nodeAt_eq_nodeNo, nodeAt_eq_nodeNo, hs _ hb]

theorem sameBelow.freqAt {node node' : Tab Node} {b : Nat} (hs : sameBelow node node' b) (h : Handle)
    (hb : h.toNat < b) : freqAt node' h = freqAt node h := by
  unfold Sys2Proof.Machine.freqAt
  rw [hs.nodeAt h hb]

theorem sameBelow.isChild {node node' : Tab Node} {b : Nat} (hs : sameBelow node node' b) (i h : Nat)
    (hb : i < b) : isChild node' i h ↔ isChild node i h := by
  unfold Sys2Proof.Machine.isChild
  rw [hs i hb]

theorem sameBelow.before {node node' : Tab Node} {b : Nat} (hs : sameBelow node node' b) (g h : Handle)
    (hg : g.toNat < b) (hh : h.toNat < b) : before node' g h = before node g h := by
  unfold Sys2Proof.Machine.before
  rw [hs.freqAt g hg, hs.freqAt h hh]

theorem sameBelow.internalStands {node node' : Tab Node} {b : Nat} (hs : sameBelow node node' b) (i : Nat)
    (hb : i < b) (hi : internalStands node i) : internalStands node' i := by
  obtain ⟨n, nl, nr, h1, h2, h3, h4, h5, h6, h7, h8, h9⟩ := hi
  refine ⟨n, nl, nr, by rw [hs i hb, h1], h2, h3, h4, h5, h6, ?_, ?_, h9⟩
  · rw [hs.nodeAt _ (by omega), h7]
  · rw [hs.nodeAt _ (by omega), h8]

theorem sameBelow.mergedLeast {node node' : Tab Node} {b : Nat} (hs : sameBelow node node' b) (l i : Nat)
    (hb : i < b) (hi : Sys2Proof.Machine.internalStands node i) (hm : mergedLeast node l i) :
    mergedLeast node' l i := by
  obtain ⟨n, hn, hall⟩ := hm
  obtain ⟨n', _, _, hn', _, _, hl, hr, _⟩ := hi
  rw [hn] at hn'
  cases hn'
  refine ⟨n, by rw [hs i hb, hn], fun h hlt hw => ?_⟩
  have hw' : ∀ j, l ≤ j → j < i → ¬ Sys2Proof.Machine.isChild node j h.toNat := by
    intro j h1 h2 h3
    exact hw j h1 h2 ((hs.isChild j _ (by omega)).mpr h3)
  have := hall h hlt hw'
  rw [hs.before _ _ (by omega) (by omega), hs.before _ _ (by omega) (by omega)]
  exact this

/-- The start of the merge loop: the leaves, all of them waiting. -/
theorem mergeStart_merged (s : State) (hl : 1 ≤ ndist s.ft) : Merged s.ft s.node 0 (mergeStart s) := by
  have hle := ndist_le s.ft
  have hlen : (keys s.ft).length = ndist s.ft := rfl
  have hnode : ∀ j, j < 512 → nodeNo (mergeStart s).node j =
      if j < ndist s.ft then ((keys s.ft)[j]?).map (leafNode s.ft) else nodeNo s.node j := by
    intro j hj
    have h0 := nodeNo_putLeaves s.ft (keys s.ft) 0 s.node (by omega) j hj
    rw [hlen] at h0
    simpa [mergeStart] using h0
  have hpq : (mergeStart s).pq = leafHandles (ndist s.ft) := rfl
  have hmem : ∀ h : Handle, h ∈ leafHandles (ndist s.ft) ↔ h.toNat < ndist s.ft := by
    intro h
    simp only [leafHandles, List.mem_map, List.mem_range]
    constructor
    · rintro ⟨a, ha, rfl⟩
      rw [toNat_handle a (by omega)]
      exact ha
    · intro hh
      exact ⟨h.toNat, hh, by simp⟩
  have hleaf : leavesStand s.ft (mergeStart s).node := by
    intro i sym hi
    have hlt : i < ndist s.ft := by
      have := (List.getElem?_eq_some_iff.mp hi).1
      omega
    rw [hnode i (by omega), if_pos hlt, hi]
    rfl
  have hfreq : ∀ i sym, (keys s.ft)[i]? = some sym →
      (freqAt (mergeStart s).node (BitVec.ofNat 9 i)).toNat = (ftAt s.ft sym).toNat := by
    intro i sym hi
    rw [freqAt_of_nodeAt _ _ _ (hleaf i sym hi)]
    simp only [leafNode, BitVec.toNat_setWidth]
    have := (ftAt s.ft sym).isLt
    omega
  refine ⟨?_, ?_, by simp [hpq, leafHandles], ?_, hleaf, ?_, ?_, ?_, ?_, ?_, ?_, ?_⟩
  · show (BitVec.ofNat 9 (ndist s.ft)).toNat = ndist s.ft + 0
    rw [toNat_handle _ (by omega)]
    rfl
  · rw [hpq, leafHandles]
    refine List.Nodup.map_on ?_ List.nodup_range
    intro a ha b hb hab
    simp only [List.mem_range] at ha hb
    have := congrArg BitVec.toNat hab
    rwa [toNat_handle a (by omega), toNat_handle b (by omega)] at this
  · intro h
    rw [hpq, hmem]
    constructor
    · exact fun hh => ⟨hh, fun i h1 h2 => by omega⟩
    · exact fun hh => hh.1
  · intro i h1 h2
    omega
  · intro i j h h1 h2
    omega
  · intro i h1 h2
    omega
  · intro i h h1 h2
    omega
  · rw [ftSum_eq_keys, hpq, freqSum, leafHandles, List.map_map]
    congr 1
    apply List.ext_getElem?
    intro i
    simp only [List.getElem?_map]
    by_cases hi : i < ndist s.ft
    · obtain ⟨sym, hsym⟩ : ∃ sym, (keys s.ft)[i]? = some sym := ⟨_, List.getElem?_eq_getElem (by omega)⟩
      simp [hi, hsym, hfreq i sym hsym]
    · have h1 : (keys s.ft)[i]? = none := List.getElem?_eq_none (by omega)
      simp [hi, h1]
  · intro i hi
    obtain ⟨sym, hsym⟩ : ∃ sym, (keys s.ft)[i]? = some sym := ⟨_, List.getElem?_eq_getElem (by omega)⟩
    rw [hfreq i sym hsym, ftSum_eq_keys]
    exact List.le_sum_of_mem (List.mem_map.mpr ⟨sym, List.mem_of_getElem? hsym, rfl⟩)
  · intro j h1 h2
    rw [hnode j h2, if_neg (by omega)]

/-- One step of the merge loop keeps its invariant (R133). -/
theorem mergeStep_merged (ft : Tab Count) (node0 : Tab Node) (k : Nat) (m : Merge)
    (hm : Merged ft node0 k m) (hk : k + 1 < ndist ft) :
    ∃ m', mergeStep m = some m' ∧ Merged ft node0 (k + 1) m' := by
  have hle := ndist_le ft
  obtain ⟨a, b, ha, hb, hab, hleasta, hleastb, hstep⟩ := mergeStep_spec m hm.nodup (by rw [hm.len]; omega)
  refine ⟨_, hstep, ?_⟩
  set n := mergeNode m.node a b with hn
  set node' := nodePut m.node m.next n with hnode'
  have hnext : m.next.toNat < 511 := by rw [hm.next]; omega
  have hsame : sameBelow m.node node' (ndist ft + k) := by
    intro j hj
    rw [hnode', nodeNo_nodePut _ _ _ _ hnext (by omega), if_neg (by rw [hm.next]; omega)]
  have hnew : nodeNo node' (ndist ft + k) = some n := by
    rw [hnode', nodeNo_nodePut _ _ _ _ hnext (by omega), if_pos hm.next]
  have ha' := (hm.waits a).mp ha
  have hb' := (hm.waits b).mp hb
  have hchild : ∀ h, isChild node' (ndist ft + k) h ↔ a.toNat = h ∨ b.toNat = h := by
    intro h
    constructor
    · rintro ⟨n', h1, h2⟩
      rw [hnew] at h1
      cases h1
      exact h2
    · exact fun h1 => ⟨n, hnew, h1⟩
  have hperm : m.pq.Perm (a :: b :: (m.pq.erase a).erase b) := by
    refine (List.perm_cons_erase ha).trans (List.Perm.cons a ?_)
    exact List.perm_cons_erase (hm.nodup.mem_erase_iff.mpr ⟨fun h => hab h.symm, hb⟩)
  have hsumab : (freqAt m.node a).toNat + (freqAt m.node b).toNat +
      freqSum m.node ((m.pq.erase a).erase b) = ftSum ft := by
    rw [← hm.sum, freqSum_perm m.node hperm]
    simp [freqSum, Nat.add_assoc]
  have hadd : n.freq.toNat = (freqAt m.node a).toNat + (freqAt m.node b).toNat := by
    have := ftSum_le ft
    rw [hn, mergeNode, BitVec.toNat_add, Nat.mod_eq_of_lt (by omega)]
  have hfnew : (freqAt node' m.next).toNat = n.freq.toNat := by
    rw [freqAt_of_nodeAt node' m.next n]
    rw [nodeAt_eq_nodeNo, hm.next, hnew]
  have hstands : ∀ h : Handle, h.toNat < ndist ft + k → ∃ nh, nodeAt m.node h = some nh := by
    intro h hh
    by_cases hl : h.toNat < ndist ft
    · obtain ⟨sym, hsym⟩ : ∃ sym, (keys ft)[h.toNat]? = some sym := ⟨_, List.getElem?_eq_getElem hl⟩
      exact ⟨_, by rw [nodeAt_eq_nodeNo]; exact hm.leaves _ _ hsym⟩
    · obtain ⟨n', _, _, h1, _⟩ := hm.internal h.toNat (by omega) hh
      exact ⟨n', by rw [nodeAt_eq_nodeNo]; exact h1⟩
  have hint : internalStands node' (ndist ft + k) := by
    obtain ⟨na, hna⟩ := hstands a ha'.1
    obtain ⟨nb, hnb⟩ := hstands b hb'.1
    refine ⟨n, na, nb, hnew, rfl, rfl, ha'.1, hb'.1, hab, ?_, ?_, ?_⟩
    · show nodeAt node' a = _
      rw [hsame.nodeAt a ha'.1, hna]
    · show nodeAt node' b = _
      rw [hsame.nodeAt b hb'.1, hnb]
    · rw [hadd, freqAt_of_nodeAt _ _ _ hna, freqAt_of_nodeAt _ _ _ hnb]
  have hmemr : ∀ h, h ∈ (m.pq.erase a).erase b ↔ h ∈ m.pq ∧ h ≠ a ∧ h ≠ b := by
    intro h
    rw [(hm.nodup.erase a).mem_erase_iff, hm.nodup.mem_erase_iff]
    tauto
  have hnotin : m.next ∉ m.pq := by
    intro h
    have := ((hm.waits m.next).mp h).1
    rw [hm.next] at this
    omega
  refine ⟨?_, ?_, ?_, ?_, ?_, ?_, ?_, ?_, ?_, ?_, ?_, ?_⟩
  · show (m.next + 1).toNat = ndist ft + (k + 1)
    rw [BitVec.toNat_add, hm.next]
    show (ndist ft + k + 1) % 2 ^ 9 = _
    omega
  · rw [List.nodup_append]
    refine ⟨(hm.nodup.erase a).erase b, List.nodup_singleton _, fun x hx y hy => ?_⟩
    rw [List.mem_singleton] at hy
    subst hy
    exact fun h => hnotin (h ▸ ((hmemr x).mp hx).1)
  · have h1 : ((m.pq.erase a).erase b).length + 2 = m.pq.length := by
      have := hperm.length_eq
      simp only [List.length_cons] at this
      omega
    have := hm.len
    simp only [List.length_append, List.length_singleton]
    omega
  · intro h
    rw [List.mem_append, List.mem_singleton, hmemr, hm.waits]
    constructor
    · rintro (⟨⟨h1, h2⟩, h3, h4⟩ | rfl)
      · refine ⟨by omega, fun i hi1 hi2 => ?_⟩
        by_cases hik : i = ndist ft + k
        · rw [hik, hchild]
          rintro (h5 | h5)
          · exact h3 (BitVec.toNat_inj.mp h5.symm)
          · exact h4 (BitVec.toNat_inj.mp h5.symm)
        · rw [hsame.isChild i _ (by omega)]
          exact h2 i hi1 (by omega)
      · rw [hm.next]
        refine ⟨by omega, fun i hi1 hi2 hc => ?_⟩
        by_cases hik : i = ndist ft + k
        · rw [hik] at hc
          have := isChild_lt hint hc
          omega
        · have := isChild_lt (hsame.internalStands i (by omega) (hm.internal i hi1 (by omega))) hc
          omega
    · rintro ⟨h1, h2⟩
      by_cases hh : h.toNat = ndist ft + k
      · right
        rw [← BitVec.toNat_inj, hm.next, hh]
      · left
        refine ⟨⟨by omega, fun i hi1 hi2 hc => h2 i hi1 (by omega) ((hsame.isChild i _ hi2).mpr hc)⟩, ?_, ?_⟩
        · rintro rfl
          exact h2 (ndist ft + k) (by omega) (by omega) ((hchild _).mpr (.inl rfl))
        · rintro rfl
          exact h2 (ndist ft + k) (by omega) (by omega) ((hchild _).mpr (.inr rfl))
  · intro i sym hi
    have hlt : i < ndist ft := (List.getElem?_eq_some_iff.mp hi).1
    rw [hsame i (by omega)]
    exact hm.leaves i sym hi
  · intro i hi1 hi2
    by_cases hik : i = ndist ft + k
    · exact hik ▸ hint
    · exact hsame.internalStands i (by omega) (hm.internal i hi1 (by omega))
  · intro i j h hi1 hi2 hj1 hj2 hci hcj
    have hout : ∀ i', ndist ft ≤ i' → i' < ndist ft + k → isChild node' i' h → isChild node' (ndist ft + k) h → False := by
      intro i' h1 h2 h3 h4
      rw [hsame.isChild i' _ h2] at h3
      rcases (hchild h).mp h4 with h5 | h5
      · exact ha'.2 i' h1 h2 (h5 ▸ h3)
      · exact hb'.2 i' h1 h2 (h5 ▸ h3)
    by_cases hik : i = ndist ft + k
    · by_cases hjk : j = ndist ft + k
      · omega
      · exact (hout j hj1 (by omega) hcj (hik ▸ hci)).elim
    · by_cases hjk : j = ndist ft + k
      · exact (hout i hi1 (by omega) hci (hjk ▸ hcj)).elim
      · exact hm.oneParent i j h hi1 (by omega) hj1 (by omega) ((hsame.isChild i _ (by omega)).mp hci)
          ((hsame.isChild j _ (by omega)).mp hcj)
  · intro i hi1 hi2
    by_cases hik : i = ndist ft + k
    · subst hik
      refine ⟨n, hnew, fun h hlt hw => ?_⟩
      have hin : h ∈ m.pq := (hm.waits h).mpr ⟨hlt, fun j h1 h2 h3 => hw j h1 h2 ((hsame.isChild j _ h2).mpr h3)⟩
      show (h ≠ a → before node' a h = true) ∧ (h ≠ a → h ≠ b → before node' b h = true)
      rw [hsame.before _ _ ha'.1 hlt, hsame.before _ _ hb'.1 hlt]
      exact ⟨hleasta h hin, hleastb h hin⟩
    · exact hsame.mergedLeast _ i (by omega) (hm.internal i hi1 (by omega)) (hm.least i hi1 (by omega))
  · intro i h hi1 hi2 hc
    by_cases hik : i = ndist ft + k
    · subst hik
      refine ⟨n, hnew, fun j h1 h2 h3 => ?_⟩
      rw [hsame.isChild j _ h2] at h3
      rcases (hchild h).mp hc with h5 | h5
      · exact ha'.2 j h1 h2 (h5 ▸ h3)
      · exact hb'.2 j h1 h2 (h5 ▸ h3)
    · obtain ⟨n', h1, h2⟩ := hm.waitParent i h hi1 (by omega) ((hsame.isChild i _ (by omega)).mp hc)
      refine ⟨n', by rw [hsame i (by omega), h1], fun j h3 h4 h5 => h2 j h3 h4 ?_⟩
      exact (hsame.isChild j _ (by omega)).mp h5
  · show freqSum node' ((m.pq.erase a).erase b ++ [m.next]) = ftSum ft
    have h1 : freqSum node' ((m.pq.erase a).erase b) = freqSum m.node ((m.pq.erase a).erase b) := by
      unfold freqSum
      congr 1
      apply List.map_congr_left
      intro h hh
      rw [hsame.freqAt h ((hm.waits h).mp ((hmemr h).mp hh).1).1]
    have h2 : freqSum node' ((m.pq.erase a).erase b ++ [m.next]) =
        freqSum node' ((m.pq.erase a).erase b) + (freqAt node' m.next).toNat := by
      simp [freqSum]
    rw [h2, h1, hfnew, hadd]
    omega
  · intro i hi
    by_cases hik : i = ndist ft + k
    · have h1 : BitVec.ofNat 9 i = m.next := by
        rw [← BitVec.toNat_inj, toNat_handle i (by omega), hm.next, hik]
      rw [h1, hfnew, hadd]
      omega
    · rw [hsame.freqAt _ (by rw [toNat_handle i (by omega)]; omega)]
      exact hm.bound i (by omega)
  · intro j hj1 hj2
    show nodeNo node' j = _
    rw [hnode', nodeNo_nodePut _ _ _ _ hnext hj2, if_neg (by rw [hm.next]; omega)]
    exact hm.above j (by omega) hj2

/-- The merge loop from any point of it. -/
theorem mergeLoop_merged (ft : Tab Count) (node0 : Tab Node) (r : Nat) : ∀ (k : Nat) (m : Merge),
    Merged ft node0 k m → k + r < ndist ft → Merged ft node0 (k + r) (mergeLoop r m) := by
  induction r with
  | zero => exact fun k m hm _ => hm
  | succ r ih =>
    intro k m hm hk
    obtain ⟨m', h1, h2⟩ := mergeStep_merged ft node0 k m hm (by omega)
    rw [mergeLoop, h1, show k + (r + 1) = k + 1 + r by omega]
    exact ih (k + 1) m' h2 (by omega)

/-- The merge loop of BUILD, whole (R133, R134). -/
theorem build_merged (s : State) (hl : 1 ≤ ndist s.ft) :
    Merged s.ft s.node (ndist s.ft - 1) (mergeLoop (ndist s.ft - 1) (mergeStart s)) := by
  have := mergeLoop_merged s.ft s.node (ndist s.ft - 1) 0 _ (mergeStart_merged s hl) (by omega)
  rwa [Nat.zero_add] at this

/-- PQ ends with the one element 2L - 2, the root (R134). -/
theorem Merged.root {ft : Tab Count} {node0 : Tab Node} {m : Merge} (hl : 1 ≤ ndist ft)
    (hm : Merged ft node0 (ndist ft - 1) m) : ∃ r, m.pq = [r] ∧ r.toNat = 2 * ndist ft - 2 := by
  have hle := ndist_le ft
  obtain ⟨r, hr⟩ : ∃ r, m.pq = [r] := List.length_eq_one_iff.mp (by rw [hm.len]; omega)
  have hin : BitVec.ofNat 9 (2 * ndist ft - 2) ∈ m.pq := by
    rw [hm.waits, toNat_handle _ (by omega)]
    refine ⟨by omega, fun i h1 h2 hc => ?_⟩
    have := isChild_lt (hm.internal i h1 h2) hc
    omega
  rw [hr, List.mem_singleton] at hin
  exact ⟨r, hr, by rw [← hin, toNat_handle _ (by omega)]⟩

/-- The finished loop holds the tree of R137. -/
theorem Merged.treeStands {ft : Tab Count} {node0 : Tab Node} {m : Merge} (hl : 1 ≤ ndist ft)
    (hm : Merged ft node0 (ndist ft - 1) m) : treeStands ft m.node := by
  have hle := ndist_le ft
  obtain ⟨r, hr, hrn⟩ := hm.root hl
  refine ⟨hm.leaves, fun i h1 h2 => hm.internal i h1 (by omega), fun h hh => ?_⟩
  have hnot : BitVec.ofNat 9 h ∉ m.pq := by
    rw [hr, List.mem_singleton]
    intro h1
    have := congrArg BitVec.toNat h1
    rw [toNat_handle h (by omega)] at this
    omega
  rw [hm.waits, toNat_handle h (by omega)] at hnot
  have hex : ∃ i, ndist ft ≤ i ∧ i < ndist ft + (ndist ft - 1) ∧ isChild m.node i h := by
    by_contra hc
    exact hnot ⟨by omega, fun i h1 h2 h3 => hc ⟨i, h1, h2, h3⟩⟩
  obtain ⟨i, h1, h2, h3⟩ := hex
  refine ⟨i, ⟨h1, by omega, h3⟩, fun j hj => ?_⟩
  exact hm.oneParent j i h hj.1 (by omega) h1 h2 hj.2.2 h3

/-! ### BUILD is a function of FT: what NODE held before does not matter (R133) -/

theorem before_asymm (node : Tab Node) {a b : Handle} (h1 : before node a b = true) (h2 : before node b a = true) :
    False := by
  rw [before_iff] at h1 h2
  omega

/-- One merge step on the same PQ and the same nodes so far. -/
theorem mergeStep_same (m m' : Merge) (hn : m.pq.Nodup) (h2 : 2 ≤ m.pq.length) (hpq : m'.pq = m.pq)
    (hnext : m'.next = m.next) (hs : sameBelow m.node m'.node m.next.toNat)
    (hlow : ∀ h ∈ m.pq, h.toNat < m.next.toNat) (hlt : m.next.toNat < 511) :
    ∃ n, mergeStep m = some n ∧ ∃ n', mergeStep m' = some n' ∧ n'.pq = n.pq ∧
      sameBelow n.node n'.node (m.next.toNat + 1) := by
  obtain ⟨a, b, ha, hb, hab, la, lb, e⟩ := mergeStep_spec m hn h2
  obtain ⟨a', b', ha', hb', hab', la', lb', e'⟩ := mergeStep_spec m' (hpq ▸ hn) (hpq ▸ h2)
  rw [hpq] at ha' hb' la' lb'
  have hbef : ∀ g ∈ m.pq, ∀ h ∈ m.pq, before m'.node g h = before m.node g h := fun g hg h hh =>
    hs.before g h (hlow g hg) (hlow h hh)
  have haa : a' = a := by
    by_contra hne
    exact before_asymm m.node (la a' ha' hne) (by rw [← hbef a' ha' a ha]; exact la' a ha (Ne.symm hne))
  subst haa
  have hbb : b' = b := by
    by_contra hne
    exact before_asymm m.node (lb b' hb' (Ne.symm hab') hne)
      (by rw [← hbef b' hb' b hb]; exact lb' b hb (Ne.symm hab) (Ne.symm hne))
  subst hbb
  refine ⟨_, e, _, e', by rw [hpq, hnext], fun j hj => ?_⟩
  simp only
  rw [hnext, nodeNo_nodePut _ _ _ _ hlt (by omega), nodeNo_nodePut _ _ _ _ hlt (by omega)]
  split
  · unfold mergeNode
    rw [hs.freqAt _ (hlow _ ha), hs.freqAt _ (hlow _ hb)]
  · exact hs j (by omega)

/-- The merge loop on the same PQ and the same nodes so far. -/
theorem mergeLoop_same (ft : Tab Count) (node0 node0' : Tab Node) (r : Nat) : ∀ (k : Nat) (m m' : Merge),
    Merged ft node0 k m → Merged ft node0' k m' → m'.pq = m.pq → sameBelow m.node m'.node (ndist ft + k) →
    k + r < ndist ft → (mergeLoop r m').pq = (mergeLoop r m).pq ∧
      sameBelow (mergeLoop r m).node (mergeLoop r m').node (ndist ft + (k + r)) := by
  induction r with
  | zero => exact fun k m m' _ _ hpq hs _ => ⟨hpq, hs⟩
  | succ r ih =>
    intro k m m' hm hm' hpq hs hk
    have hle := ndist_le ft
    obtain ⟨n, e, n', e', h1, h2⟩ := mergeStep_same m m' hm.nodup (by rw [hm.len]; omega) hpq
      (BitVec.eq_of_toNat_eq (by rw [hm.next, hm'.next])) (by rw [hm.next]; exact hs)
      (fun h hh => by rw [hm.next]; exact ((hm.waits h).mp hh).1) (by rw [hm.next]; omega)
    obtain ⟨_, f, hn⟩ := mergeStep_merged ft node0 k m hm (by omega)
    obtain ⟨_, f', hn'⟩ := mergeStep_merged ft node0' k m' hm' (by omega)
    cases e.symm.trans f
    cases e'.symm.trans f'
    rw [mergeLoop, mergeLoop, e, e', show k + (r + 1) = k + 1 + r by omega]
    exact ih (k + 1) n n' hn hn' h1 (by rwa [hm.next] at h2) (by omega)

/-- BUILD's merge loop on two states with the same FrequencyTable. -/
theorem build_same (s t : State) (hft : t.ft = s.ft) (hl : 1 ≤ ndist s.ft) :
    (mergeLoop (ndist s.ft - 1) (mergeStart t)).pq = (mergeLoop (ndist s.ft - 1) (mergeStart s)).pq ∧
      sameBelow (mergeLoop (ndist s.ft - 1) (mergeStart s)).node (mergeLoop (ndist s.ft - 1) (mergeStart t)).node
        (2 * ndist s.ft - 1) := by
  have hle := ndist_le s.ft
  have hstart : sameBelow (mergeStart s).node (mergeStart t).node (ndist s.ft + 0) := by
    intro j hj
    have hlen : (keys s.ft).length = ndist s.ft := rfl
    simp only [mergeStart, hft]
    rw [nodeNo_putLeaves _ _ _ _ (by omega) j (by omega), nodeNo_putLeaves _ _ _ _ (by omega) j (by omega),
      if_pos (by omega), if_pos (by omega)]
  have ht := mergeStart_merged t (by rw [hft]; exact hl)
  rw [hft] at ht
  obtain ⟨h1, h2⟩ := mergeLoop_same s.ft s.node t.node (ndist s.ft - 1) 0 _ _ (mergeStart_merged s hl) ht
    (by simp [mergeStart, hft]) hstart (by omega)
  exact ⟨h1, by rwa [show 2 * ndist s.ft - 1 = ndist s.ft + (0 + (ndist s.ft - 1)) by omega]⟩

end Sys2Proof.Machine
end

