-- ==== Sys2Proof/Laws/Codes.lean ====
section
/-! SUPPORT. Paths in the finished tree and what GEN records of them (42_code_table_generator.md): every key
has one root-to-leaf path, paths are a complete prefix code, and `visit` writes each of them once. -/

namespace Sys2Proof.Machine

open Sys2Proof

/-! ### Walking down a path -/

theorem descend_append (node : Tab Node) (h : Handle) (p q : Code) :
    descend node h (p ++ q) = (descend node h p).bind (fun g => descend node g q) := by
  induction p generalizing h with
  | nil => rfl
  | cons b p ih =>
    simp only [List.cons_append, descend]
    cases nodeAt node h with
    | none => rfl
    | some n =>
      obtain ⟨kind, _, _, _, _⟩ := n
      cases kind <;> simp [ih]

/-- A step further along a path that ends at an internal node. -/
theorem descend_snoc (node : Tab Node) (h g : Handle) (n : Node) (p : Code) (b : Bool)
    (hp : descend node h p = some g) (hn : nodeAt node g = some n) (hk : n.kind = .internal) :
    descend node h (p ++ [b]) = some (if b then n.right else n.left) := by
  rw [descend_append, hp]
  simp [descend, hn, hk]

/-- No path goes on past a leaf. -/
theorem descend_leaf (node : Tab Node) (g : Handle) (n : Node) (hn : nodeAt node g = some n) (hk : n.kind = .leaf)
    (b : Bool) (q : Code) : descend node g (b :: q) = none := by
  simp [descend, hn, hk]

/-- A path that goes one bit further ends at a child of where it stood. -/
theorem descend_snoc_inv (node : Tab Node) (h g : Handle) (p : Code) (b : Bool)
    (hp : descend node h (p ++ [b]) = some g) :
    ∃ i n, descend node h p = some i ∧ nodeAt node i = some n ∧ n.kind = .internal ∧
      g = if b then n.right else n.left := by
  rw [descend_append] at hp
  cases hd : descend node h p with
  | none => simp [hd] at hp
  | some i =>
    simp only [hd, Option.bind_some, descend] at hp
    cases hn : nodeAt node i with
    | none => simp [hn] at hp
    | some n =>
      cases hk : n.kind with
      | leaf => simp [hn, hk] at hp
      | internal =>
        simp only [hn, hk, Option.some.injEq] at hp
        exact ⟨i, n, rfl, hn, hk, hp.symm⟩

/-! ### The nodes of the finished tree -/

section

variable {ft : Tab Count} {node : Tab Node} {root : Handle}

/-- A handle below L is the leaf of its key; one from L to 2L - 2 is internal. -/
theorem node_cases (ht : treeStands ft node) (g : Handle) (hg : g.toNat ≤ 2 * ndist ft - 2) (_hl : 1 ≤ ndist ft) :
    (g.toNat < ndist ft ∧ ∃ sym, (keys ft)[g.toNat]? = some sym ∧ nodeAt node g = some (leafNode ft sym)) ∨
    (ndist ft ≤ g.toNat ∧ ∃ n, nodeAt node g = some n ∧ n.kind = .internal ∧ n.left.toNat < g.toNat ∧
      n.right.toNat < g.toNat ∧ n.left ≠ n.right) := by
  by_cases hlt : g.toNat < ndist ft
  · left
    obtain ⟨sym, hsym⟩ : ∃ sym, (keys ft)[g.toNat]? = some sym := ⟨_, List.getElem?_eq_getElem hlt⟩
    exact ⟨hlt, sym, hsym, by rw [nodeAt_eq_nodeNo]; exact ht.1 _ _ hsym⟩
  · right
    obtain ⟨n, _, _, h1, h2, _, h3, h4, h5, _⟩ := ht.2.1 g.toNat (by omega) hg
    exact ⟨by omega, n, by rw [nodeAt_eq_nodeNo]; exact h1, h2, h3, h4, h5⟩

/-- A leaf of the tree: its handle is the place of its symbol among the keys. -/
theorem leaf_inv (ht : treeStands ft node) (hl : 1 ≤ ndist ft) (g : Handle) (hg : g.toNat ≤ 2 * ndist ft - 2)
    (n : Node) (hn : nodeAt node g = some n) (hk : n.kind = .leaf) :
    g.toNat < ndist ft ∧ (keys ft)[g.toNat]? = some n.sym := by
  rcases node_cases ht g hg hl with ⟨h1, sym, h2, h3⟩ | ⟨_, n', h3, h4, _⟩
  · rw [hn, Option.some.injEq] at h3
    rw [h3]
    exact ⟨h1, h2⟩
  · rw [hn, Option.some.injEq] at h3
    rw [h3, h4] at hk
    cases hk

/-- An internal node of the tree and its two children. -/
theorem internal_inv (ht : treeStands ft node) (hl : 1 ≤ ndist ft) (g : Handle) (hg : g.toNat ≤ 2 * ndist ft - 2)
    (n : Node) (hn : nodeAt node g = some n) (hk : n.kind = .internal) :
    ndist ft ≤ g.toNat ∧ n.left.toNat < g.toNat ∧ n.right.toNat < g.toNat ∧ n.left ≠ n.right := by
  rcases node_cases ht g hg hl with ⟨_, sym, _, h3⟩ | ⟨h1, n', h3, _, h4⟩
  · rw [hn, Option.some.injEq] at h3
    rw [h3] at hk
    cases hk
  · rw [hn, Option.some.injEq] at h3
    rw [h3]
    exact ⟨h1, h4⟩

/-- Every step down a path leads to a lower handle. -/
theorem descend_le (ht : treeStands ft node) (hl : 1 ≤ ndist ft) (p : Code) (h g : Handle)
    (hh : h.toNat ≤ 2 * ndist ft - 2) (hd : descend node h p = some g) : g.toNat + p.length ≤ h.toNat := by
  induction p generalizing h with
  | nil =>
    simp only [descend, Option.some.injEq] at hd
    simp [hd]
  | cons b p ih =>
    simp only [descend] at hd
    cases hn : nodeAt node h with
    | none => simp [hn] at hd
    | some n =>
      cases hk : n.kind with
      | leaf => simp [hn, hk] at hd
      | internal =>
        simp only [hn, hk] at hd
        obtain ⟨_, h1, h2, _⟩ := internal_inv ht hl h hh n hn hk
        have := ih _ (by split <;> omega) hd
        simp only [List.length_cons]
        split at this <;> omega

/-- A path to a leaf has at most L - 1 bits: its internal nodes are some of L to 2L - 2. -/
theorem path_length (ht : treeStands ft node) (hl : 1 ≤ ndist ft) (p : Code) (h g : Handle)
    (hh : h.toNat ≤ 2 * ndist ft - 2) (hd : descend node h p = some g) : p.length ≤ h.toNat + 1 - ndist ft := by
  induction p generalizing h with
  | nil => simp
  | cons b p ih =>
    simp only [descend] at hd
    cases hn : nodeAt node h with
    | none => simp [hn] at hd
    | some n =>
      cases hk : n.kind with
      | leaf => simp [hn, hk] at hd
      | internal =>
        simp only [hn, hk] at hd
        obtain ⟨h0, h1, h2, _⟩ := internal_inv ht hl h hh n hn hk
        have := ih _ (by split <;> omega) hd
        simp only [List.length_cons]
        split at this <;> omega

/-- The root is no child, and every other handle of the tree is the child of one node. -/
theorem parent_unique (ht : treeStands ft node) (hl : 1 ≤ ndist ft) (g i j : Handle) (m n : Node)
    (hi : i.toNat ≤ 2 * ndist ft - 2) (hj : j.toNat ≤ 2 * ndist ft - 2)
    (hm : nodeAt node i = some m) (hmk : m.kind = .internal) (hn : nodeAt node j = some n) (hnk : n.kind = .internal)
    (hgm : g = m.left ∨ g = m.right) (hgn : g = n.left ∨ g = n.right) : i = j := by
  obtain ⟨h1, h2, h3, _⟩ := internal_inv ht hl i hi m hm hmk
  obtain ⟨h4, _, _, _⟩ := internal_inv ht hl j hj n hn hnk
  have hlt : g.toNat < 2 * ndist ft - 2 := by rcases hgm with rfl | rfl <;> omega
  obtain ⟨k, _, hk⟩ := ht.2.2 g.toNat hlt
  rw [nodeAt_eq_nodeNo] at hm hn
  have e1 := hk i.toNat ⟨h1, hi, m, hm, by rcases hgm with rfl | rfl <;> simp⟩
  have e2 := hk j.toNat ⟨h4, hj, n, hn, by rcases hgn with rfl | rfl <;> simp⟩
  rw [← BitVec.toNat_inj, e1, e2]

/-- Two paths from the root to one node are one path. -/
theorem path_unique (ht : treeStands ft node) (hl : 1 ≤ ndist ft) (hr : root.toNat = 2 * ndist ft - 2) :
    ∀ (p q : Code) (g : Handle), descend node root p = some g → descend node root q = some g → p = q := by
  intro p
  induction p using List.reverseRecOn with
  | nil =>
    intro q g hp hq
    simp only [descend, Option.some.injEq] at hp
    have := descend_le ht hl q root g (by omega) hq
    rw [← hp] at this
    exact (List.length_eq_zero_iff.mp (by omega)).symm
  | append_singleton p b ih =>
    intro q g hp hq
    cases q using List.reverseRecOn with
    | nil =>
      simp only [descend, Option.some.injEq] at hq
      have := descend_le ht hl _ root g (by omega) hp
      rw [← hq] at this
      simp at this
    | append_singleton q c =>
      obtain ⟨i, m, h1, h2, h3, h4⟩ := descend_snoc_inv node root g p b hp
      obtain ⟨j, n, h5, h6, h7, h8⟩ := descend_snoc_inv node root g q c hq
      have hi := descend_le ht hl p root i (by omega) h1
      have hj := descend_le ht hl q root j (by omega) h5
      have hij : i = j := parent_unique ht hl g i j m n (by omega) (by omega) h2 h3 h6 h7
        (by rw [h4]; cases b <;> simp) (by rw [h8]; cases c <;> simp)
      subst hij
      rw [h2, Option.some.injEq] at h6
      subst h6
      rw [ih q i h1 h5]
      have hne := (internal_inv ht hl i (by omega) m h2 h3).2.2.2
      rw [h4] at h8
      cases b <;> cases c <;> simp_all

/-- Every handle of the tree is reached from the root. -/
theorem path_exists (ht : treeStands ft node) (hl : 1 ≤ ndist ft) (hr : root.toNat = 2 * ndist ft - 2) :
    ∀ (k : Nat) (g : Handle), g.toNat + k = 2 * ndist ft - 2 → ∃ p, descend node root p = some g := by
  have hle := ndist_le ft
  intro k
  induction k using Nat.strong_induction_on with
  | _ k ih =>
    intro g hg
    by_cases hk : k = 0
    · have : g = root := by rw [← BitVec.toNat_inj]; omega
      exact ⟨[], by rw [this]; rfl⟩
    · obtain ⟨i, ⟨h1, h2, n, h3, h4⟩, _⟩ := ht.2.2 g.toNat (by omega)
      obtain ⟨n', _, _, h5, h6, _, h7, h8, _⟩ := ht.2.1 i h1 h2
      rw [h3, Option.some.injEq] at h5
      subst h5
      obtain ⟨p, hp⟩ := ih (2 * ndist ft - 2 - i) (by omega) (BitVec.ofNat 9 i) (by rw [toNat_handle i (by omega)]; omega)
      have hd := fun b => descend_snoc node root _ n p b hp h3 h6
      rcases h4 with h4 | h4
      · exact ⟨p ++ [false], by rw [hd, BitVec.toNat_inj.mp h4]; rfl⟩
      · exact ⟨p ++ [true], by rw [hd, BitVec.toNat_inj.mp h4]; rfl⟩

/-! ### Root-to-leaf paths -/

/-- A symbol with a path is a key. -/
theorem isPathOf_key (ht : treeStands ft node) (hl : 1 ≤ ndist ft) (hr : root.toNat = 2 * ndist ft - 2)
    {sym : Symbol} {c : Code} (hp : isPathOf node root sym c) : ftAt ft sym ≠ 0 := by
  obtain ⟨g, n, h1, h2, h3, h4⟩ := hp
  have := descend_le ht hl c root g (by omega) h1
  have := (leaf_inv ht hl g (by omega) n h2 h3).2
  rw [← mem_keys, ← h4]
  exact List.mem_of_getElem? this

/-- Every key has a path. -/
theorem isPathOf_exists (ht : treeStands ft node) (hl : 1 ≤ ndist ft) (hr : root.toNat = 2 * ndist ft - 2)
    {sym : Symbol} (hs : ftAt ft sym ≠ 0) : ∃ c, isPathOf node root sym c := by
  have hle := ndist_le ft
  obtain ⟨i, hi, hsym⟩ := List.getElem_of_mem ((mem_keys ft sym).mpr hs)
  have hi' : i < ndist ft := hi
  have hi2 : (keys ft)[i]? = some sym := by rw [List.getElem?_eq_getElem hi, hsym]
  obtain ⟨p, hp⟩ := path_exists ht hl hr (2 * ndist ft - 2 - i) (BitVec.ofNat 9 i)
    (by rw [toNat_handle i (by omega)]; omega)
  exact ⟨p, _, _, hp, ht.1 i sym hi2, rfl, rfl⟩

/-- A key has one path. -/
theorem isPathOf_unique (ht : treeStands ft node) (hl : 1 ≤ ndist ft) (hr : root.toNat = 2 * ndist ft - 2)
    {sym : Symbol} {c d : Code} (hc : isPathOf node root sym c) (hd : isPathOf node root sym d) : c = d := by
  obtain ⟨g, n, h1, h2, h3, h4⟩ := hc
  obtain ⟨g', n', h5, h6, h7, h8⟩ := hd
  have a1 := descend_le ht hl c root g (by omega) h1
  have a2 := descend_le ht hl d root g' (by omega) h5
  obtain ⟨b1, b2⟩ := leaf_inv ht hl g (by omega) n h2 h3
  obtain ⟨b3, b4⟩ := leaf_inv ht hl g' (by omega) n' h6 h7
  rw [h4] at b2
  rw [h8] at b4
  have e := (nodup_keys ft).getElem_inj_iff (hi := b1) (hj := b3)
  rw [List.getElem?_eq_getElem b1, Option.some.injEq] at b2
  rw [List.getElem?_eq_getElem b3, Option.some.injEq] at b4
  have hgg : g = g' := by
    rw [← BitVec.toNat_inj]
    exact e.mp (b2.trans b4.symm)
  subst hgg
  exact path_unique ht hl hr c d g h1 h5

/-- No path is a prefix of another symbol's path. -/
theorem isPathOf_prefix {x y : Symbol} {c d : Code} (hc : isPathOf node root x c) (hd : isPathOf node root y d)
    (hp : c <+: d) : c = d ∧ x = y := by
  obtain ⟨g, n, h1, h2, h3, h4⟩ := hc
  obtain ⟨g', n', h5, h6, h7, h8⟩ := hd
  obtain ⟨r, rfl⟩ := hp
  rw [descend_append, h1, Option.bind_some] at h5
  cases r with
  | nil =>
    simp only [descend, Option.some.injEq] at h5
    subst h5
    rw [h2, Option.some.injEq] at h6
    subst h6
    exact ⟨by simp, h4.symm.trans h8⟩
  | cons b r =>
    rw [descend_leaf node g n h2 h3 b r] at h5
    cases h5

/-- Every bit string that is long enough runs into a leaf. -/
theorem path_complete (ht : treeStands ft node) (hl : 1 ≤ ndist ft) : ∀ (k : Nat) (h : Handle) (b : Code), h.toNat ≤ k →
    h.toNat ≤ 2 * ndist ft - 2 → h.toNat + 1 - ndist ft ≤ b.length → ∃ p g n, p <+: b ∧ descend node h p = some g ∧
      nodeAt node g = some n ∧ n.kind = .leaf := by
  intro k
  induction k with
  | zero =>
    intro h b hk hh hb
    rcases node_cases ht h hh hl with ⟨_, sym, _, h2⟩ | ⟨_, n, _, _, h4, _⟩
    · exact ⟨[], h, _, List.nil_prefix, rfl, h2, rfl⟩
    · omega
  | succ k ih =>
    intro h b hk hh hb
    rcases node_cases ht h hh hl with ⟨_, sym, _, h2⟩ | ⟨h1, n, h2, h3, h4, h5, _⟩
    · exact ⟨[], h, _, List.nil_prefix, rfl, h2, rfl⟩
    · cases b with
      | nil =>
        simp only [List.length_nil] at hb
        omega
      | cons x b =>
        simp only [List.length_cons] at hb
        obtain ⟨p, g, m, e1, e2, e3, e4⟩ := ih (if x then n.right else n.left) b (by split <;> omega)
          (by split <;> omega) (by split <;> omega)
        exact ⟨x :: p, g, m, List.cons_prefix_cons.mpr ⟨rfl, e1⟩, by simp [descend, h2, h3, e2], e3, e4⟩

/-! ### The traversal (R151) -/

/-- `visit` at the end of `path` records every path that goes on from there, and nothing else. -/
theorem visit_spec (ht : treeStands ft node) (hl : 1 ≤ ndist ft) (hr : root.toNat = 2 * ndist ft - 2) :
    ∀ (d : Nat) (h : Handle) (path : Code) (ct : Tab Code), descend node root path = some h →
      h.toNat + 1 - ndist ft ≤ d → ∃ ct', visit node d h path ct = some ct' ∧ ∀ sym,
        (∀ c, isPathOf node root sym c → path <+: c → ctAt ct' sym = c) ∧
        ((∀ c, isPathOf node root sym c → ¬ path <+: c) → ctAt ct' sym = ctAt ct sym) := by
  intro d
  induction d with
  | zero =>
    intro h path ct hd hk
    have hh := descend_le ht hl path root h (by omega) hd
    rcases node_cases ht h (by omega) hl with ⟨_, sym, _, h2⟩ | ⟨h1, _⟩
    · exact visit_leaf h path ct hd sym h2 0
    · omega
  | succ d ih =>
    intro h path ct hd hk
    have hh := descend_le ht hl path root h (by omega) hd
    rcases node_cases ht h (by omega) hl with ⟨_, sym, _, h2⟩ | ⟨h1, n, h2, h3, h4, h5, _⟩
    · exact visit_leaf h path ct hd sym h2 (d + 1)
    · have hstep := fun b => descend_snoc node root h n path b hd h2 h3
      obtain ⟨ct1, e1, s1⟩ := ih n.left (path ++ [false]) ct (hstep false) (by omega)
      obtain ⟨ct2, e2, s2⟩ := ih n.right (path ++ [true]) ct1 (hstep true) (by omega)
      refine ⟨ct2, by simp [visit, h2, h3, e1, e2], fun sym => ?_⟩
      have hsplit : ∀ c, isPathOf node root sym c → path <+: c → path ++ [false] <+: c ∨ path ++ [true] <+: c := by
        rintro c ⟨g, m, p1, p2, p3, p4⟩ ⟨r, rfl⟩
        rw [descend_append, hd, Option.bind_some] at p1
        cases r with
        | nil =>
          simp only [descend, Option.some.injEq] at p1
          subst p1
          rw [h2, Option.some.injEq] at p2
          rw [← p2, h3] at p3
          cases p3
        | cons b r => cases b <;> simp
      have hdown : ∀ (b : Bool) c, path ++ [b] <+: c → path <+: c := fun b c hc =>
        (List.prefix_append path [b]).trans hc
      have hdisj : ∀ c, path ++ [false] <+: c → path ++ [true] <+: c → False := by
        rintro c ⟨r, rfl⟩ ⟨r', h'⟩
        simp at h'
      constructor
      · intro c hc hp
        rcases hsplit c hc hp with hf | htr
        · rw [(s2 sym).2 (fun c' hc' hp' => by
            rw [isPathOf_unique ht hl hr hc' hc] at hp'
            exact hdisj c hf hp')]
          exact (s1 sym).1 c hc hf
        · exact (s2 sym).1 c hc htr
      · intro hno
        rw [(s2 sym).2 (fun c' hc' hp' => hno c' hc' (hdown _ _ hp')),
          (s1 sym).2 (fun c' hc' hp' => hno c' hc' (hdown _ _ hp'))]
where
  visit_leaf (h : Handle) (path : Code) (ct : Tab Code) (hd : descend node root path = some h) (s0 : Symbol)
      (hn : nodeAt node h = some (leafNode ft s0)) (d : Nat) :
      ∃ ct', visit node d h path ct = some ct' ∧ ∀ sym,
        (∀ c, isPathOf node root sym c → path <+: c → ctAt ct' sym = c) ∧
        ((∀ c, isPathOf node root sym c → ¬ path <+: c) → ctAt ct' sym = ctAt ct sym) := by
    have hself : isPathOf node root s0 path := ⟨h, _, hd, hn, rfl, rfl⟩
    refine ⟨ctPut ct s0 path, by cases d <;> simp [visit, hn, leafNode], fun sym => ⟨fun c hc hp => ?_, fun hno => ?_⟩⟩
    · obtain ⟨e1, e2⟩ := isPathOf_prefix hself hc hp
      rw [ctAt_ctPut, if_pos e2, e1]
    · rw [ctAt_ctPut, if_neg]
      rintro rfl
      exact hno path hself (List.prefix_refl _)

/-- GEN's table of a tree of two or more leaves (R151): every key its path, no other symbol a code. -/
theorem codesOf_paths (ht : treeStands ft node) (hl : 2 ≤ ndist ft) (hr : root.toNat = 2 * ndist ft - 2) :
    ∃ ct, codesOf node root = some ct ∧ (∀ sym, ftAt ft sym ≠ 0 → isPathOf node root sym (ctAt ct sym)) ∧
      ∀ sym, ftAt ft sym = 0 → ctAt ct sym = [] := by
  have hle := ndist_le ft
  rcases node_cases ht root (by omega) (by omega) with ⟨h1, _⟩ | ⟨_, n, h2, h3, _⟩
  · omega
  · obtain ⟨ct, h4, h5⟩ := visit_spec ht (by omega) hr 255 root [] [] rfl (by omega)
    refine ⟨ct, by simp [codesOf, h2, h3, h4], fun sym hs => ?_, fun sym hs => ?_⟩
    · obtain ⟨c, hc⟩ := isPathOf_exists ht (by omega) hr hs
      rw [(h5 sym).1 c hc List.nil_prefix]
      exact hc
    · rw [(h5 sym).2 (fun c hc => absurd hs (isPathOf_key ht (by omega) hr hc)), ctAt_nil]

/-- GEN's table of a single leaf (R152). -/
theorem codesOf_leaf (n : Node) (hn : nodeAt node root = some n) (hk : n.kind = .leaf) :
    codesOf node root = some (ctPut [] n.sym [false]) := by
  simp [codesOf, hn, hk]

/-- The traversal reads the tree alone: NODE above the root does not matter. -/
theorem visit_same (ht : treeStands ft node) (hl : 1 ≤ ndist ft) {node' : Tab Node}
    (hs : sameBelow node node' (2 * ndist ft - 1)) : ∀ (d : Nat) (h : Handle) (path : Code) (ct : Tab Code),
    h.toNat ≤ 2 * ndist ft - 2 → visit node' d h path ct = visit node d h path ct := by
  intro d
  induction d with
  | zero =>
    intro h path ct hh
    rw [visit, visit, hs.nodeAt h (by omega)]
  | succ d ih =>
    intro h path ct hh
    have hn := hs.nodeAt h (by omega)
    rcases node_cases ht h hh hl with ⟨_, sym, _, h2⟩ | ⟨h1, n, h2, h3, h4, h5, _⟩
    · rw [h2] at hn
      simp [visit, h2, hn, leafNode]
    · rw [h2] at hn
      unfold visit
      simp only [h2, hn, h3, ih n.left _ _ (by omega)]
      split
      · rfl
      · exact ih n.right _ _ (by omega)

/-- GEN's table depends on the tree alone. -/
theorem codesOf_same (ht : treeStands ft node) (hl : 1 ≤ ndist ft) (hr : root.toNat = 2 * ndist ft - 2)
    {node' : Tab Node} (hs : sameBelow node node' (2 * ndist ft - 1)) : codesOf node' root = codesOf node root := by
  rw [codesOf, codesOf, hs.nodeAt root (by omega), visit_same ht hl hs 255 root [] [] (by omega)]

end

end Sys2Proof.Machine
end

