-- ==== Sys2Proof/Laws/Canonical.lean ====
section
/-! SUPPORT. The canonical form (Safety.lean) through the engines of BUILD and GEN. -/

namespace Sys2Proof.Machine

open Sys2Proof

theorem nodePut_tabWf (node : Tab Node) (h : Handle) (n : Node) (hw : tabWf 511 node = true) (hh : h.toNat < 511) :
    tabWf 511 (nodePut node h n) = true := tabPut_tabWf node 511 h.toNat n hw hh

theorem putLeaves_tabWf (ft : Tab Count) (ks : List Symbol) (h : Nat) (node : Tab Node) (hw : tabWf 511 node = true)
    (hk : h + ks.length ≤ 511) : tabWf 511 (putLeaves ft ks h node) = true := by
  induction ks generalizing h node with
  | nil => exact hw
  | cons x ks ih =>
    simp only [List.length_cons] at hk
    exact ih _ _ (nodePut_tabWf _ _ _ hw (by rw [toNat_handle h (by omega)]; omega)) (by omega)

theorem mergeLoop_tabWf (k : Nat) (m : Merge) (hw : tabWf 511 m.node = true) (hk : m.next.toNat + k ≤ 511) :
    tabWf 511 (mergeLoop k m).node = true := by
  induction k generalizing m with
  | zero => exact hw
  | succ k ih =>
    unfold mergeLoop
    split
    · exact hw
    · rename_i m' h
      unfold mergeStep at h
      split at h
      · cases h
      · split at h
        · cases h
        · cases h
          refine ih _ (nodePut_tabWf _ _ _ hw (by omega)) ?_
          simp only [BitVec.toNat_add]
          have : (1 : Handle).toNat = 1 := rfl
          omega

/-- BUILD keeps NODE in canonical form (R34). -/
theorem build_tabWf (s : State) (hw : tabWf 511 s.node = true) :
    tabWf 511 (mergeLoop (ndist s.ft - 1) (mergeStart s)).node = true := by
  have hle := ndist_le s.ft
  have hle' : (keys s.ft).length ≤ 256 := hle
  refine mergeLoop_tabWf _ _ (putLeaves_tabWf _ _ _ _ hw (by omega)) ?_
  show (BitVec.ofNat 9 (ndist s.ft)).toNat + _ ≤ 511
  rw [toNat_handle _ (by omega)]
  omega

theorem visit_ctWf (node : Tab Node) (d : Nat) (h : Handle) (path : Code) (ct ct' : Tab Code) (hw : ctWf ct = true)
    (hp : path.length + d ≤ 255) (hv : visit node d h path ct = some ct') : ctWf ct' = true := by
  induction d generalizing h path ct ct' with
  | zero =>
    unfold visit at hv
    split at hv
    · cases hv
    · split at hv
      · cases hv
        exact ctPut_ctWf _ _ _ hw (by omega)
      · cases hv
  | succ d ih =>
    unfold visit at hv
    split at hv
    · cases hv
    · split at hv
      · cases hv
        exact ctPut_ctWf _ _ _ hw (by omega)
      · simp only at hv
        split at hv
        · cases hv
        · rename_i ct1 h1
          exact ih _ _ _ _ (ih _ _ _ _ hw (by simp; omega) h1) (by simp; omega) hv

/-- GEN's table is in canonical form (R35, R154). -/
theorem codesOf_ctWf (node : Tab Node) (root : Handle) (ct : Tab Code) (h : codesOf node root = some ct) :
    ctWf ct = true := by
  unfold codesOf at h
  split at h
  · cases h
  · split at h
    · cases h
      exact ctPut_ctWf _ _ _ rfl (by simp)
    · exact visit_ctWf node 255 root [] [] ct rfl (by simp) h

end Sys2Proof.Machine
end

