-- ==== Sys2Proof/Laws/DecodeEnds.lean ====
section
/-! SUPPORT. How an engine of DECODE can end, whatever the frame is: where it reads, what it leaves in OBUF, and what
two runs on the same frame have in common. -/

namespace Sys2Proof.Machine

open Sys2Proof

/-- An engine's reads of IBUF are of addresses below `m`, so a refusal names an unwritten byte below `m`, and a
fault leaves OBUF as `P` says. -/
def stopsWithin (ibuf : Memory) (m : Nat) (P : Memory → Prop) : Stop → Prop
  | .raised _ obuf => P obuf
  | .refused r => ∃ a, a < m ∧ memGet ibuf a = none ∧ r = .ibufUnwritten a

theorem readByte_within (ibuf : Memory) (m a : Nat) (P : Memory → Prop) (ha : a < m) (e : Stop)
    (h : readByte ibuf a = .error e) : stopsWithin ibuf m P e := by
  obtain ⟨h1, rfl⟩ := readByte_error ibuf a e h
  exact ⟨a, ha, h1, rfl⟩

theorem insertCode_within (ibuf obuf : Memory) (sym : Symbol) (k p m : Nat) (rem j : Nat) (cur : Handle)
    (dt : List DtNode) (hm : p + bytesFor (j + rem) ≤ m) (e : Stop)
    (h : insertCode ibuf obuf sym k p rem j cur dt = .error e) : stopsWithin ibuf m (· = obuf) e := by
  induction rem generalizing j cur dt with
  | zero => simp [insertCode] at h
  | succ rem ih =>
    have hm' : p + bytesFor (j + 1 + rem) ≤ m := by rwa [show j + 1 + rem = j + (rem + 1) by omega]
    simp only [insertCode] at h
    split at h
    · rename_i e' he
      cases h
      obtain ⟨h1, rfl⟩ := readBit_error ibuf p j _ he
      exact ⟨p + j / 8, by unfold bytesFor at hm; omega, h1, rfl⟩
    · repeat' split at h
      all_goals first
        | exact ih _ _ _ hm' h
        | (cases h; rfl)

theorem parseEntry_within (ibuf obuf : Memory) (m k : Nat) (ps : Parse) :
    (∀ e, parseEntry ibuf obuf m k ps = .error e → stopsWithin ibuf m (· = obuf) e) ∧
    (∀ ps1, parseEntry ibuf obuf m k ps = .ok ps1 → ps1.p ≤ m) := by
  unfold parseEntry
  by_cases h1 : m < ps.p + 2
  · rw [if_pos h1]
    exact ⟨fun e h => by cases h; rfl, fun ps1 h => by cases h⟩
  rw [if_neg h1]
  split
  · rename_i e he
    exact ⟨fun e' h => by cases h; exact readByte_within ibuf m _ _ (by omega) _ he, fun ps1 h => by cases h⟩
  split
  · rename_i e he
    exact ⟨fun e' h => by cases h; exact readByte_within ibuf m _ _ (by omega) _ he, fun ps1 h => by cases h⟩
  simp only
  split
  · exact ⟨fun e h => by cases h; rfl, fun ps1 h => by cases h⟩
  split
  · exact ⟨fun e h => by cases h; rfl, fun ps1 h => by cases h⟩
  split
  · exact ⟨fun e h => by cases h; rfl, fun ps1 h => by cases h⟩
  split
  · rename_i e he
    exact ⟨fun e' h => by cases h; exact insertCode_within ibuf obuf _ k _ m _ 0 0 _ (by simp; omega) _ he,
      fun ps1 h => by cases h⟩
  · exact ⟨fun e h => (by cases h), fun ps1 h => by cases h; simp only; omega⟩

theorem parseEntries_within (ibuf obuf : Memory) (m : Nat) (cnt k : Nat) (ps : Parse) (hp : ps.p ≤ m) :
    (∀ e, parseEntries ibuf obuf m cnt k ps = .error e → stopsWithin ibuf m (· = obuf) e) ∧
    (∀ ps1, parseEntries ibuf obuf m cnt k ps = .ok ps1 → ps1.p ≤ m) := by
  induction cnt generalizing k ps with
  | zero => exact ⟨fun e h => (by cases h), fun ps1 h => by cases h; exact hp⟩
  | succ cnt ih =>
    obtain ⟨h1, h2⟩ := parseEntry_within ibuf obuf m k ps
    unfold parseEntries
    split
    · rename_i e he
      exact ⟨fun e' h => by cases h; exact h1 _ he, fun ps1 h => by cases h⟩
    · rename_i ps2 h3
      exact ih _ ps2 (h2 _ h3)

/-- The header (R181 to R184): it reads below `m`, leaves OBUF alone, and ends at or below `m`. -/
theorem parseHeader_within (ibuf obuf : Memory) (m : Nat) :
    (∀ e, parseHeader ibuf obuf m = .error e → stopsWithin ibuf m (· = obuf) e) ∧
    (∀ n ps, parseHeader ibuf obuf m = .ok (n, ps) → ps.p ≤ m ∧ n < 2 ^ 32) := by
  have hn : (∀ e, parseNsym ibuf obuf m = .error e → stopsWithin ibuf m (· = obuf) e) ∧
      (∀ n, parseNsym ibuf obuf m = .ok n → n < 2 ^ 32 ∧ 4 ≤ m) := by
    unfold parseNsym
    split
    · exact ⟨fun e h => by cases h; rfl, fun n h => by cases h⟩
    split
    · rename_i b0 b1 b2 b3 _ _ _ _
      split
      · exact ⟨fun e h => by cases h; rfl, fun n h => by cases h⟩
      · refine ⟨fun e h => (by cases h), fun n h => ?_⟩
        cases h
        have := b0.isLt; have := b1.isLt; have := b2.isLt; have := b3.isLt
        unfold beToNat32
        omega
    all_goals
      rename_i e _
      refine ⟨fun e' h => ?_, fun n h => by cases h⟩
      cases h
      first
        | exact readByte_within ibuf m 0 _ (by omega) _ ‹_›
        | exact readByte_within ibuf m 1 _ (by omega) _ ‹_›
        | exact readByte_within ibuf m 2 _ (by omega) _ ‹_›
        | exact readByte_within ibuf m 3 _ (by omega) _ ‹_›
  have hl : (∀ e, parseNdist ibuf obuf m = .error e → stopsWithin ibuf m (· = obuf) e) ∧
      (∀ l, parseNdist ibuf obuf m = .ok l → 6 ≤ m) := by
    unfold parseNdist
    split
    · exact ⟨fun e h => by cases h; rfl, fun n h => by cases h⟩
    split
    · split
      · exact ⟨fun e h => by cases h; rfl, fun n h => by cases h⟩
      · exact ⟨fun e h => (by cases h), fun n h => by omega⟩
    all_goals
      rename_i e _
      refine ⟨fun e' h => ?_, fun n h => by cases h⟩
      cases h
      first
        | exact readByte_within ibuf m 4 _ (by omega) _ ‹_›
        | exact readByte_within ibuf m 5 _ (by omega) _ ‹_›
  unfold parseHeader
  split
  · exact ⟨fun e' h => by cases h; exact hn.1 _ ‹_›, fun n ps h => by cases h⟩
  · rename_i n h1
    split
    · exact ⟨fun e' h => by cases h; exact hl.1 _ ‹_›, fun n ps h => by cases h⟩
    · rename_i l h2
      have h6 : parseStart.p ≤ m := hl.2 _ h2
      obtain ⟨h3, h4⟩ := parseEntries_within ibuf obuf m l 0 parseStart h6
      split
      · exact ⟨fun e' h => by cases h; exact h3 _ ‹_›, fun n ps h => by cases h⟩
      · refine ⟨fun e h => (by cases h), fun n' ps h => ?_⟩
        cases h
        exact ⟨h4 _ ‹_›, (hn.2 _ h1).1⟩

/-- The walk (R187) keeps what every write of OBUF below NSYM keeps, reads below `m`, and ends with NSYM symbols
out. -/
theorem walkLoop_within (ibuf : Memory) (dt : List DtNode) (p n m : Nat) (P : Nat → Memory → Prop)
    (hput : ∀ a v obuf, a < n → P a obuf → P (a + 1) (memPut obuf a v)) (rem : Nat) (w : Walk)
    (hm : 8 * p + w.bp + rem ≤ 8 * m) (hP : P w.em w.obuf) (hem : w.em ≤ n) :
    (∀ e, walkLoop ibuf dt p n rem w = .error e → stopsWithin ibuf m (fun obuf => ∃ em, em < n ∧ P em obuf) e) ∧
    (∀ w1, walkLoop ibuf dt p n rem w = .ok w1 → w1.em = n ∧ P n w1.obuf) := by
  induction rem generalizing w with
  | zero =>
    unfold walkLoop
    split
    · have : w.em = n := by omega
      exact ⟨fun e h => (by cases h), fun w1 h => by cases h; exact ⟨this, this ▸ hP⟩⟩
    · exact ⟨fun e h => (by cases h; exact ⟨w.em, by omega, hP⟩), fun w1 h => by cases h⟩
  | succ rem ih =>
    unfold walkLoop
    split
    · have : w.em = n := by omega
      exact ⟨fun e h => (by cases h), fun w1 h => by cases h; exact ⟨this, this ▸ hP⟩⟩
    rename_i hlt
    simp only
    split
    · rename_i e he
      refine ⟨fun e' h => ?_, fun w1 h => by cases h⟩
      cases h
      obtain ⟨h1, rfl⟩ := readBit_error ibuf p w.bp _ he
      exact ⟨p + w.bp / 8, by omega, h1, rfl⟩
    · rename_i b hb
      unfold walkStep
      simp only
      by_cases hc : dtChild dt w.cur b = nullHandle
      · simp only [if_pos hc]
        exact ⟨fun e h => (by cases h; exact ⟨w.em, by omega, hP⟩), fun w1 h => by cases h⟩
      · simp only [if_neg hc]
        by_cases hk : (dtAt dt (dtChild dt w.cur b)).kind = .leaf
        · simp only [if_pos hk]
          exact ih _ (by simp only; omega) (hput _ _ _ (by omega) hP) (by simp only; omega)
        · simp only [if_neg hk]
          exact ih _ (by simp only; omega) hP hem

/-- The frame (R180): it reads below `m`; OBUF keeps what every write below the size keeps; NSYM symbols are
written from address 0 when it completes. -/
theorem readFrame_within (ibuf : Memory) (size m : Nat) (obuf0 : Memory) (P : Nat → Memory → Prop) (h0 : P 0 obuf0)
    (hput : ∀ a v obuf, a < size → P a obuf → P (a + 1) (memPut obuf a v)) :
    (∀ e, readFrame ibuf size m obuf0 = .error e → stopsWithin ibuf m (fun obuf => ∃ em, P em obuf) e) ∧
    (∀ n w, readFrame ibuf size m obuf0 = .ok (n, w) → n ≤ size ∧ n < 2 ^ 32 ∧ P n w.obuf) := by
  obtain ⟨h1, h2⟩ := parseHeader_within ibuf obuf0 m
  unfold readFrame
  split
  · rename_i e he
    refine ⟨fun e' h => ?_, fun n w h => by cases h⟩
    cases h
    have := h1 _ he
    cases e with
    | raised c ob => exact ⟨0, by rw [show ob = obuf0 from this]; exact h0⟩
    | refused r => exact this
  · rename_i n ps hps
    obtain ⟨h3, h4⟩ := h2 _ _ hps
    split
    · exact ⟨fun e h => (by cases h; exact ⟨0, h0⟩), fun n w h => by cases h⟩
    · rename_i hsz
      obtain ⟨h5, h6⟩ := walkLoop_within ibuf ps.dt ps.p n m P (fun a v ob ha hp => hput a v ob (by omega) hp)
        (8 * (m - ps.p)) { cur := 0, bp := 0, em := 0, obuf := obuf0 } (by simp only; omega) h0 (by simp)
      split
      · rename_i e he
        refine ⟨fun e' h => ?_, fun n w h => by cases h⟩
        cases h
        have := h5 _ he
        cases e with
        | raised c ob => obtain ⟨em, _, h⟩ := this; exact ⟨em, h⟩
        | refused r => exact this
      · rename_i w hw
        refine ⟨fun e h => (by cases h), fun n' w' h => ?_⟩
        cases h
        exact ⟨by omega, h4, (h6 _ hw).2⟩

end Sys2Proof.Machine
end

