-- ==== Sys2Proof/Laws/Decoder.lean ====
section
/-! SUPPORT. What DECODE's phases do (44_bit_decoder.md): the tree DT as a set of paths, the insertion of one
code, the parse of good entries, and the walk over whole codes and parts of codes. -/

namespace Sys2Proof.Machine

open Sys2Proof

/-! ### DT after one more node -/

theorem handle_ne_null (j : Nat) (hj : j < 511) : BitVec.ofNat 9 j ≠ nullHandle :=
  ne_null_of_lt _ (by rw [toNat_handle j (by omega)]; exact hj)

theorem dtAt_handle (dt : List DtNode) (k : Nat) (hk : k < 512) :
    dtAt dt (BitVec.ofNat 9 k) = dt.getD k dtInternal := by
  rw [dtAt, toNat_handle k hk]

/-- A node that stood in DT, after DT has grown by a child of node i on side b. -/
theorem dtAt_dtGrow (dt : List DtNode) (i k : Nat) (b : Bool) (n : DtNode) (hi : i < dt.length) (hk : k < dt.length)
    (hl : dt.length < 511) :
    dtAt (dtGrow dt (BitVec.ofNat 9 i) b n) (BitVec.ofNat 9 k) =
      if k = i then
        (if b then { dtAt dt (BitVec.ofNat 9 i) with right := BitVec.ofNat 9 dt.length }
          else { dtAt dt (BitVec.ofNat 9 i) with left := BitVec.ofNat 9 dt.length })
      else dtAt dt (BitVec.ofNat 9 k) := by
  rw [dtAt_handle _ k (by omega), dtAt_handle dt k (by omega), dtGrow, dtLink, toNat_handle i (by omega)]
  simp only [List.getD_eq_getElem?_getD]
  rw [List.getElem?_append_left (by simpa using hk), List.getElem?_set]
  by_cases hki : k = i
  · subst hki
    simp [hk]
  · rw [if_neg (fun h => hki h.symm), if_neg hki]

/-- The node DT has grown by. -/
theorem dtAt_dtGrow_new (dt : List DtNode) (i : Nat) (b : Bool) (n : DtNode) (hl : dt.length < 511) :
    dtAt (dtGrow dt (BitVec.ofNat 9 i) b n) (BitVec.ofNat 9 dt.length) = n := by
  rw [dtAt_handle _ _ (by omega), dtGrow, List.getD_eq_getElem?_getD,
    List.getElem?_append_right (by simp [dtLink])]
  simp [dtLink]

@[simp] theorem length_dtGrow (dt : List DtNode) (h : Handle) (b : Bool) (n : DtNode) :
    (dtGrow dt h b n).length = dt.length + 1 := by simp [dtGrow, dtLink]

/-! ### DT as a set of paths -/

/-- DT holds the paths `ps`: the handle of the i-th is i, its children lead to the paths one bit longer, and it is
a leaf exactly when it is the code of an entry of `es` (R183). -/
structure DtHolds (dt : List DtNode) (ps : List Code) (es : List (Symbol × Code)) : Prop where
  len : ps.length = dt.length
  cap : dt.length ≤ 511
  root : ps[0]? = some []
  nodup : ps.Nodup
  closed : ∀ q b, q ++ [b] ∈ ps → q ∈ ps
  child : ∀ (i j : Nat) q b, ps[i]? = some q → ps[j]? = some (q ++ [b]) →
    dtChild dt (BitVec.ofNat 9 i) b = BitVec.ofNat 9 j
  nochild : ∀ (i : Nat) q b, ps[i]? = some q → q ++ [b] ∉ ps → dtChild dt (BitVec.ofNat 9 i) b = nullHandle
  leaf : ∀ (i : Nat) q x, ps[i]? = some q → (x, q) ∈ es →
    (dtAt dt (BitVec.ofNat 9 i)).kind = .leaf ∧ (dtAt dt (BitVec.ofNat 9 i)).sym = x
  inner : ∀ (i : Nat) q, ps[i]? = some q → (∀ x, (x, q) ∉ es) → (dtAt dt (BitVec.ofNat 9 i)).kind = .internal

/-- The paths are the prefixes of the entries' codes. -/
def pathsOf (ps : List Code) (es : List (Symbol × Code)) : Prop :=
  ∀ q, q ∈ ps ↔ q = [] ∨ ∃ e ∈ es, q <+: e.2

/-- DT[0] alone (R183). -/
theorem dtHolds_start : DtHolds [dtInternal] [[]] [] ∧ pathsOf [[]] [] := by
  refine ⟨⟨rfl, by decide, rfl, by simp, ?_, ?_, ?_, ?_, ?_⟩, ?_⟩
  · intro q b h
    simp at h
  · intro i j q b hi hj
    rcases j with _ | j
    · simp at hj
    · simp at hj
  · intro i q b hi _
    rcases i with _ | i
    · cases b <;> rfl
    · simp at hi
  · intro i q x _ h
    simp at h
  · intro i q hi _
    rcases i with _ | i
    · rfl
    · simp at hi
  · intro q
    simp

/-- DT with one more node, the child of path q on side b. -/
theorem DtHolds.grow {dt : List DtNode} {ps : List Code} {es es' : List (Symbol × Code)} (h : DtHolds dt ps es)
    {i : Nat} {q : Code} {b : Bool} {n : DtNode} (hi : ps[i]? = some q) (hq : q ++ [b] ∉ ps) (hl : dt.length < 511)
    (hnl : n.left = nullHandle) (hnr : n.right = nullHandle)
    (hold : ∀ p ∈ ps, ∀ x, (x, p) ∈ es' ↔ (x, p) ∈ es)
    (hleaf : ∀ x, (x, q ++ [b]) ∈ es' → n.kind = .leaf ∧ n.sym = x)
    (hinner : (∀ x, (x, q ++ [b]) ∉ es') → n.kind = .internal) :
    DtHolds (dtGrow dt (BitVec.ofNat 9 i) b n) (ps ++ [q ++ [b]]) es' := by
  have hilt : i < dt.length := by
    rw [← h.len]
    exact (List.getElem?_eq_some_iff.mp hi).1
  have hlow : ∀ (k : Nat) (p : Code), (ps ++ [q ++ [b]])[k]? = some p → (k < dt.length ∧ ps[k]? = some p) ∨
      (k = dt.length ∧ p = q ++ [b]) := by
    intro k p hk
    by_cases hk1 : k < ps.length
    · rw [List.getElem?_append_left hk1] at hk
      exact .inl ⟨by rw [← h.len]; exact hk1, hk⟩
    · rw [List.getElem?_append_right (by omega)] at hk
      have := (List.getElem?_eq_some_iff.mp hk).1
      simp only [List.length_singleton] at this
      have hk0 : k - ps.length = 0 := by omega
      rw [hk0] at hk
      simp only [List.getElem?_cons_zero, Option.some.injEq] at hk
      exact .inr ⟨by rw [← h.len]; omega, hk.symm⟩
  have hinj : ∀ (k : Nat) (p : Code), ps[k]? = some p → ∀ k' : Nat, ps[k']? = some p → k = k' := by
    intro k p hk k' hk'
    obtain ⟨a1, a2⟩ := List.getElem?_eq_some_iff.mp hk
    obtain ⟨b1, b2⟩ := List.getElem?_eq_some_iff.mp hk'
    exact (h.nodup.getElem_inj_iff).mp (a2.trans b2.symm)
  have hchild : ∀ k c, k < dt.length → dtChild (dtGrow dt (BitVec.ofNat 9 i) b n) (BitVec.ofNat 9 k) c =
      if k = i ∧ c = b then BitVec.ofNat 9 dt.length else dtChild dt (BitVec.ofNat 9 k) c := by
    intro k c hk
    unfold dtChild
    rw [dtAt_dtGrow dt i k b n hilt hk hl]
    by_cases hki : k = i
    · subst hki
      cases b <;> cases c <;> simp
    · simp [hki]
  have hchildnew : ∀ c, dtChild (dtGrow dt (BitVec.ofNat 9 i) b n) (BitVec.ofNat 9 dt.length) c = nullHandle := by
    intro c
    unfold dtChild
    rw [dtAt_dtGrow_new dt i b n hl]
    cases c
    · exact hnl
    · exact hnr
  have hks : ∀ k, k < dt.length → (dtAt (dtGrow dt (BitVec.ofNat 9 i) b n) (BitVec.ofNat 9 k)).kind =
      (dtAt dt (BitVec.ofNat 9 k)).kind ∧ (dtAt (dtGrow dt (BitVec.ofNat 9 i) b n) (BitVec.ofNat 9 k)).sym =
      (dtAt dt (BitVec.ofNat 9 k)).sym := by
    intro k hk
    rw [dtAt_dtGrow dt i k b n hilt hk hl]
    by_cases hki : k = i
    · subst hki
      cases b <;> simp
    · simp [hki]
  have hmem : q ∈ ps := List.mem_of_getElem? hi
  have hext : ∀ p c, p ++ [c] = q ++ [b] → p = q ∧ c = b := by
    intro p c hpc
    have := List.append_inj' hpc rfl
    simpa using this
  refine ⟨by simp [h.len], by simp only [length_dtGrow]; omega, ?_, ?_, ?_, ?_, ?_, ?_, ?_⟩
  · rw [List.getElem?_append_left (List.getElem?_eq_some_iff.mp h.root).1]
    exact h.root
  · rw [List.nodup_append]
    refine ⟨h.nodup, List.nodup_singleton _, fun x hx y hy => ?_⟩
    rw [List.mem_singleton] at hy
    subst hy
    exact fun hxy => hq (hxy ▸ hx)
  · intro p c hp
    rw [List.mem_append, List.mem_singleton] at hp ⊢
    rcases hp with hp | hp
    · exact .inl (h.closed p c hp)
    · exact .inl ((hext p c hp).1 ▸ hmem)
  · intro k j p c hk hj
    rcases hlow k p hk with ⟨k1, k2⟩ | ⟨k1, k2⟩
    · rw [hchild k c k1]
      rcases hlow j _ hj with ⟨j1, j2⟩ | ⟨j1, j2⟩
      · rw [if_neg, h.child k j p c k2 j2]
        rintro ⟨rfl, rfl⟩
        rw [hi, Option.some.injEq] at k2
        exact hq (k2 ▸ List.mem_of_getElem? j2)
      · obtain ⟨e1, e2⟩ := hext p c j2
        subst e1
        rw [if_pos ⟨hinj k p k2 i hi, e2⟩, j1]
    · exfalso
      subst k2
      rcases hlow j _ hj with ⟨j1, j2⟩ | ⟨j1, j2⟩
      · exact hq (h.closed _ _ (List.mem_of_getElem? j2))
      · have := congrArg List.length j2
        simp at this
  · intro k p c hk hc
    rw [List.mem_append, List.mem_singleton, not_or] at hc
    rcases hlow k p hk with ⟨k1, k2⟩ | ⟨k1, k2⟩
    · rw [hchild k c k1, if_neg, h.nochild k p c k2 hc.1]
      rintro ⟨rfl, rfl⟩
      rw [hi, Option.some.injEq] at k2
      exact hc.2 (by rw [k2])
    · rw [k1, hchildnew]
  · intro k p x hk hx
    rcases hlow k p hk with ⟨k1, k2⟩ | ⟨k1, k2⟩
    · rw [(hks k k1).1, (hks k k1).2]
      exact h.leaf k p x k2 ((hold p (List.mem_of_getElem? k2) x).mp hx)
    · subst k2
      rw [k1, dtAt_dtGrow_new dt i b n hl]
      exact hleaf x hx
  · intro k p hk hx
    rcases hlow k p hk with ⟨k1, k2⟩ | ⟨k1, k2⟩
    · rw [(hks k k1).1]
      exact h.inner k p k2 (fun x hx' => hx x ((hold p (List.mem_of_getElem? k2) x).mpr hx'))
    · subst k2
      rw [k1, dtAt_dtGrow_new dt i b n hl]
      exact hinner hx

/-- A path of DT has a handle below 511. -/
theorem DtHolds.handle {dt : List DtNode} {ps : List Code} {es : List (Symbol × Code)} (h : DtHolds dt ps es)
    {q : Code} (hq : q ∈ ps) : ∃ i, ps[i]? = some q ∧ i < 511 := by
  obtain ⟨i, hi, hqi⟩ := List.getElem_of_mem hq
  have := h.len
  have := h.cap
  exact ⟨i, by rw [List.getElem?_eq_getElem hi, hqi], by omega⟩

/-! ### Inserting one code (R183) -/

/-- The prefixes of a code that are longer than j bits and no paths yet. -/
def missing (ps : List Code) (d : Code) (j rem : Nat) : List Code :=
  ((List.range' (j + 1) rem).map d.take).filter (fun q => decide (q ∉ ps))

theorem missing_succ (ps : List Code) (d : Code) (j rem : Nat) (hm : d.take (j + 1) ∈ ps) :
    missing ps d j (rem + 1) = missing ps d (j + 1) rem := by
  simp [missing, List.range'_succ, hm]

theorem missing_new (ps : List Code) (d : Code) (j rem : Nat) (hm : d.take (j + 1) ∉ ps) (hj : j + (rem + 1) = d.length) :
    missing ps d j (rem + 1) = d.take (j + 1) :: missing (ps ++ [d.take (j + 1)]) d (j + 1) rem := by
  unfold missing
  rw [List.range'_succ, List.map_cons, List.filter_cons, if_pos (by simpa using hm)]
  congr 1
  apply List.filter_congr
  intro q hq
  simp only [List.mem_map, List.mem_range'_1] at hq
  obtain ⟨a, ⟨ha1, ha2⟩, rfl⟩ := hq
  have : d.take a ≠ d.take (j + 1) := by
    intro h
    have := congrArg List.length h
    simp only [List.length_take] at this
    omega
  simp [this]

theorem take_succ_code (d : Code) (j : Nat) (hj : j < d.length) : d.take (j + 1) = d.take j ++ [d.getD j false] := by
  rw [List.take_add_one, List.getElem?_eq_getElem hj]
  simp [List.getD, hj]

/-- The code of an entry that clashes with none before it is inserted, or runs out of nodes. -/
theorem insertCode_apart (ibuf obuf : Memory) (x : Symbol) (k p : Nat) (d : Code) (es : List (Symbol × Code))
    (hbits : ∀ j, j < d.length → readBit ibuf p j = .ok (d.getD j false))
    (hap : ∀ f ∈ es, apart f.2 d) : ∀ (rem j i : Nat) (dt : List DtNode) (ps : List Code),
    DtHolds dt ps (if rem = 0 then es ++ [(x, d)] else es) → ps[i]? = some (d.take j) → j + rem = d.length →
    (rem ≠ 0 → d ∉ ps) →
    (dt.length + (missing ps d j rem).length ≤ 511 → ∃ dt',
      insertCode ibuf obuf x k p rem j (BitVec.ofNat 9 i) dt = .ok dt' ∧
      DtHolds dt' (ps ++ missing ps d j rem) (es ++ [(x, d)])) ∧
    (511 < dt.length + (missing ps d j rem).length →
      insertCode ibuf obuf x k p rem j (BitVec.ofNat 9 i) dt = .error (.raised (.hdrTreeOverflow k) obuf)) := by
  intro rem
  induction rem with
  | zero =>
    intro j i dt ps h hi hj _
    have := h.cap
    constructor
    · intro _
      exact ⟨dt, rfl, by simpa [missing] using h⟩
    · intro hlt
      simp [missing] at hlt
      omega
  | succ rem ih =>
    intro j i dt ps h hi hj hd
    rw [if_neg (by omega)] at h
    have hjl : j < d.length := by omega
    have hq := take_succ_code d j hjl
    have hilt : i < 511 := by
      have := (List.getElem?_eq_some_iff.mp hi).1
      have := h.len
      have := h.cap
      omega
    have hpre : d.take (j + 1) <+: d := List.take_prefix _ _
    have hno : ∀ y, (y, d.take (j + 1)) ∉ es := fun y hy => (hap _ hy).1 hpre
    by_cases hm : d.take (j + 1) ∈ ps
    · have hrem : rem ≠ 0 := by
        rintro rfl
        rw [show j + 1 = d.length by omega, List.take_length] at hm
        exact hd (by omega) hm
      obtain ⟨i', hi', hi'2⟩ := h.handle hm
      have hc : dtChild dt (BitVec.ofNat 9 i) (d.getD j false) = BitVec.ofNat 9 i' :=
        h.child i i' _ _ hi (by rw [← hq]; exact hi')
      have hk : (dtAt dt (BitVec.ofNat 9 i')).kind ≠ .leaf := by
        rw [h.inner i' _ hi' hno]
        simp
      have hstep : insertCode ibuf obuf x k p (rem + 1) j (BitVec.ofNat 9 i) dt =
          insertCode ibuf obuf x k p rem (j + 1) (BitVec.ofNat 9 i') dt := by
        rw [insertCode, hbits j hjl]
        simp only [hc]
        rw [if_neg (handle_ne_null i' hi'2), if_neg hrem, if_neg hk]
      rw [hstep, missing_succ ps d j rem hm]
      exact ih (j + 1) i' dt ps (by rw [if_neg hrem]; exact h) hi' (by omega) (fun _ => hd (by omega))
    · have hc : dtChild dt (BitVec.ofNat 9 i) (d.getD j false) = nullHandle :=
        h.nochild i _ _ hi (by rw [← hq]; exact hm)
      rw [missing_new ps d j rem hm hj]
      by_cases hfull : dt.length = 511
      · constructor
        · intro hle
          simp only [List.length_cons] at hle
          omega
        · intro _
          rw [insertCode, hbits j hjl]
          simp only [hc]
          rw [if_pos trivial, if_pos hfull]
      · have hcap := h.cap
        have hstep : insertCode ibuf obuf x k p (rem + 1) j (BitVec.ofNat 9 i) dt =
            insertCode ibuf obuf x k p rem (j + 1) (BitVec.ofNat 9 dt.length)
              (dtGrow dt (BitVec.ofNat 9 i) (d.getD j false) (if rem = 0 then dtLeaf x else dtInternal)) := by
          rw [insertCode, hbits j hjl]
          simp only [hc]
          rw [if_pos trivial, if_neg hfull]
        rw [hstep]
        have hgrow : DtHolds (dtGrow dt (BitVec.ofNat 9 i) (d.getD j false) (if rem = 0 then dtLeaf x else dtInternal))
            (ps ++ [d.take (j + 1)]) (if rem = 0 then es ++ [(x, d)] else es) := by
          rw [hq]
          rw [hq] at hm hno
          refine h.grow hi hm (by omega) ?_ ?_ ?_ ?_ ?_
          · split <;> rfl
          · split <;> rfl
          · intro p' hp' y
            by_cases hrem : rem = 0
            · rw [if_pos hrem, List.mem_append, List.mem_singleton]
              constructor
              · rintro (h1 | h1)
                · exact h1
                · rw [Prod.mk.injEq] at h1
                  exact absurd (h1.2 ▸ hp') (hd (by omega))
              · exact .inl
            · rw [if_neg hrem]
          · intro y hy
            by_cases hrem : rem = 0
            · rw [if_pos hrem, List.mem_append, List.mem_singleton] at hy
              rcases hy with hy | hy
              · exact absurd hy (hno y)
              · rw [Prod.mk.injEq] at hy
                rw [if_pos hrem]
                exact ⟨rfl, hy.1.symm⟩
            · rw [if_neg hrem] at hy
              exact absurd hy (hno y)
          · intro hall
            by_cases hrem : rem = 0
            · exfalso
              rw [if_pos hrem] at hall
              apply hall x
              rw [← hq, show j + 1 = d.length by omega, List.take_length]
              simp
            · rw [if_neg hrem]
              rfl
        have hnext : (ps ++ [d.take (j + 1)])[dt.length]? = some (d.take (j + 1)) := by
          rw [List.getElem?_append_right (by rw [h.len]), h.len]
          simp
        have hres := ih (j + 1) dt.length _ (ps ++ [d.take (j + 1)]) hgrow hnext (by omega) (by
          intro hrem hmem
          rw [List.mem_append, List.mem_singleton] at hmem
          rcases hmem with hmem | hmem
          · exact hd (by omega) hmem
          · have := congrArg List.length hmem
            simp only [List.length_take] at this
            omega)
        simp only [length_dtGrow, List.length_cons] at hres ⊢
        rw [List.append_assoc, List.singleton_append] at hres
        exact ⟨fun hle => hres.1 (by omega), fun hlt => hres.2 (by omega)⟩

/-- The first bits of a code, of which no earlier code is a prefix, are followed into DT; the bits after them come
next (R183). -/
theorem insertCode_part (ibuf obuf : Memory) (x : Symbol) (k p more : Nat) (d : Code) (es : List (Symbol × Code))
    (hbits : ∀ j, j < d.length → readBit ibuf p j = .ok (d.getD j false))
    (hap : ∀ f ∈ es, ¬ f.2 <+: d) : ∀ (rem j i : Nat) (dt : List DtNode) (ps : List Code),
    DtHolds dt ps es → ps[i]? = some (d.take j) → j + rem = d.length →
    dt.length + (missing ps d j rem).length ≤ 511 → ∃ cur dt',
      insertCode ibuf obuf x k p (rem + (more + 1)) j (BitVec.ofNat 9 i) dt =
        insertCode ibuf obuf x k p (more + 1) d.length cur dt' := by
  intro rem
  induction rem with
  | zero =>
    intro j i dt ps _ _ hj _
    exact ⟨_, _, by rw [Nat.zero_add, show j = d.length by omega]⟩
  | succ rem ih =>
    intro j i dt ps h hi hj hcap
    have hjl : j < d.length := by omega
    have hq := take_succ_code d j hjl
    have hno : ∀ y, (y, d.take (j + 1)) ∉ es := fun y hy => hap _ hy (List.take_prefix _ _)
    rw [show rem + 1 + (more + 1) = rem + (more + 1) + 1 by omega, insertCode, hbits j hjl]
    by_cases hm : d.take (j + 1) ∈ ps
    · obtain ⟨i', hi', hi'2⟩ := h.handle hm
      have hc : dtChild dt (BitVec.ofNat 9 i) (d.getD j false) = BitVec.ofNat 9 i' :=
        h.child i i' _ _ hi (by rw [← hq]; exact hi')
      simp only [hc, h.inner i' _ hi' hno]
      rw [if_neg (handle_ne_null i' hi'2), if_neg (by omega), if_neg (by simp)]
      exact ih (j + 1) i' dt ps h hi' (by omega) (by rwa [missing_succ ps d j rem hm] at hcap)
    · have hc : dtChild dt (BitVec.ofNat 9 i) (d.getD j false) = nullHandle :=
        h.nochild i _ _ hi (by rw [← hq]; exact hm)
      rw [missing_new ps d j rem hm hj, List.length_cons] at hcap
      simp only [hc]
      rw [if_pos trivial, if_neg (by omega), if_neg (by omega)]
      refine ih (j + 1) dt.length _ (ps ++ [d.take (j + 1)]) ?_ ?_ (by omega) (by rw [length_dtGrow]; omega)
      · rw [hq] at hm hno ⊢
        exact h.grow hi hm (by omega) rfl rfl (fun _ _ _ => Iff.rfl) (fun y hy => absurd hy (hno y)) (fun _ => rfl)
      · rw [List.getElem?_append_right (by rw [h.len]), h.len]
        simp

/-- The code of an entry that clashes with one before it is found out (R183). -/
theorem insertCode_clash (ibuf obuf : Memory) (x : Symbol) (k p : Nat) (d : Code) (es : List (Symbol × Code))
    (hbits : ∀ j, j < d.length → readBit ibuf p j = .ok (d.getD j false)) (dt : List DtNode) (ps : List Code)
    (h : DtHolds dt ps es) (hps : pathsOf ps es) (f : Symbol × Code) (hf : f ∈ es) :
    ∀ (rem j i : Nat), ps[i]? = some (d.take j) → j + (rem + 1) = d.length →
    ((f.2 <+: d ∧ j < f.2.length) ∨ d <+: f.2) →
    insertCode ibuf obuf x k p (rem + 1) j (BitVec.ofNat 9 i) dt = .error (.raised (.hdrPrefixConflict k) obuf) := by
  intro rem
  induction rem with
  | zero =>
    intro j i hi hj hor
    obtain ⟨i', hc, hn, _, _⟩ := clash_step j i hi (by omega) hor
    rw [insertCode, hbits j (by omega)]
    simp only [hc]
    rw [if_neg hn, if_pos trivial]
  | succ rem ih =>
    intro j i hi hj hor
    obtain ⟨i', hc, hn, hi', hor'⟩ := clash_step j i hi (by omega) hor
    rw [insertCode, hbits j (by omega)]
    simp only [hc]
    rw [if_neg hn, if_neg (by omega)]
    split
    · rfl
    · rename_i hk
      exact ih (j + 1) i' hi' (by omega) (hor' hk (by omega))
where
  clash_step (j i : Nat) (hi : ps[i]? = some (d.take j)) (hj : j < d.length)
      (hor : (f.2 <+: d ∧ j < f.2.length) ∨ d <+: f.2) :
      ∃ i', dtChild dt (BitVec.ofNat 9 i) (d.getD j false) = BitVec.ofNat 9 i' ∧ BitVec.ofNat 9 i' ≠ nullHandle ∧
        ps[i']? = some (d.take (j + 1)) ∧ (¬ (dtAt dt (BitVec.ofNat 9 i')).kind = .leaf → j + 1 < d.length →
          (f.2 <+: d ∧ j + 1 < f.2.length) ∨ d <+: f.2) := by
    have hpre : d.take (j + 1) <+: f.2 := by
      rcases hor with ⟨h1, h2⟩ | h1
      · exact List.prefix_of_prefix_length_le (List.take_prefix _ _) h1 (by simp only [List.length_take]; omega)
      · exact (List.take_prefix _ _).trans h1
    obtain ⟨i', hi', hi'2⟩ := h.handle ((hps _).mpr (.inr ⟨f, hf, hpre⟩))
    refine ⟨i', h.child i i' _ _ hi (by rw [← take_succ_code d j hj]; exact hi'), handle_ne_null i' hi'2, hi', ?_⟩
    intro hk _
    rcases hor with ⟨h1, h2⟩ | h1
    · left
      refine ⟨h1, ?_⟩
      by_contra hlt
      have he : d.take (j + 1) = f.2 := hpre.eq_of_length (by simp only [List.length_take]; omega)
      exact hk (h.leaf i' _ f.1 hi' (by rw [he]; exact hf)).1
    · exact .inr h1

/-! ### How many nodes a table needs -/

theorem mem_inits_tail (d q : Code) : q ∈ d.inits.tail ↔ q ≠ [] ∧ q <+: d := by
  cases d with
  | nil => simp
  | cons b d =>
    rw [List.inits_cons, List.tail_cons, List.mem_map]
    constructor
    · rintro ⟨r, hr, rfl⟩
      exact ⟨by simp, List.cons_prefix_cons.mpr ⟨rfl, (List.mem_inits r d).mp hr⟩⟩
    · rintro ⟨h1, h2⟩
      cases q with
      | nil => exact absurd rfl h1
      | cons c q =>
        obtain ⟨rfl, h3⟩ := List.cons_prefix_cons.mp h2
        exact ⟨q, (List.mem_inits q d).mpr h3, rfl⟩

/-- DT has one node for the root and one for each prefix. -/
theorem length_paths {ps : List Code} {es : List (Symbol × Code)} (hn : ps.Nodup) (hps : pathsOf ps es) :
    ps.length = dtNeed es + 1 := by
  have hperm : ps.Perm ([] :: (es.flatMap (fun e => e.2.inits.tail)).dedup) := by
    rw [List.perm_ext_iff_of_nodup hn]
    · intro q
      rw [hps q, List.mem_cons, List.mem_dedup, List.mem_flatMap]
      constructor
      · rintro (h | ⟨e, he, hq⟩)
        · exact .inl h
        · by_cases h0 : q = []
          · exact .inl h0
          · exact .inr ⟨e, he, (mem_inits_tail _ _).mpr ⟨h0, hq⟩⟩
      · rintro (h | ⟨e, he, hq⟩)
        · exact .inl h
        · exact .inr ⟨e, he, ((mem_inits_tail _ _).mp hq).2⟩
    · rw [List.nodup_cons]
      refine ⟨?_, List.nodup_dedup _⟩
      rw [List.mem_dedup, List.mem_flatMap]
      rintro ⟨e, _, he⟩
      exact ((mem_inits_tail _ _).mp he).1 rfl
  simpa [dtNeed] using hperm.length_eq

/-- The paths after one more code. -/
theorem pathsOf_missing {dt : List DtNode} {ps : List Code} {es : List (Symbol × Code)} (_h : DtHolds dt ps es)
    (hps : pathsOf ps es) (x : Symbol) (d : Code) : pathsOf (ps ++ missing ps d 0 d.length) (es ++ [(x, d)]) := by
  intro q
  have hmem : q ∈ missing ps d 0 d.length ↔ q ∉ ps ∧ ∃ a, 1 ≤ a ∧ a ≤ d.length ∧ d.take a = q := by
    simp only [missing, List.mem_filter, List.mem_map, List.mem_range'_1, decide_eq_true_eq]
    constructor
    · rintro ⟨⟨a, ha, rfl⟩, h2⟩
      exact ⟨h2, a, by omega, by omega, rfl⟩
    · rintro ⟨h2, a, h3, h4, rfl⟩
      exact ⟨⟨a, by omega, rfl⟩, h2⟩
  rw [List.mem_append, hmem, hps q]
  constructor
  · rintro ((h1 | ⟨e, he, hq⟩) | ⟨_, a, _, _, rfl⟩)
    · exact .inl h1
    · exact .inr ⟨e, by simp [he], hq⟩
    · exact .inr ⟨(x, d), by simp, List.take_prefix _ _⟩
  · rintro (h1 | ⟨e, he, hq⟩)
    · exact .inl (.inl h1)
    · rw [List.mem_append, List.mem_singleton] at he
      rcases he with he | rfl
      · exact .inl (.inr ⟨e, he, hq⟩)
      · by_cases hin : q ∈ ps
        · exact .inl ((hps q).mp hin)
        · refine .inr ⟨fun h => hin ((hps q).mpr h), q.length, ?_, hq.length_le, (List.prefix_iff_eq_take.mp hq).symm⟩
          by_contra h0
          exact hin ((hps q).mpr (.inl (List.length_eq_zero_iff.mp (by omega))))

theorem DtHolds.nodup_missing {dt : List DtNode} {ps : List Code} {es : List (Symbol × Code)} (h : DtHolds dt ps es)
    (d : Code) : (ps ++ missing ps d 0 d.length).Nodup := by
  rw [List.nodup_append]
  refine ⟨h.nodup, ?_, ?_⟩
  · refine List.Nodup.filter _ (List.Nodup.map_on ?_ List.nodup_range')
    intro a ha b hb' hab
    simp only [List.mem_range'_1] at ha hb'
    have := congrArg List.length hab
    simp only [List.length_take] at this
    omega
  · intro q hq r hr hqr
    simp only [missing, List.mem_filter, decide_eq_true_eq] at hr
    exact hr.2 (hqr ▸ hq)

/-! ### Parsing entries (R182) -/

/-- The parse state after the good entries `es`, at offset `off`. -/
structure ParsedTo (es : List (Symbol × Code)) (off : Nat) (ps : Parse) : Prop where
  at_ : ps.p = off
  seen : ∀ x, x ∈ ps.seen ↔ x ∈ es.map Prod.fst
  tree : ∃ paths, DtHolds ps.dt paths es ∧ pathsOf paths es

theorem parsedTo_start : ParsedTo [] 6 parseStart :=
  ⟨rfl, by simp [parseStart], [[]], dtHolds_start⟩

/-- The bytes `bs` stand in a buffer from address `a`. -/
def bytesAt (ibuf : Memory) (a : Nat) (bs : List Byte) : Prop := ∀ k, k < bs.length → memGet ibuf (a + k) = bs[k]?

theorem bytesAt.append {ibuf : Memory} {a : Nat} {bs cs : List Byte} (h : bytesAt ibuf a (bs ++ cs)) :
    bytesAt ibuf a bs ∧ bytesAt ibuf (a + bs.length) cs := by
  constructor
  · intro k hk
    rw [h k (by simp; omega), List.getElem?_append_left hk]
  · intro k hk
    rw [Nat.add_assoc, h (bs.length + k) (by simp; omega), List.getElem?_append_right (by omega)]
    congr 1
    omega

/-- The bits of the code of an entry's bytes. -/
theorem entryBits (ibuf : Memory) (a : Nat) (d : Code) (cb : List Byte) (hb : bytesAt ibuf a cb) (hd : d <+: bitsOf cb) :
    ∀ j, j < d.length → readBit ibuf a j = .ok (d.getD j false) := by
  intro j hj
  refine readBit_bitsOf ibuf a j cb _ hb ?_
  rw [List.prefix_iff_getElem?] at hd
  rw [hd j hj]
  simp [List.getD, hj]

/-- The tests of an entry up to its code (R182). -/
theorem parseEntry_eq (ibuf obuf : Memory) (m k : Nat) (ps : Parse) (e : Symbol × Code) (cb : List Byte)
    (hb : bytesAt ibuf ps.p (e.1 :: BitVec.ofNat 8 e.2.length :: cb)) (hcb : cb.length = bytesFor e.2.length)
    (h1 : 1 ≤ e.2.length) (h255 : e.2.length ≤ 255) (hnew : e.1 ∉ ps.seen) (hm : ps.p + 2 + cb.length ≤ m) :
    parseEntry ibuf obuf m k ps =
      match insertCode ibuf obuf e.1 k (ps.p + 2) e.2.length 0 0 ps.dt with
      | .error er => .error er
      | .ok dt => .ok { p := ps.p + 2 + bytesFor e.2.length, seen := e.1 :: ps.seen, dt := dt } := by
  have hb0 : memGet ibuf ps.p = some e.1 := by simpa using hb 0 (by simp)
  have hb1 : memGet ibuf (ps.p + 1) = some (BitVec.ofNat 8 e.2.length) := by simpa using hb 1 (by simp)
  have hlen : (BitVec.ofNat 8 e.2.length).toNat = e.2.length := by
    simp only [BitVec.toNat_ofNat]
    omega
  rw [parseEntry, if_neg (by omega)]
  simp only [readByte, hb0, hb1, hlen]
  rw [if_neg (by omega), if_neg (by simpa using hnew), if_neg (by omega)]
  all_goals (cases insertCode ibuf obuf e.1 k (ps.p + 2) e.2.length 0 0 ps.dt <;> rfl)

/-- A good entry is parsed. -/
theorem parseEntry_good (ibuf obuf : Memory) (m k : Nat) (ps : Parse) (es : List (Symbol × Code)) (e : Symbol × Code)
    (eb : List Byte) (off : Nat) (hp : ParsedTo es off ps) (hfit : tableFits (es ++ [e])) (he : entryBytes e eb)
    (hb : bytesAt ibuf off eb) (hm : off + eb.length ≤ m) :
    ∃ ps', parseEntry ibuf obuf m k ps = .ok ps' ∧ ParsedTo (es ++ [e]) (off + eb.length) ps' := by
  obtain ⟨hat, hseen, paths, hdt, hpaths⟩ := hp
  obtain ⟨cb, rfl, hcb, hpre⟩ := he
  obtain ⟨h1, h255⟩ := hfit.lens e (by simp)
  have hnew : e.1 ∉ ps.seen := by
    rw [hseen]
    have := hfit.syms
    rw [List.map_append, List.nodup_append] at this
    intro hin
    exact this.2.2 _ hin e.1 (by simp) rfl
  have hap : ∀ f ∈ es, apart f.2 e.2 := by
    intro f hf
    have := hfit.codes
    rw [List.pairwise_append] at this
    exact this.2.2 f hf e (by simp)
  subst hat
  have hcode := (bytesAt.append (bs := [e.1, BitVec.ofNat 8 e.2.length]) (cs := cb) hb).2
  simp only [List.length_cons, List.length_nil] at hm hcode
  rw [parseEntry_eq ibuf obuf m k ps e cb hb hcb h1 h255 hnew (by omega)]
  have hroot : paths[0]? = some (e.2.take 0) := by simpa using hdt.root
  have hdnot : e.2 ∉ paths := by
    intro hin
    rcases (hpaths _).mp hin with h0 | ⟨f, hf, hpf⟩
    · simp [h0] at h1
    · exact (hap f hf).2 hpf
  have hins := (insertCode_apart ibuf obuf e.1 k (ps.p + 2) e.2 es
    (entryBits ibuf _ e.2 cb hcode hpre) hap e.2.length 0 0 ps.dt paths (by rw [if_neg (by omega)]; exact hdt)
    hroot (by omega) (fun _ => hdnot)).1
  have hpaths' := pathsOf_missing hdt hpaths e.1 e.2
  have hneed : _ = dtNeed (es ++ [e]) + 1 := length_paths (hdt.nodup_missing e.2) hpaths'
  have hnodes := hfit.nodes
  obtain ⟨dt', hd1, hd2⟩ := hins (by
    rw [← hdt.len]
    rw [List.length_append] at hneed
    omega)
  have h0 : (BitVec.ofNat 9 0 : Handle) = 0 := rfl
  rw [h0] at hd1
  rw [hd1]
  refine ⟨_, rfl, ?_, ?_, _, hd2, hpaths'⟩
  · simp only [List.length_cons]
    omega
  · intro x
    simp only [List.mem_cons, hseen, List.map_append, List.map_cons, List.map_nil, List.mem_append, List.not_mem_nil,
      or_false]
    tauto

/-- An entry whose two fixed bytes lie in the frame and are not all written (R36, R182). -/
theorem parseEntry_unwritten_fixed (ibuf obuf : Memory) (m k : Nat) (ps : Parse) (got : List Byte)
    (hb : bytesAt ibuf ps.p got) (hgot : got.length < 2) (hm : ps.p + 2 ≤ m)
    (hnone : memGet ibuf (ps.p + got.length) = none) :
    parseEntry ibuf obuf m k ps = .error (.refused (.ibufUnwritten (ps.p + got.length))) := by
  rw [parseEntry, if_neg (by omega)]
  match got, hb, hgot, hnone with
  | [], _, _, hnone => rw [readByte_none _ ps.p hnone]; rfl
  | [b], hb, _, hnone =>
    have hb0 : memGet ibuf ps.p = some b := by simpa using hb 0 (by simp)
    rw [readByte_none _ (ps.p + 1) hnone]
    simp [readByte, hb0]

/-- An entry whose code bytes lie in the frame and are not all written, the bits before the first that is not being
good (R36, R183). -/
theorem parseEntry_unwritten_code (ibuf obuf : Memory) (m k : Nat) (ps : Parse) (es : List (Symbol × Code)) (off : Nat)
    (hp : ParsedTo es off ps) (x lenByte : Byte) (cb : List Byte) (hb : bytesAt ibuf off (x :: lenByte :: cb))
    (hlen : lenByte ≠ 0) (hnew : x ∉ es.map Prod.fst) (hcb : cb.length < bytesFor lenByte.toNat)
    (hm : off + 2 + bytesFor lenByte.toNat ≤ m) (hap : ∀ e ∈ es, ¬ e.2 <+: bitsOf cb)
    (hneed : dtNeed (es ++ [(x, bitsOf cb)]) ≤ 510) (hnone : memGet ibuf (off + 2 + cb.length) = none) :
    parseEntry ibuf obuf m k ps = .error (.refused (.ibufUnwritten (off + 2 + cb.length))) := by
  obtain ⟨rfl, hseen, paths, hdt, hpaths⟩ := hp
  have hb0 : memGet ibuf ps.p = some x := by simpa using hb 0 (by simp)
  have hb1 : memGet ibuf (ps.p + 1) = some lenByte := by simpa using hb 1 (by simp)
  have hcode : bytesAt ibuf (ps.p + 2) cb := (bytesAt.append (bs := [x, lenByte]) (cs := cb) hb).2
  have hl0 : lenByte.toNat ≠ 0 := fun h => hlen (BitVec.eq_of_toNat_eq h)
  have hcount := length_paths (hdt.nodup_missing (bitsOf cb)) (pathsOf_missing hdt hpaths x (bitsOf cb))
  rw [List.length_append, hdt.len] at hcount
  obtain ⟨more, hmore⟩ : ∃ more, lenByte.toNat = (bitsOf cb).length + (more + 1) :=
    ⟨lenByte.toNat - (bitsOf cb).length - 1, by rw [length_bitsOf]; unfold bytesFor at hcb; omega⟩
  obtain ⟨cur, dt', hins⟩ := insertCode_part ibuf obuf x k (ps.p + 2) more (bitsOf cb) es
    (entryBits ibuf _ _ cb hcode (List.prefix_refl _)) hap (bitsOf cb).length 0 0 ps.dt paths hdt
    (by simpa using hdt.root) (by omega) (by omega)
  have hbit : readBit ibuf (ps.p + 2) (bitsOf cb).length = .error (.refused (.ibufUnwritten (ps.p + 2 + cb.length))) := by
    rw [readBit, length_bitsOf, Nat.mul_div_cancel_left _ (by decide), readByte_none _ _ hnone]
  rw [parseEntry, if_neg (by omega)]
  simp only [readByte, hb0, hb1]
  rw [if_neg hl0, if_neg (by simpa [hseen] using hnew), if_neg (by omega), hmore]
  rw [show (0 : Handle) = BitVec.ofNat 9 0 from rfl, hins, insertCode, hbit]

theorem tableFits_prefix {es fs : List (Symbol × Code)} (h : tableFits (es ++ fs)) : tableFits es := by
  refine ⟨fun e he => h.lens e (by simp [he]), ?_, ?_, ?_⟩
  · have := h.syms
    rw [List.map_append, List.nodup_append] at this
    exact this.1
  · have := h.codes
    rw [List.pairwise_append] at this
    exact this.1
  · refine Nat.le_trans ?_ h.nodes
    unfold dtNeed
    rw [← List.toFinset_card_of_nodup (List.nodup_dedup _), ← List.toFinset_card_of_nodup (List.nodup_dedup _)]
    apply Finset.card_le_card
    intro q hq
    simp only [List.mem_toFinset, List.mem_dedup, List.mem_flatMap] at hq ⊢
    obtain ⟨e, he, hq⟩ := hq
    exact ⟨e, by simp [he], hq⟩

/-- Good entries are parsed one after another; the entries after them come next. -/
theorem parseEntries_good (ibuf obuf : Memory) (m : Nat) : ∀ (fs es : List (Symbol × Code)) (parts : List (List Byte))
    (k off : Nat) (ps : Parse), ParsedTo es off ps → tableFits (es ++ fs) → List.Forall₂ entryBytes fs parts →
    bytesAt ibuf off parts.flatten → off + parts.flatten.length ≤ m → ∃ ps',
      ParsedTo (es ++ fs) (off + parts.flatten.length) ps' ∧ ∀ cnt,
        parseEntries ibuf obuf m (fs.length + cnt) k ps = parseEntries ibuf obuf m cnt (k + fs.length) ps' := by
  intro fs
  induction fs with
  | nil =>
    intro es parts k off ps hp _ hf _ _
    cases hf
    exact ⟨ps, by simpa using hp, fun cnt => by simp⟩
  | cons f fs ih =>
    intro es parts k off ps hp hfit hf hb hm
    cases hf with
    | cons hf1 hf2 =>
      rename_i b parts
      simp only [List.flatten_cons, List.length_append] at hm ⊢
      rw [List.flatten_cons] at hb
      obtain ⟨hb1, hb2⟩ := hb.append
      have hsplit : es ++ f :: fs = es ++ [f] ++ fs := by simp
      rw [hsplit] at hfit ⊢
      obtain ⟨ps1, h1, h2⟩ := parseEntry_good ibuf obuf m k ps es f b off hp (tableFits_prefix hfit) hf1 hb1 (by omega)
      obtain ⟨ps2, h3, h4⟩ := ih (es ++ [f]) parts (k + 1) (off + b.length) ps1 h2 hfit hf2 hb2 (by omega)
      refine ⟨ps2, by rw [← Nat.add_assoc]; exact h3, fun cnt => ?_⟩
      rw [show (f :: fs).length + cnt = fs.length + cnt + 1 by simp; omega, parseEntries, h1]
      show parseEntries ibuf obuf m (fs.length + cnt) (k + 1) ps1 = _
      rw [h4 cnt]
      congr 1
      simp
      omega

/-! ### The whole header of a good frame (R181) -/

theorem parseNsym_good (ibuf obuf : Memory) (m n : Nat) (h1 : 1 ≤ n) (h2 : n < 2 ^ 32) (hm : 4 ≤ m)
    (hb : bytesAt ibuf 0 (be32 n)) : parseNsym ibuf obuf m = .ok n := by
  have b0 := hb 0 (by simp)
  have b1 := hb 1 (by simp)
  have b2 := hb 2 (by simp)
  have b3 := hb 3 (by simp)
  simp only [be32, Nat.zero_add, List.getElem?_cons_zero, List.getElem?_cons_succ] at b0 b1 b2 b3
  rw [parseNsym, if_neg (by omega)]
  simp only [readByte, b0, b1, b2, b3]
  rw [beToNat32_be32 n h2, if_neg (by omega)]

theorem parseNdist_good (ibuf obuf : Memory) (m l : Nat) (h1 : 1 ≤ l) (h2 : l ≤ 256) (hm : 6 ≤ m)
    (hb : bytesAt ibuf 4 (be16 l)) : parseNdist ibuf obuf m = .ok l := by
  have b0 := hb 0 (by simp)
  have b1 := hb 1 (by simp)
  simp only [be16, Nat.add_zero, List.getElem?_cons_zero, List.getElem?_cons_succ, Nat.reduceAdd] at b0 b1
  rw [parseNdist, if_neg (by omega)]
  simp only [readByte, b0, b1]
  rw [beToNat16_be16 l (by omega), if_neg (by omega)]

/-- The header of a frame that begins with good entries: the entries after them come next. -/
theorem parseHeader_upTo (ibuf obuf : Memory) (m n l : Nat) (es : List (Symbol × Code)) (eb rest : List Byte)
    (hn1 : 1 ≤ n) (hn2 : n < 2 ^ 32) (hl1 : 1 ≤ l) (hl2 : l ≤ 256) (heb : entriesBytes es eb)
    (hb : bytesAt ibuf 0 (be32 n ++ be16 l ++ eb ++ rest)) (hm : 6 + eb.length ≤ m) (hfit : tableFits es)
    (hle : es.length ≤ l) :
    ∃ ps, ParsedTo es (6 + eb.length) ps ∧ bytesAt ibuf (6 + eb.length) rest ∧
      parseHeader ibuf obuf m =
        match parseEntries ibuf obuf m (l - es.length) es.length ps with
        | .error e => .error e
        | .ok ps' => .ok (n, ps') := by
  obtain ⟨parts, hparts, rfl⟩ := heb
  obtain ⟨c12, c4⟩ := hb.append
  obtain ⟨c12, c3⟩ := c12.append
  obtain ⟨c1, c2⟩ := c12.append
  simp only [List.length_append, length_be32, length_be16, Nat.zero_add, Nat.reduceAdd] at c2 c3 c4
  obtain ⟨ps, h1, h2⟩ := parseEntries_good ibuf obuf m es [] parts 0 6 parseStart parsedTo_start
    (by simpa using hfit) hparts c3 hm
  refine ⟨ps, by simpa using h1, c4, ?_⟩
  rw [parseHeader, parseNsym_good _ _ _ n hn1 hn2 (by omega) c1]
  simp only
  rw [parseNdist_good _ _ _ l hl1 hl2 (by omega) c2]
  simp only
  have := h2 (l - es.length)
  rw [show es.length + (l - es.length) = l by omega, Nat.zero_add] at this
  rw [this]
  all_goals (cases parseEntries ibuf obuf m (l - es.length) es.length ps <;> rfl)

/-- The header of a frame whose first entries are good: the entries after them come next, and the frame's other
bytes stand behind them. -/
theorem parseHeader_good (s : State) (obuf : Memory) (m : Imm) (n l : Nat) (es : List (Symbol × Code)) (rest : List Byte)
    (hf : frameInIbuf s m n l es rest) (hfit : tableFits es) (hle : es.length ≤ l) :
    ∃ off ps, ParsedTo es off ps ∧ off + rest.length = m.toNat ∧ bytesAt s.ibuf off rest ∧
      parseHeader s.ibuf obuf m.toNat =
        match parseEntries s.ibuf obuf m.toNat (l - es.length) es.length ps with
        | .error e => .error e
        | .ok ps' => .ok (n, ps') := by
  obtain ⟨_, hn1, hn2, hl1, hl2, eb, heb, hm, hb⟩ := hf
  simp only [List.length_append, length_be32, length_be16] at hm
  obtain ⟨ps, h1, h2, h3⟩ := parseHeader_upTo s.ibuf obuf m.toNat n l es eb rest hn1 hn2 hl1 hl2 heb
    (fun k hk => by rw [Nat.zero_add]; exact hb k hk) (by omega) hfit hle
  exact ⟨_, ps, h1, by omega, h2, h3⟩

/-- The same of a frame that breaks off at an unwritten byte (R36). -/
theorem parseHeader_breaksOff (s : State) (obuf : Memory) (m : Imm) (n l : Nat) (es : List (Symbol × Code))
    (got : List Byte) (a : Nat) (hf : frameBreaksOff s m n l es got a) (hfit : tableFits es) (hle : es.length ≤ l) :
    ∃ off ps, ParsedTo es off ps ∧ off + got.length = a ∧ bytesAt s.ibuf off got ∧
      parseHeader s.ibuf obuf m.toNat =
        match parseEntries s.ibuf obuf m.toNat (l - es.length) es.length ps with
        | .error e => .error e
        | .ok ps' => .ok (n, ps') := by
  obtain ⟨_, hn1, hn2, hl1, hl2, eb, heb, ha, ham, hb, _⟩ := hf
  simp only [List.length_append, length_be32, length_be16] at ha
  obtain ⟨ps, h1, h2, h3⟩ := parseHeader_upTo s.ibuf obuf m.toNat n l es eb got hn1 hn2 hl1 hl2 heb
    (fun k hk => by rw [Nat.zero_add]; exact hb k hk) (by omega) hfit hle
  exact ⟨_, ps, h1, by omega, h2, h3⟩

/-- The header of a good frame, whole. -/
theorem parseHeader_whole (s : State) (obuf : Memory) (m : Imm) (n : Nat) (es : List (Symbol × Code)) (rest : List Byte)
    (hf : frameInIbuf s m n es.length es rest) (hfit : tableFits es) :
    ∃ off ps, ParsedTo es off ps ∧ off + rest.length = m.toNat ∧ bytesAt s.ibuf off rest ∧
      parseHeader s.ibuf obuf m.toNat = .ok (n, ps) := by
  obtain ⟨off, ps, h1, h2, h3, h4⟩ := parseHeader_good s obuf m n es.length es rest hf hfit (Nat.le_refl _)
  refine ⟨off, ps, h1, h2, h3, ?_⟩
  rw [h4, Nat.sub_self]
  rfl

/-! ### The walk (R187) -/

section

variable {ibuf : Memory} {dt : List DtNode} {ps : List Code} {es : List (Symbol × Code)} {p n : Nat}

/-- The body bits from bit `bp` on are those of `r`. -/
def bitsAt (ibuf : Memory) (p bp : Nat) (r : Code) : Prop :=
  ∀ j, j < r.length → readBit ibuf p (bp + j) = .ok (r.getD j false)

theorem bitsAt.append {bp : Nat} {r q : Code} (h : bitsAt ibuf p bp (r ++ q)) :
    bitsAt ibuf p bp r ∧ bitsAt ibuf p (bp + r.length) q := by
  constructor
  · intro j hj
    rw [h j (by simp; omega)]
    simp [List.getD, List.getElem?_append_left hj]
  · intro j hj
    rw [Nat.add_assoc, h (r.length + j) (by simp; omega)]
    simp only [List.getD]
    rw [List.getElem?_append_right (by omega), Nat.add_sub_cancel_left]

theorem bitsAt_of_bytes (body : List Byte) (r : Code) (hb : bytesAt ibuf p body) (hr : r <+: bitsOf body) :
    bitsAt ibuf p 0 r := by
  intro j hj
  rw [Nat.zero_add]
  exact entryBits ibuf p r body hb hr j hj

/-- One bit that leads to a node which is no leaf. -/
theorem walk_inner (h : DtHolds dt ps es) (i : Nat) (q : Code) (b : Bool) (bp em rem : Nat) (obuf : Memory)
    (hi : ps[i]? = some q) (hin : q ++ [b] ∈ ps) (hno : ∀ x, (x, q ++ [b]) ∉ es)
    (hbit : readBit ibuf p bp = .ok b) (hem : em < n) :
    ∃ i' : Nat, ps[i']? = some (q ++ [b]) ∧
      walkLoop ibuf dt p n (rem + 1) { cur := BitVec.ofNat 9 i, bp := bp, em := em, obuf := obuf } =
        walkLoop ibuf dt p n rem { cur := BitVec.ofNat 9 i', bp := bp + 1, em := em, obuf := obuf } := by
  obtain ⟨i', hi', hlt⟩ := h.handle hin
  refine ⟨i', hi', ?_⟩
  have hc := h.child i i' q b hi hi'
  have hk := h.inner i' _ hi' hno
  rw [walkLoop, if_neg (by simpa using hem)]
  simp only [hbit, walkStep, hc, hk]
  rw [if_neg (handle_ne_null i' hlt), if_neg (by simp)]

/-- One bit that completes a code. -/
theorem walk_leaf (h : DtHolds dt ps es) (i : Nat) (q : Code) (b : Bool) (x : Symbol) (bp em rem : Nat) (obuf : Memory)
    (hi : ps[i]? = some q) (hin : q ++ [b] ∈ ps) (hx : (x, q ++ [b]) ∈ es)
    (hbit : readBit ibuf p bp = .ok b) (hem : em < n) :
    walkLoop ibuf dt p n (rem + 1) { cur := BitVec.ofNat 9 i, bp := bp, em := em, obuf := obuf } =
      walkLoop ibuf dt p n rem { cur := 0, bp := bp + 1, em := em + 1, obuf := memPut obuf em x } := by
  obtain ⟨i', hi', hlt⟩ := h.handle hin
  have hc := h.child i i' q b hi hi'
  obtain ⟨hk, hs⟩ := h.leaf i' _ x hi' hx
  rw [walkLoop, if_neg (by simpa using hem)]
  simp only [hbit, walkStep, hc, hk, hs]
  rw [if_neg (handle_ne_null i' hlt), if_pos trivial]

/-- One bit that leads out of the tree (R189). -/
theorem walk_out (h : DtHolds dt ps es) (i : Nat) (q : Code) (b : Bool) (bp em rem : Nat) (obuf : Memory)
    (hi : ps[i]? = some q) (hout : q ++ [b] ∉ ps) (hbit : readBit ibuf p bp = .ok b) (hem : em < n) :
    walkLoop ibuf dt p n (rem + 1) { cur := BitVec.ofNat 9 i, bp := bp, em := em, obuf := obuf } =
      .error (.raised (.walkInvalid bp) obuf) := by
  have hc := h.nochild i q b hi hout
  rw [walkLoop, if_neg (by simpa using hem)]
  simp only [hbit, walkStep, hc]
  rw [if_pos trivial]

/-- No bit is left while symbols are missing (R188). -/
theorem walk_end (w : Walk) (hem : w.em < n) : walkLoop ibuf dt p n 0 w = .error (.raised (.bodyTrunc w.em) w.obuf) := by
  rw [walkLoop, if_neg (by simpa using hem)]

/-- All symbols are out (R187: DONE). -/
theorem walk_done (rem : Nat) (w : Walk) (hem : n ≤ w.em) : walkLoop ibuf dt p n rem w = .ok w := by
  rw [walkLoop.eq_def]
  simp [hem]

/-- A part of a code that does not complete it. -/
theorem walk_part (h : DtHolds dt ps es) (hps : pathsOf ps es) (e : Symbol × Code) (he : e ∈ es)
    (hap : ∀ f ∈ es, f.2 <+: e.2 → f.2 = e.2) : ∀ (r q : Code) (i bp em rem : Nat) (obuf : Memory),
    ps[i]? = some q → q ++ r <+: e.2 → q ++ r ≠ e.2 → bitsAt ibuf p bp r → em < n →
    ∃ i' : Nat, ps[i']? = some (q ++ r) ∧
      walkLoop ibuf dt p n (rem + r.length) { cur := BitVec.ofNat 9 i, bp := bp, em := em, obuf := obuf } =
        walkLoop ibuf dt p n rem { cur := BitVec.ofNat 9 i', bp := bp + r.length, em := em, obuf := obuf } := by
  intro r
  induction r with
  | nil =>
    intro q i bp em rem obuf hi _ _ _ _
    exact ⟨i, by simpa using hi, rfl⟩
  | cons b r ih =>
    intro q i bp em rem obuf hi hpre hne hbits hem
    have hassoc : q ++ b :: r = q ++ [b] ++ r := by simp
    rw [hassoc] at hpre hne ⊢
    have hp1 : q ++ [b] <+: e.2 := (List.prefix_append _ r).trans hpre
    have hno : ∀ x, (x, q ++ [b]) ∉ es := by
      intro x hx
      have heq : q ++ [b] = e.2 := hap _ hx hp1
      rw [← heq] at hpre
      have := hpre.length_le
      simp only [List.length_append, List.length_cons, List.length_nil] at this
      have hr : r = [] := List.length_eq_zero_iff.mp (by omega)
      exact hne (by rw [hr, List.append_nil, heq])
    have hbit : readBit ibuf p bp = .ok b := by simpa using hbits 0 (by simp)
    have hrest : bitsAt ibuf p (bp + 1) r := (bitsAt.append (r := [b]) (q := r) hbits).2
    obtain ⟨i1, h1, h2⟩ := walk_inner (ibuf := ibuf) (p := p) (n := n) h i q b bp em (rem + r.length) obuf hi
      ((hps _).mpr (.inr ⟨e, he, hp1⟩)) hno hbit hem
    obtain ⟨i2, h3, h4⟩ := ih (q ++ [b]) i1 (bp + 1) em rem obuf h1 hpre hne hrest hem
    refine ⟨i2, h3, ?_⟩
    rw [List.length_cons, ← Nat.add_assoc, h2, h4]
    congr 2
    omega

/-- A whole code from the root: its symbol is emitted (R187). -/
theorem walk_code (h : DtHolds dt ps es) (hps : pathsOf ps es) (x : Symbol) (d : Code) (hx : (x, d) ∈ es) (hd : d ≠ [])
    (hap : ∀ f ∈ es, f.2 <+: d → f.2 = d) (bp em rem : Nat) (obuf : Memory)
    (hbits : bitsAt ibuf p bp d) (hem : em < n) :
    walkLoop ibuf dt p n (rem + d.length) { cur := 0, bp := bp, em := em, obuf := obuf } =
      walkLoop ibuf dt p n rem { cur := 0, bp := bp + d.length, em := em + 1, obuf := memPut obuf em x } := by
  obtain ⟨r, b, rfl⟩ : ∃ r b, d = r ++ [b] := ⟨d.dropLast, d.getLast hd, (List.dropLast_append_getLast hd).symm⟩
  obtain ⟨hb1, hb2⟩ := hbits.append
  obtain ⟨i, h1, h2⟩ := walk_part (ibuf := ibuf) (p := p) (n := n) h hps (x, r ++ [b]) hx hap r [] 0 bp em (rem + 1) obuf
    h.root (by simp) (by simp) hb1 hem
  rw [List.nil_append] at h1
  have hbit : readBit ibuf p (bp + r.length) = .ok b := by simpa using hb2 0 (by simp)
  have h0 : (BitVec.ofNat 9 0 : Handle) = 0 := rfl
  rw [h0] at h2
  rw [List.length_append, List.length_singleton, show rem + (r.length + 1) = rem + 1 + r.length by omega, h2,
    walk_leaf h i r b x _ em rem obuf h1 ((hps _).mpr (.inr ⟨_, hx, List.prefix_refl _⟩)) hx hbit hem]
  congr 1

/-- The codes of a symbol sequence from the root: its symbols are emitted in order (R187). -/
theorem walk_codes (h : DtHolds dt ps es) (hps : pathsOf ps es) (hd : ∀ f ∈ es, f.2 ≠ [])
    (hap : ∀ e ∈ es, ∀ f ∈ es, f.2 <+: e.2 → f.2 = e.2) : ∀ (xs : List Symbol) (bits : Code) (bp em rem : Nat)
    (obuf : Memory), codesUnder es xs bits → bitsAt ibuf p bp bits → em + xs.length ≤ n →
    walkLoop ibuf dt p n (rem + bits.length) { cur := 0, bp := bp, em := em, obuf := obuf } =
      walkLoop ibuf dt p n rem
        { cur := 0, bp := bp + bits.length, em := em + xs.length, obuf := memWrite obuf em xs } := by
  intro xs
  induction xs with
  | nil =>
    intro bits bp em rem obuf hc _ _
    have hb0 : bits = [] := hc
    subst hb0
    rfl
  | cons x xs ih =>
    intro bits bp em rem obuf hc hbits hle
    obtain ⟨d, r, h1, rfl, h2⟩ := hc
    simp only [List.length_cons] at hle
    obtain ⟨hb1, hb2⟩ := hbits.append
    rw [List.length_append, show rem + (d.length + r.length) = rem + r.length + d.length by omega,
      walk_code h hps x d h1 (hd _ h1) (hap _ h1) bp em (rem + r.length) obuf hb1 (by omega),
      ih r (bp + d.length) (em + 1) rem _ h2 hb2 (by omega)]
    simp only [List.length_cons, memWrite]
    congr 2 <;> omega

end

/-- Codes of which none is a prefix of another: a code that is a prefix of one of them is that one. -/
theorem tableFits.same {es : List (Symbol × Code)} (h : tableFits es) :
    ∀ e ∈ es, ∀ f ∈ es, f.2 <+: e.2 → f = e := by
  intro e he f hf hp
  by_contra hne
  have : Std.Symm (fun a b : Symbol × Code => apart a.2 b.2) := ⟨fun a b hab => ⟨hab.2, hab.1⟩⟩
  exact (h.codes.forall hf he hne).1 hp

end Sys2Proof.Machine
end

