-- ==== Sys2Proof/Laws/Encoder.lean ====
section
/-! SUPPORT. What ENCODE's loops do (43_bit_encoder.md): the packing state as a function of the bits
appended so far. -/

namespace Sys2Proof.Machine

open Sys2Proof

/-- A packed byte looks at eight bits only. -/
theorem packByte_append (d e : Code) (h : 8 ≤ d.length) : packByte (d ++ e) = packByte d := by
  unfold packByte
  congr 2
  apply List.map_congr_left
  intro j hj
  have hj8 : j < 8 := by simpa using hj
  simp [List.getElem?_append_left (show j < d.length by omega)]

/-- The packing state once the bits `d` have been appended and their first `q` bytes written, the body
starting at OBUF address `base` and OBUF having held `obuf0`. -/
structure PackedTo (base : Nat) (obuf0 : Memory) (d : Code) (q : Nat) (ps : PackState) : Prop where
  acc : ps.acc = d.drop (8 * q)
  wp : ps.wp = base + q
  total : ps.total = d.length
  bytes : ∀ a, memGet ps.obuf a =
    if base ≤ a ∧ a < base + q then some (packByte (d.drop (8 * (a - base)))) else memGet obuf0 a

variable {base q size : Nat} {obuf0 : Memory} {d : Code} {ps : PackState}

/-- The state before the first symbol. -/
theorem PackedTo.start (base : Nat) (obuf0 : Memory) :
    PackedTo base obuf0 [] 0 { acc := [], wp := base, total := 0, obuf := obuf0 } := by
  refine ⟨rfl, rfl, rfl, fun a => ?_⟩
  rw [if_neg (by omega)]

/-- Writing the next byte, with room for it. -/
theorem putBodyByte_ok (h : PackedTo base obuf0 d q ps) (hq : base + q < size) :
    ∃ ps', putBodyByte size ps = .ok ps' ∧ PackedTo base obuf0 d (q + 1) ps' := by
  refine ⟨{ ps with acc := ps.acc.drop 8, wp := ps.wp + 1, obuf := memPut ps.obuf ps.wp (packByte ps.acc) },
    by rw [putBodyByte, if_neg (by rw [h.wp]; omega)], ?_, ?_, h.total, fun a => ?_⟩
  · simp [h.acc, List.drop_drop, Nat.mul_add]
  · simp [h.wp, Nat.add_assoc]
  · simp only [memGet_memPut, h.bytes, h.wp, h.acc]
    by_cases h1 : base + q = a
    · subst h1
      rw [if_pos rfl, if_pos (by omega), Nat.add_sub_cancel_left]
    · rw [if_neg h1]
      by_cases h2 : base ≤ a ∧ a < base + q
      · rw [if_pos h2, if_pos (by omega)]
      · rw [if_neg h2, if_neg (by omega)]

/-- Writing the next byte, without room (R165). -/
theorem putBodyByte_full (h : PackedTo base obuf0 d q ps) (hq : size ≤ base + q) :
    putBodyByte size ps = .error (.raised .dstOverflow ps.obuf) := by
  rw [putBodyByte, if_pos (by rw [h.wp]; exact hq)]

/-- Writing k bytes, with room for them. -/
theorem flushBytes_ok (k : Nat) (h : PackedTo base obuf0 d q ps) (hq : base + q + k ≤ size) :
    ∃ ps', flushBytes size k ps = .ok ps' ∧ PackedTo base obuf0 d (q + k) ps' := by
  induction k generalizing q ps with
  | zero => exact ⟨ps, rfl, h⟩
  | succ k ih =>
    obtain ⟨ps1, h1, h2⟩ := putBodyByte_ok (size := size) h (by omega)
    obtain ⟨ps', h3, h4⟩ := ih h2 (by omega)
    refine ⟨ps', by simp [flushBytes, h1, h3], ?_⟩
    rwa [show q + (k + 1) = q + 1 + k by omega]

/-- Writing k bytes, without room for them all: DST_OVERFLOW, nothing written at or above the size. -/
theorem flushBytes_full (k : Nat) (h : PackedTo base obuf0 d q ps) (hb : base + q ≤ size)
    (hq : size < base + q + k) :
    ∃ q' ps', flushBytes size k ps = .error (.raised .dstOverflow ps'.obuf) ∧
      PackedTo base obuf0 d q' ps' ∧ base + q' ≤ size := by
  induction k generalizing q ps with
  | zero => omega
  | succ k ih =>
    by_cases h0 : size ≤ base + q
    · exact ⟨q, ps, by simp [flushBytes, putBodyByte_full h h0], h, hb⟩
    · obtain ⟨ps1, h1, h2⟩ := putBodyByte_ok (size := size) h (by omega)
      obtain ⟨q', ps', h3, h4⟩ := ih h2 (by omega) (by omega)
      exact ⟨q', ps', by simp [flushBytes, h1, h3], h4⟩

/-- Appending a code before any of its bytes is written. -/
theorem PackedTo.append (h : PackedTo base obuf0 d q ps) (hq : 8 * q ≤ d.length) (e : Code) :
    PackedTo base obuf0 (d ++ e) q { ps with acc := ps.acc ++ e, total := ps.total + e.length } := by
  refine ⟨?_, h.wp, ?_, fun a => ?_⟩
  · simp [h.acc, List.drop_append_of_le_length hq]
  · simp [h.total]
  · rw [h.bytes a]
    by_cases h1 : base ≤ a ∧ a < base + q
    · rw [if_pos h1, if_pos h1, List.drop_append_of_le_length (by omega), packByte_append]
      simp
      omega
    · rw [if_neg h1, if_neg h1]

/-- One symbol's code, with room for its whole bytes (R162). -/
theorem appendCode_ok (e : Code) (h : PackedTo base obuf0 d (d.length / 8) ps)
    (hq : base + (d ++ e).length / 8 ≤ size) :
    ∃ ps', appendCode size e ps = .ok ps' ∧ PackedTo base obuf0 (d ++ e) ((d ++ e).length / 8) ps' := by
  have hlen : (ps.acc ++ e).length / 8 + d.length / 8 = (d ++ e).length / 8 := by
    simp [h.acc]
    omega
  obtain ⟨ps', h1, h2⟩ := flushBytes_ok (size := size) ((ps.acc ++ e).length / 8)
    (h.append (by omega) e) (by omega)
  refine ⟨ps', h1, ?_⟩
  rwa [Nat.add_comm, hlen] at h2

/-- One symbol's code, without room for its whole bytes (R165). -/
theorem appendCode_full (e : Code) (h : PackedTo base obuf0 d (d.length / 8) ps)
    (hb : base + d.length / 8 ≤ size) (hq : size < base + (d ++ e).length / 8) :
    ∃ q' ps' d', appendCode size e ps = .error (.raised .dstOverflow ps'.obuf) ∧
      PackedTo base obuf0 d' q' ps' ∧ base + q' ≤ size := by
  have hlen : (ps.acc ++ e).length / 8 + d.length / 8 = (d ++ e).length / 8 := by
    simp [h.acc]
    omega
  obtain ⟨q', ps', h1, h2⟩ := flushBytes_full (size := size) ((ps.acc ++ e).length / 8)
    (h.append (by omega) e) hb (by omega)
  exact ⟨q', ps', _, h1, h2⟩

variable {ct : Tab Code} {ibuf : Memory}

/-- The body loop over symbols that all have a code, with room for their whole bytes: the `k` symbols after them come
next. -/
theorem encodeLoop_prefix (xs : List Symbol) (i k : Nat) (h : PackedTo base obuf0 d (d.length / 8) ps)
    (hx : ∀ j, j < xs.length → memGet ibuf (i + j) = xs[j]?) (hc : ∀ x ∈ xs, ctAt ct x ≠ [])
    (hq : base + (d ++ bodyBits ct xs).length / 8 ≤ size) :
    ∃ ps', encodeLoop ct ibuf size (xs.length + k) i ps = encodeLoop ct ibuf size k (i + xs.length) ps' ∧
      PackedTo base obuf0 (d ++ bodyBits ct xs) ((d ++ bodyBits ct xs).length / 8) ps' := by
  induction xs generalizing i d ps with
  | nil => exact ⟨ps, by simp, by simpa [bodyBits] using h⟩
  | cons x xs ih =>
    have h0 : readByte ibuf i = .ok x := by
      rw [readByte_ok]
      simpa using hx 0 (by simp)
    have hne : ctAt ct x ≠ [] := hc x (by simp)
    have hbits : d ++ bodyBits ct (x :: xs) = (d ++ ctAt ct x) ++ bodyBits ct xs := by
      simp [bodyBits]
    rw [hbits] at hq ⊢
    obtain ⟨ps1, h1, h2⟩ := appendCode_ok (size := size) (ctAt ct x) h (by
      simp only [List.length_append] at hq ⊢
      omega)
    obtain ⟨ps', h3, h4⟩ := ih (i + 1) h2 (fun j hj => by
      have := hx (j + 1) (by simpa using hj)
      simpa [Nat.add_assoc, Nat.add_comm 1 j] using this) (fun y hy => hc y (by simp [hy])) hq
    refine ⟨ps', ?_, h4⟩
    rw [show (x :: xs).length + k = xs.length + k + 1 by simp; omega, encodeLoop, h0]
    simp only [hne, if_false, h1, h3, List.length_cons]
    rw [show i + 1 + xs.length = i + (xs.length + 1) by omega]

/-- The body loop over symbols that all have a code, with room for their whole bytes. -/
theorem encodeLoop_ok (xs : List Symbol) (i : Nat) (h : PackedTo base obuf0 d (d.length / 8) ps)
    (hx : ∀ j, j < xs.length → memGet ibuf (i + j) = xs[j]?) (hc : ∀ x ∈ xs, ctAt ct x ≠ [])
    (hq : base + (d ++ bodyBits ct xs).length / 8 ≤ size) :
    ∃ ps', encodeLoop ct ibuf size xs.length i ps = .ok ps' ∧
      PackedTo base obuf0 (d ++ bodyBits ct xs) ((d ++ bodyBits ct xs).length / 8) ps' :=
  encodeLoop_prefix xs i 0 h hx hc hq

/-- The body loop reaches its first symbol without a code with room for the whole bytes before it (R164). -/
theorem encodeLoop_noCode (xs : List Symbol) (x : Symbol) (i k : Nat)
    (h : PackedTo base obuf0 d (d.length / 8) ps)
    (hx : ∀ j, j < xs.length + 1 → memGet ibuf (i + j) = (xs ++ [x])[j]?) (hc : ∀ y ∈ xs, ctAt ct y ≠ [])
    (hn : ctAt ct x = []) (hk : xs.length < k) (hq : base + (d ++ bodyBits ct xs).length / 8 ≤ size) :
    ∃ ps', encodeLoop ct ibuf size k i ps = .error (.raised (.noCode (i + xs.length)) ps'.obuf) ∧
      PackedTo base obuf0 (d ++ bodyBits ct xs) ((d ++ bodyBits ct xs).length / 8) ps' := by
  obtain ⟨k, rfl⟩ : ∃ k', k = xs.length + (k' + 1) := ⟨k - xs.length - 1, by omega⟩
  obtain ⟨ps', h1, h2⟩ := encodeLoop_prefix xs i (k + 1) h
    (fun j hj => by rw [hx j (by omega), List.getElem?_append_left hj]) hc hq
  have h0 : readByte ibuf (i + xs.length) = .ok x := by
    rw [readByte_ok, hx xs.length (by omega)]
    simp
  exact ⟨ps', by rw [h1]; simp [encodeLoop, h0, hn], h2⟩

/-- The body loop reaches a byte that is not written, with room for the whole bytes before it (R36). -/
theorem encodeLoop_unwritten (xs : List Symbol) (i k : Nat) (h : PackedTo base obuf0 d (d.length / 8) ps)
    (hx : ∀ j, j < xs.length → memGet ibuf (i + j) = xs[j]?) (hc : ∀ y ∈ xs, ctAt ct y ≠ [])
    (hk : xs.length < k) (hq : base + (d ++ bodyBits ct xs).length / 8 ≤ size)
    (hnone : memGet ibuf (i + xs.length) = none) :
    encodeLoop ct ibuf size k i ps = .error (.refused (.ibufUnwritten (i + xs.length))) := by
  obtain ⟨k, rfl⟩ : ∃ k', k = xs.length + (k' + 1) := ⟨k - xs.length - 1, by omega⟩
  obtain ⟨ps', h1, _⟩ := encodeLoop_prefix xs i (k + 1) h hx hc hq
  rw [h1, encodeLoop, readByte_none _ _ hnone]

/-- The body loop outgrows OBUF over symbols that all have a code (R165). -/
theorem encodeLoop_full (xs : List Symbol) (i k : Nat) (h : PackedTo base obuf0 d (d.length / 8) ps)
    (hb : base + d.length / 8 ≤ size)
    (hx : ∀ j, j < xs.length → memGet ibuf (i + j) = xs[j]?) (hc : ∀ y ∈ xs, ctAt ct y ≠ [])
    (hk : xs.length ≤ k) (hq : size < base + (d ++ bodyBits ct xs).length / 8) :
    ∃ q' ps' d', encodeLoop ct ibuf size k i ps = .error (.raised .dstOverflow ps'.obuf) ∧
      PackedTo base obuf0 d' q' ps' ∧ base + q' ≤ size := by
  induction xs generalizing i k d ps with
  | nil =>
    simp only [bodyBits, List.flatMap_nil, List.append_nil] at hq
    omega
  | cons y xs ih =>
    have h0 : readByte ibuf i = .ok y := by
      rw [readByte_ok]
      simpa using hx 0 (by simp)
    have hne : ctAt ct y ≠ [] := hc y (by simp)
    have hbits : d ++ bodyBits ct (y :: xs) = (d ++ ctAt ct y) ++ bodyBits ct xs := by
      simp [bodyBits]
    rw [hbits] at hq
    obtain ⟨k, rfl⟩ : ∃ k', k = k' + 1 := ⟨k - 1, by simp at hk; omega⟩
    by_cases hfit : base + (d ++ ctAt ct y).length / 8 ≤ size
    · obtain ⟨ps1, h1, h2⟩ := appendCode_ok (size := size) (ctAt ct y) h hfit
      obtain ⟨q', ps', d', h3, h4⟩ := ih (i + 1) k h2 hfit (fun j hj => by
        have := hx (j + 1) (by simpa using hj)
        simpa [Nat.add_assoc, Nat.add_comm 1 j] using this) (fun z hz => hc z (by simp [hz]))
        (by simpa using hk) hq
      exact ⟨q', ps', d', by simp [encodeLoop, h0, hne, h1, h3], h4⟩
    · obtain ⟨q', ps', d', h1, h2⟩ := appendCode_full (size := size) (ctAt ct y) h hb (by omega)
      exact ⟨q', ps', d', by simp [encodeLoop, h0, hne, h1], h2⟩

/-- However the body loop ends, OBUF below the base and at or above the size is as it was, unless a read was
refused. -/
theorem encodeLoop_obuf (k i : Nat) (h : PackedTo base obuf0 d (d.length / 8) ps)
    (hb : base + d.length / 8 ≤ size) :
    (∃ a, i ≤ a ∧ a < i + k ∧ memGet ibuf a = none ∧
      encodeLoop ct ibuf size k i ps = .error (.refused (.ibufUnwritten a))) ∨
    (∃ c q' ps' d', encodeLoop ct ibuf size k i ps = .error (.raised c ps'.obuf) ∧
      PackedTo base obuf0 d' q' ps' ∧ base + q' ≤ size) ∨
    (∃ ps' d', encodeLoop ct ibuf size k i ps = .ok ps' ∧ PackedTo base obuf0 d' (d'.length / 8) ps' ∧
      base + d'.length / 8 ≤ size) := by
  induction k generalizing i d ps with
  | zero => exact .inr (.inr ⟨ps, d, rfl, h, hb⟩)
  | succ k ih =>
    cases hr : readByte ibuf i with
    | error e =>
      obtain ⟨h1, rfl⟩ := readByte_error ibuf i e hr
      exact .inl ⟨i, by omega, by omega, h1, by simp [encodeLoop, hr]⟩
    | ok x =>
      by_cases hn : ctAt ct x = []
      · exact .inr (.inl ⟨.noCode i, _, ps, d, by simp [encodeLoop, hr, hn], h, hb⟩)
      · by_cases hfit : base + (d ++ ctAt ct x).length / 8 ≤ size
        · obtain ⟨ps1, h1, h2⟩ := appendCode_ok (size := size) (ctAt ct x) h hfit
          have heq : encodeLoop ct ibuf size (k + 1) i ps = encodeLoop ct ibuf size k (i + 1) ps1 := by
            simp [encodeLoop, hr, hn, h1]
          rw [heq]
          rcases ih (i + 1) h2 hfit with ⟨a, ha1, ha2, ha3⟩ | h3 | h3
          · exact .inl ⟨a, by omega, by omega, ha3⟩
          · exact .inr (.inl h3)
          · exact .inr (.inr h3)
        · obtain ⟨q', ps', d', h1, h2⟩ := appendCode_full (size := size) (ctAt ct x) h hb (by omega)
          exact .inr (.inl ⟨.dstOverflow, q', ps', d', by simp [encodeLoop, hr, hn, h1], h2⟩)

/-- The last, partial byte, with room for it (R163). -/
theorem flushLast_ok (h : PackedTo base obuf0 d (d.length / 8) ps) (hq : base + bytesFor d.length ≤ size) :
    ∃ ps', flushLast size ps = .ok ps' ∧ ps'.wp = base + bytesFor d.length ∧ ps'.total = d.length ∧
      ∀ a, memGet ps'.obuf a =
        if base ≤ a ∧ a < base + bytesFor d.length then (pack d)[a - base]? else memGet obuf0 a := by
  have key : ∀ {q' : Nat} {ps' : PackState}, q' = bytesFor d.length → PackedTo base obuf0 d q' ps' →
      ps'.wp = base + bytesFor d.length ∧ ps'.total = d.length ∧ ∀ a, memGet ps'.obuf a =
        if base ≤ a ∧ a < base + bytesFor d.length then (pack d)[a - base]? else memGet obuf0 a := by
    intro q' ps' hq' h'
    subst hq'
    refine ⟨h'.wp, h'.total, fun a => ?_⟩
    rw [h'.bytes a]
    by_cases h1 : base ≤ a ∧ a < base + bytesFor d.length
    · rw [if_pos h1, if_pos h1, getElem?_pack d _ (by omega)]
    · rw [if_neg h1, if_neg h1]
  have hacc : ps.acc = [] ↔ d.length % 8 = 0 := by
    rw [h.acc, List.drop_eq_nil_iff]
    omega
  by_cases h0 : ps.acc = []
  · have h8 := hacc.mp h0
    exact ⟨ps, by simp [flushLast, h0], key (by unfold bytesFor; omega) h⟩
  · have h8 : d.length % 8 ≠ 0 := fun hc => h0 (hacc.mpr hc)
    have hb8 : bytesFor d.length = d.length / 8 + 1 := by unfold bytesFor; omega
    obtain ⟨ps', h1, h2⟩ := putBodyByte_ok (size := size) h (by omega)
    exact ⟨ps', by simp [flushLast, h0, h1], key hb8.symm h2⟩

/-- The last, partial byte, without room for it (R165). -/
theorem flushLast_full (h : PackedTo base obuf0 d (d.length / 8) ps) (hb : base + d.length / 8 ≤ size)
    (hq : size < base + bytesFor d.length) :
    flushLast size ps = .error (.raised .dstOverflow ps.obuf) := by
  have h0 : ps.acc ≠ [] := by
    rw [h.acc, ne_eq, List.drop_eq_nil_iff]
    unfold bytesFor at hq
    omega
  simp [flushLast, h0, putBodyByte_full h (show size ≤ base + d.length / 8 by unfold bytesFor at hq; omega)]

/-- A frame that fits, over symbols that all have a code (R162, R163): OBUF holds the frame and is otherwise as
it was. -/
theorem writeFrame_ok (xs : List Symbol) (n : Nat) (hn : n = xs.length)
    (hx : ∀ j, j < xs.length → memGet ibuf j = xs[j]?) (hc : ∀ x ∈ xs, ctAt ct x ≠ [])
    (hq : (header n ct ++ pack (bodyBits ct xs)).length ≤ size) :
    ∃ ps, writeFrame ct ibuf size n obuf0 = .ok ps ∧
      ps.wp = (header n ct ++ pack (bodyBits ct xs)).length ∧ ps.total = (bodyBits ct xs).length ∧
      ∀ a, memGet ps.obuf a = if a < ps.wp then (header n ct ++ pack (bodyBits ct xs))[a]? else memGet obuf0 a := by
  subst hn
  simp only [List.length_append, length_pack] at hq
  obtain ⟨ps1, h1, h2⟩ := encodeLoop_ok (ct := ct) (ibuf := ibuf) (size := size) xs 0
    (PackedTo.start (header xs.length ct).length (memWrite obuf0 0 (header xs.length ct)))
    (by simpa using hx) hc (by simp only [List.nil_append]; unfold bytesFor at hq; omega)
  simp only [List.nil_append] at h2
  obtain ⟨ps2, h3, h4, h5, h6⟩ := flushLast_ok (size := size) h2 hq
  refine ⟨ps2, ?_, by simpa using h4, h5, fun a => ?_⟩
  · rw [writeFrame]
    rw [if_neg (by omega), h1]
    exact h3
  · rw [h6 a, h4, memGet_memWrite]
    by_cases ha : a < (header xs.length ct).length
    · rw [if_neg (by omega), if_pos (by omega), if_pos (by omega), List.getElem?_append_left ha]
      simp
    · by_cases hb : a < (header xs.length ct).length + bytesFor (bodyBits ct xs).length
      · rw [if_pos (by omega), if_pos hb, List.getElem?_append_right (by omega)]
      · rw [if_neg (by omega), if_neg (by omega), if_neg hb]

/-- However the frame ends, OBUF at or above the size is as it was, unless a read was refused at an unwritten
byte below n. -/
theorem writeFrame_obuf (n : Nat) :
    (∃ a, a < n ∧ memGet ibuf a = none ∧ writeFrame ct ibuf size n obuf0 = .error (.refused (.ibufUnwritten a))) ∨
    (∃ c obuf, writeFrame ct ibuf size n obuf0 = .error (.raised c obuf) ∧
      ∀ a, size ≤ a → memGet obuf a = memGet obuf0 a) ∨
    (∃ ps, writeFrame ct ibuf size n obuf0 = .ok ps ∧ ps.wp ≤ size ∧
      (∀ a, size ≤ a → memGet ps.obuf a = memGet obuf0 a) ∧
      ∀ a, a < ps.wp → (memGet ps.obuf a).isSome) := by
  by_cases hh : size < (header n ct).length
  · exact .inr (.inl ⟨.dstOverflow, obuf0, by simp [writeFrame, hh], fun _ _ => rfl⟩)
  · have hw : ∀ a, size ≤ a → memGet (memWrite obuf0 0 (header n ct)) a = memGet obuf0 a := by
      intro a ha
      rw [memGet_memWrite, if_neg (by omega)]
    have hin : ∀ a, a < (header n ct).length → (memGet (memWrite obuf0 0 (header n ct)) a).isSome := by
      intro a ha
      rw [memGet_memWrite, if_pos (by omega)]
      simp [ha]
    rcases encodeLoop_obuf (ct := ct) (ibuf := ibuf) (size := size) n 0
      (PackedTo.start (header n ct).length (memWrite obuf0 0 (header n ct))) (by simp; omega) with
      ⟨a, _, h2, h3, h4⟩ | ⟨e, q', ps', d', h1, h2, h3⟩ | ⟨ps', d', h1, h2, h3⟩
    · exact .inl ⟨a, by omega, h3, by simp [writeFrame, hh, h4]⟩
    · refine .inr (.inl ⟨e, ps'.obuf, by simp [writeFrame, hh, h1], fun a ha => ?_⟩)
      rw [h2.bytes, if_neg (by omega), hw a ha]
    · by_cases hl : (header n ct).length + bytesFor d'.length ≤ size
      · obtain ⟨ps2, h4, h5, h6, h7⟩ := flushLast_ok (size := size) h2 hl
        refine .inr (.inr ⟨ps2, by simp [writeFrame, hh, h1, h4], by omega, fun a ha => ?_, fun a ha => ?_⟩)
        · rw [h7, if_neg (by omega), hw a ha]
        · rw [h7]
          by_cases hb : (header n ct).length ≤ a ∧ a < (header n ct).length + bytesFor d'.length
          · rw [if_pos hb, getElem?_pack d' _ (by omega)]
            rfl
          · rw [if_neg hb]
            exact hin a (by omega)
      · refine .inr (.inl ⟨.dstOverflow, ps'.obuf, ?_, fun a ha => ?_⟩)
        · simp [writeFrame, hh, h1, flushLast_full (size := size) h2 h3 (by omega)]
        · rw [h2.bytes, if_neg (by omega), hw a ha]

/-- Whatever every write of OBUF below the size keeps, and that holds before the frame, holds of OBUF however the
frame ends. -/
theorem writeFrame_keeps (ct : Tab Code) (ibuf obuf0 : Memory) (size n : Nat) (P : Memory → Prop) (h0 : P obuf0)
    (hput : ∀ a v obuf, a < size → P obuf → P (memPut obuf a v)) :
    (∀ c obuf, writeFrame ct ibuf size n obuf0 = .error (.raised c obuf) → P obuf) ∧
    (∀ ps, writeFrame ct ibuf size n obuf0 = .ok ps → P ps.obuf) := by
  have hwr : ∀ (bs : List Byte) (a : Nat) (m : Memory), a + bs.length ≤ size → P m → P (memWrite m a bs) := by
    intro bs
    induction bs with
    | nil => intro a m _ h; exact h
    | cons b bs ih =>
      intro a m ha h
      simp only [List.length_cons] at ha
      exact ih _ _ (by omega) (hput _ _ _ (by omega) h)
  have hb : ∀ ps : PackState, P ps.obuf → (∀ c obuf, putBodyByte size ps = .error (.raised c obuf) → P obuf) ∧
      (∀ ps1, putBodyByte size ps = .ok ps1 → P ps1.obuf) := by
    intro ps h
    unfold putBodyByte
    split
    · exact ⟨fun c ob he => (by cases he; exact h), fun ps1 he => by cases he⟩
    · exact ⟨fun c ob he => (by cases he), fun ps1 he => by cases he; exact hput _ _ _ (by omega) h⟩
  have hf : ∀ (k : Nat) (ps : PackState), P ps.obuf →
      (∀ c obuf, flushBytes size k ps = .error (.raised c obuf) → P obuf) ∧
      (∀ ps1, flushBytes size k ps = .ok ps1 → P ps1.obuf) := by
    intro k
    induction k with
    | zero => intro ps h; exact ⟨fun c ob he => (by cases he), fun ps1 he => by cases he; exact h⟩
    | succ k ih =>
      intro ps h
      unfold flushBytes
      split
      · rename_i e he
        exact ⟨fun c ob h' => (by cases h'; exact (hb ps h).1 _ _ he), fun ps1 h' => by cases h'⟩
      · rename_i ps2 h2
        exact ih ps2 ((hb ps h).2 _ h2)
  have ha : ∀ (c : Code) (ps : PackState), P ps.obuf →
      (∀ e obuf, appendCode size c ps = .error (.raised e obuf) → P obuf) ∧
      (∀ ps1, appendCode size c ps = .ok ps1 → P ps1.obuf) :=
    fun c ps h => hf _ { ps with acc := ps.acc ++ c, total := ps.total + c.length } h
  have hl : ∀ (k i : Nat) (ps : PackState), P ps.obuf →
      (∀ c obuf, encodeLoop ct ibuf size k i ps = .error (.raised c obuf) → P obuf) ∧
      (∀ ps1, encodeLoop ct ibuf size k i ps = .ok ps1 → P ps1.obuf) := by
    intro k
    induction k with
    | zero => intro i ps h; exact ⟨fun c ob he => (by cases he), fun ps1 he => by cases he; exact h⟩
    | succ k ih =>
      intro i ps h
      unfold encodeLoop
      split
      · rename_i e he
        obtain ⟨_, rfl⟩ := readByte_error ibuf i e he
        exact ⟨fun c ob h' => (by cases h'), fun ps1 h' => by cases h'⟩
      · split
        · exact ⟨fun c ob h' => (by cases h'; exact h), fun ps1 h' => by cases h'⟩
        · split
          · rename_i e he
            exact ⟨fun c ob h' => (by cases h'; exact (ha _ _ h).1 _ _ he), fun ps1 h' => by cases h'⟩
          · rename_i ps2 h2
            exact ih _ ps2 ((ha _ _ h).2 _ h2)
  unfold writeFrame
  simp only
  split
  · exact ⟨fun c ob he => (by cases he; exact h0), fun ps1 he => by cases he⟩
  · have h1 := hl n 0 { acc := [], wp := (header n ct).length, total := 0, obuf := memWrite obuf0 0 (header n ct) }
      (hwr _ _ _ (by omega) h0)
    split
    · rename_i e he
      exact ⟨fun c ob h' => (by cases h'; exact h1.1 _ _ he), fun ps1 h' => by cases h'⟩
    · rename_i ps hps
      unfold flushLast
      split
      · exact ⟨fun c ob h' => (by cases h'), fun ps1 h' => by cases h'; exact h1.2 _ hps⟩
      · exact hb ps (h1.2 _ hps)

/-! ### The header -/

theorem length_headerEntries (ct : Tab Code) (l : List Symbol) :
    (l.flatMap (fun sym => headerEntry sym (ctAt ct sym))).length =
      (l.map (fun sym => 2 + ((ctAt ct sym).length + 7) / 8)).sum := by
  induction l with
  | nil => rfl
  | cons a l ih =>
    rw [List.flatMap_cons, List.length_append, ih]
    simp only [List.map_cons, List.sum_cons, headerEntry, List.length_cons, length_pack, bytesFor]
    omega

/-- The header's length (R161). -/
theorem length_header (n : Nat) (ct : Tab Code) :
    (header n ct).length = 6 + ((present ct).map (fun sym => 2 + ((ctAt ct sym).length + 7) / 8)).sum := by
  simp only [header, List.length_append, length_be32, length_be16, headerEntries, length_headerEntries]

theorem mem_of_tabGet {α : Type} (t : Tab α) (k : Nat) (v : α) (h : tabGet t k = some v) : (k, v) ∈ t := by
  induction t with
  | nil => simp at h
  | cons e t ih =>
    obtain ⟨k0, v0⟩ := e
    simp only [tabGet] at h
    split at h
    · rename_i hk
      cases h
      simp [hk]
    · simp [ih h]

/-- Codes of a table in canonical form have at most 255 bits (R35). -/
theorem length_ctAt_le (ct : Tab Code) (h : ctWf ct = true) (x : Symbol) : (ctAt ct x).length ≤ 255 := by
  unfold ctAt
  cases hg : tabGet ct x.toNat with
  | none => simp
  | some d =>
    simp only [ctWf, Bool.and_eq_true, List.all_eq_true] at h
    have := h.2 _ (mem_of_tabGet ct _ _ hg)
    simp only [bne_iff_ne, decide_eq_true_eq] at this
    simpa using this.2

end Sys2Proof.Machine
end

