-- ==== Sys2Proof/Laws/PerInstr.lean ====
section
/-! SUPPORT. Statements made command by command: that the word of a command carries its fields, every bit of
them, and that the fields of a command are legal (R80 to R83). -/

namespace Sys2Proof.Laws

/-- The four fields of a word come back from it (R80). -/
theorem fieldsOf_wordOf (f : Fields) : fieldsOf (wordOf f) = f := by
  obtain ⟨op, sym, rsv, imm⟩ := f
  simp only [fieldsOf, wordOf, Fields.mk.injEq]
  refine ⟨?_, ?_, ?_, ?_⟩ <;>
  · ext i hi
    simp only [BitVec.getElem_extractLsb', BitVec.getLsbD_append]
    repeat' split
    all_goals first
      | omega
      | (rw [← BitVec.getLsbD_eq_getElem]; congr 1; omega)

/-- The word of the fields of a word is that word (R80). -/
theorem wordOf_fieldsOf (w : CmdWord) : wordOf (fieldsOf w) = w := by
  apply BitVec.eq_of_getLsbD_eq
  intro i hi
  simp only [fieldsOf, wordOf, BitVec.getLsbD_append, BitVec.getLsbD_extractLsb']
  repeat' split
  all_goals rw [decide_eq_true (by omega), Bool.true_and]; congr 1; omega

/-- The word of a command carries its four fields (R80, R86). -/
def FieldsBack.Statement (i : Instr) : Prop := fieldsOf (encode i) = i.fields

theorem FieldsBack.nop : FieldsBack.Statement .nop := fieldsOf_wordOf _
theorem FieldsBack.clr : FieldsBack.Statement .clr := fieldsOf_wordOf _
theorem FieldsBack.ldf (sym : Symbol) (n : Imm) : FieldsBack.Statement (.ldf sym n) := fieldsOf_wordOf _
theorem FieldsBack.count (n : Imm) : FieldsBack.Statement (.count n) := fieldsOf_wordOf _
theorem FieldsBack.build : FieldsBack.Statement .build := fieldsOf_wordOf _
theorem FieldsBack.gen : FieldsBack.Statement .gen := fieldsOf_wordOf _
theorem FieldsBack.encode (n : Imm) : FieldsBack.Statement (.encode n) := fieldsOf_wordOf _
theorem FieldsBack.decode (m : Imm) : FieldsBack.Statement (.decode m) := fieldsOf_wordOf _

/-- The fields of a command are those of a legal word (R83). -/
def FieldsLegal.Statement (i : Instr) : Prop := i.wf = true

theorem FieldsLegal.nop : FieldsLegal.Statement .nop := rfl
theorem FieldsLegal.clr : FieldsLegal.Statement .clr := rfl
theorem FieldsLegal.ldf (sym : Symbol) (n : Imm) : FieldsLegal.Statement (.ldf sym n) := rfl
theorem FieldsLegal.count (n : Imm) : FieldsLegal.Statement (.count n) := rfl
theorem FieldsLegal.build : FieldsLegal.Statement .build := rfl
theorem FieldsLegal.gen : FieldsLegal.Statement .gen := rfl
theorem FieldsLegal.encode (n : Imm) : FieldsLegal.Statement (.encode n) := rfl
theorem FieldsLegal.decode (m : Imm) : FieldsLegal.Statement (.decode m) := rfl

end Sys2Proof.Laws
end

