-- ==== Sys2Proof/Laws/RoundTrip.lean ====
section
/-! SUPPORT. What ties the encoding side to the decoding side: the tables GEN makes are prefix codes that DECODE
accepts, and the header and body ENCODE writes are the entries and codes DECODE reads. -/

namespace Sys2Proof.Machine

open Sys2Proof

/-- The entries of a code table, in the order ENCODE writes them (R93). -/
def entriesOf (ct : Tab Code) : List (Symbol × Code) := (present ct).map (fun x => (x, ctAt ct x))

theorem mem_entriesOf (ct : Tab Code) (x : Symbol) (d : Code) : (x, d) ∈ entriesOf ct ↔ d = ctAt ct x ∧ d ≠ [] := by
  simp only [entriesOf, List.mem_map, mem_present, Prod.mk.injEq]
  constructor
  · rintro ⟨y, hy, rfl, rfl⟩
    exact ⟨rfl, hy⟩
  · rintro ⟨rfl, h⟩
    exact ⟨x, h, rfl, rfl⟩

theorem map_fst_entriesOf (ct : Tab Code) : (entriesOf ct).map Prod.fst = present ct := by
  simp [entriesOf, Function.comp_def]

theorem length_entriesOf (ct : Tab Code) : (entriesOf ct).length = (present ct).length := by
  simp [entriesOf]

/-- A prefix code within the bounds is a table DECODE accepts. -/
theorem tableFits_entriesOf (ct : Tab Code) (hlen : ∀ x, (ctAt ct x).length ≤ 255) (hp : prefixFree ct)
    (hn : dtNeed (entriesOf ct) ≤ 510) : tableFits (entriesOf ct) := by
  refine ⟨?_, ?_, ?_, hn⟩
  · rintro ⟨x, d⟩ he
    obtain ⟨rfl, hd⟩ := (mem_entriesOf ct x d).mp he
    exact ⟨Nat.one_le_iff_ne_zero.mpr fun h => hd (List.length_eq_zero_iff.mp h), hlen x⟩
  · rw [map_fst_entriesOf]
    exact nodup_present ct
  · rw [entriesOf, List.pairwise_map]
    refine (nodup_present ct).imp_of_mem ?_
    intro x y hx hy hxy
    rw [mem_present] at hx hy
    exact ⟨hp x y hxy hx hy, hp y x (fun h => hxy h.symm) hy hx⟩

/-- The header's entry bytes are those of the entries (R92). -/
theorem entriesBytes_header (ct : Tab Code) : entriesBytes (entriesOf ct) (headerEntries ct) := by
  refine ⟨(present ct).map (fun x => headerEntry x (ctAt ct x)), ?_, by rw [headerEntries, List.flatMap_def]⟩
  rw [entriesOf, List.forall₂_map_left_iff, List.forall₂_map_right_iff, List.forall₂_same]
  intro x _
  exact ⟨pack (ctAt ct x), rfl, length_pack _, prefix_bitsOf_pack _⟩

/-- The body bits are the codes of the symbols under the entries (R94). -/
theorem codesUnder_bodyBits (ct : Tab Code) (xs : List Symbol) (h : ∀ x ∈ xs, ctAt ct x ≠ []) :
    codesUnder (entriesOf ct) xs (bodyBits ct xs) := by
  induction xs with
  | nil => rfl
  | cons x xs ih =>
    exact ⟨ctAt ct x, bodyBits ct xs, (mem_entriesOf ct x _).mpr ⟨rfl, h x (by simp)⟩, by simp [bodyBits],
      ih fun y hy => h y (by simp [hy])⟩

/-- What GEN makes of a finished tree (R153, R154): codes of exactly the keys, a prefix code, at most 255 bits
each, and no more prefixes than the tree has nodes. -/
theorem codesOf_spec {ft : Tab Count} {node : Tab Node} {root : Handle} (ht : treeStands ft node) (hl : 1 ≤ ndist ft)
    (hr : root.toNat = 2 * ndist ft - 2) : ∃ ct, codesOf node root = some ct ∧
      (∀ sym, ctAt ct sym ≠ [] ↔ ftAt ft sym ≠ 0) ∧ prefixFree ct ∧ (∀ sym, (ctAt ct sym).length ≤ 255) ∧
      dtNeed (entriesOf ct) ≤ 510 ∧
      ∀ sym, ftAt ft sym ≠ 0 → if ndist ft = 1 then ctAt ct sym = [false] else isPathOf node root sym (ctAt ct sym) := by
  have hle := ndist_le ft
  by_cases h2 : 2 ≤ ndist ft
  · obtain ⟨ct, e1, e2, e3⟩ := codesOf_paths ht h2 hr
    have hne : ∀ sym, ftAt ft sym ≠ 0 → ctAt ct sym ≠ [] := by
      intro sym hs h0
      obtain ⟨g, n, d1, d2, d3, _⟩ := e2 sym hs
      rw [h0] at d1
      simp only [descend, Option.some.injEq] at d1
      have := (leaf_inv ht hl g (by rw [← d1]; omega) n d2 d3).1
      rw [← d1] at this
      omega
    have hiff : ∀ sym, ctAt ct sym ≠ [] ↔ ftAt ft sym ≠ 0 := fun sym => ⟨fun hc h0 => hc (e3 sym h0), hne sym⟩
    refine ⟨ct, e1, hiff, ?_, ?_, ?_, fun sym hs => by rw [if_neg (by omega)]; exact e2 sym hs⟩
    · intro x y hxy hx hy hp
      exact hxy (isPathOf_prefix (e2 x ((hiff x).mp hx)) (e2 y ((hiff y).mp hy)) hp).2
    · intro sym
      by_cases hs : ftAt ft sym = 0
      · simp [e3 sym hs]
      · obtain ⟨g, _, d1, _⟩ := e2 sym hs
        have := path_length ht hl _ root g (by omega) d1
        omega
    · have hdesc : ∀ q ∈ ((entriesOf ct).flatMap (fun e => e.2.inits.tail)).dedup, ∃ g, descend node root q = some g ∧
          g.toNat < 2 * ndist ft - 2 := by
        intro q hq
        rw [List.mem_dedup, List.mem_flatMap] at hq
        obtain ⟨⟨x, d⟩, he, hq⟩ := hq
        obtain ⟨rfl, hd⟩ := (mem_entriesOf ct x d).mp he
        obtain ⟨hq0, r, hr'⟩ := (mem_inits_tail _ _).mp hq
        obtain ⟨g, n, d1, _⟩ := e2 x ((hiff x).mp hd)
        simp only at hr'
        rw [← hr', descend_append] at d1
        cases hg : descend node root q with
        | none => simp [hg] at d1
        | some g' =>
          have := descend_le ht hl q root g' (by omega) hg
          have : 1 ≤ q.length := by
            by_contra hc
            exact hq0 (List.length_eq_zero_iff.mp (by omega))
          exact ⟨g', rfl, by omega⟩
      have hnd : (((entriesOf ct).flatMap (fun e => e.2.inits.tail)).dedup.map
          (fun q => ((descend node root q).map BitVec.toNat).getD 0)).Nodup := by
        refine List.Nodup.map_on ?_ (List.nodup_dedup _)
        intro p hp q hq hpq
        obtain ⟨g, hg, _⟩ := hdesc p hp
        obtain ⟨g', hg', _⟩ := hdesc q hq
        simp only [hg, hg', Option.map_some, Option.getD_some] at hpq
        rw [BitVec.toNat_inj] at hpq
        exact path_unique ht hl hr p q g hg (hpq ▸ hg')
      have hsub : ((entriesOf ct).flatMap (fun e => e.2.inits.tail)).dedup.map
          (fun q => ((descend node root q).map BitVec.toNat).getD 0) ⊆ List.range (2 * ndist ft - 2) := by
        intro a ha
        obtain ⟨q, hq, rfl⟩ := List.mem_map.mp ha
        obtain ⟨g, hg, hlt⟩ := hdesc q hq
        simp only [hg, Option.map_some, Option.getD_some, List.mem_range]
        exact hlt
      have := (hnd.subperm hsub).length_le
      simp only [List.length_map, List.length_range] at this
      unfold dtNeed
      omega
  · have h1 : ndist ft = 1 := by omega
    rcases node_cases ht root (by omega) hl with ⟨_, sym, hsym, hn⟩ | ⟨_, _⟩
    · have hct : ∀ y, ctAt (ctPut [] sym [false]) y = if sym = y then [false] else [] := by
        intro y
        rw [ctAt_ctPut]
        rfl
      have hkeys : ∀ y, ftAt ft y ≠ 0 ↔ sym = y := by
        intro y
        rw [← mem_keys]
        obtain ⟨z, hz⟩ := List.length_eq_one_iff.mp h1
        have : sym = z := by
          have := List.mem_of_getElem? hsym
          rw [hz] at this
          simpa using this
        rw [hz, this]
        simp [eq_comm]
      refine ⟨_, codesOf_leaf _ hn rfl, ?_, ?_, ?_, ?_, ?_⟩
      · intro y
        show ctAt (ctPut [] sym [false]) y ≠ [] ↔ _
        rw [hct, hkeys]
        by_cases h : sym = y <;> simp [h]
      · intro x y hxy hx hy
        have hx' : ctAt (ctPut [] sym [false]) x ≠ [] := hx
        have hy' : ctAt (ctPut [] sym [false]) y ≠ [] := hy
        rw [hct] at hx' hy'
        by_cases h : sym = x <;> by_cases h' : sym = y <;> simp_all
      · intro y
        show (ctAt (ctPut [] sym [false]) y).length ≤ 255
        rw [hct]
        split <;> simp
      · have hpres : present (ctPut [] sym [false]) = [sym] := by
          have : (present (ctPut [] sym [false])).Perm [sym] := by
            rw [List.perm_ext_iff_of_nodup (nodup_present _) (by simp)]
            intro y
            rw [mem_present, hct]
            by_cases h : sym = y
            · simp [h]
            · rw [if_neg h, List.mem_singleton]
              exact ⟨fun hc => absurd rfl hc, fun hc => absurd hc.symm h⟩
          exact List.perm_singleton.mp this
        show dtNeed (entriesOf (ctPut [] sym [false])) ≤ 510
        rw [dtNeed, entriesOf, hpres]
        refine Nat.le_trans (List.dedup_sublist _).length_le ?_
        simp [hct]
      · intro y hy
        rw [if_pos h1]
        show ctAt (ctPut [] sym [false]) y = _
        rw [hct, if_pos ((hkeys y).mp hy)]
    · omega

end Sys2Proof.Machine
end

