-- ==== Sys2Proof/Laws/StepKeeps.lean ====
section
/-! SUPPORT. What every step keeps, from what each kind of host action keeps: the case split over the host's
actions (R258), made once. -/

namespace Sys2Proof.Machine

open Sys2Proof

/-- A property that taking an action off the queue, counting a word, CLR, fault entry, the eight commands with
FAULT = 0, a host write of IBUF, an answered read and reset keep, is kept by every step. -/
theorem step_keeps (P : State → Prop) (hpend : ∀ s p, P s → P { s with pending := p })
    (hbump : ∀ s, P s → P (bumpCmdcnt s)) (hclr : ∀ s, P s → P (clearBlock s))
    (hraise : ∀ c s, P s → P (raise c s))
    (hexec : ∀ i s t, s.fault = false → P s → exec i s = .next t → P t)
    (hwrite : ∀ s a v, P s → a < s.cfg.ibufSize.toNat → P { s with ibuf := memPut s.ibuf a v })
    (hanswer : ∀ s r k, P s → P { s with reply := r, freeCtr := k })
    (hreset : ∀ s, P s → P (resetBlock s)) : ∀ s t, P s → step s = .next t → P t := by
  intro s t hp h
  unfold step at h
  split at h
  · cases h
    exact hp
  rename_i a rest _
  have hp' := hpend s rest hp
  revert h hp'
  generalize ({ s with pending := rest } : State) = s'
  intro h hp'
  cases a with
  | command w =>
    rcases acceptWord_next w s' t h with ⟨_, _, rfl⟩ | ⟨_, _, rfl⟩ | ⟨hf, i, _, h⟩ | ⟨_, e, _, rfl⟩
    · exact hclr _ (hbump _ hp')
    · exact hbump _ hp'
    · exact hexec i (bumpCmdcnt s') _ hf (hbump _ hp') h
    · exact hraise _ _ (hbump _ hp')
  | writeIbuf a v =>
    simp only [hostAct] at h
    split at h
    · cases h
    · cases h
      exact hwrite _ _ _ hp' (by omega)
  | readIbuf a =>
    simp only [hostAct] at h
    split at h
    · cases h
    · cases h
      exact hanswer _ _ s'.freeCtr hp'
  | readObuf a =>
    simp only [hostAct] at h
    split at h
    · cases h
    · cases h
      unfold answerByte
      split <;> exact hanswer _ _ _ hp'
  | writeObuf a v => cases h
  | readReg r =>
    simp only [hostAct] at h
    split at h
    · cases h
      exact hanswer _ _ _ hp'
    · cases h
  | writeReg r v => cases h
  | reset =>
    cases h
    exact hreset _ hp'

end Sys2Proof.Machine
end

