-- ==== Sys2Proof/Tests/Slice0.lean ====
section
/-! SUPPORT. Smoke tests of WellFormed, decoding of words written out from 30_encoding.md, vectors of
95_test_vectors.md one or two a command, and for every statement with hypotheses a witness that meets them.
Expected values come from the spec's encodings and vectors, never from a run of the model. -/

namespace Sys2Proof.Tests

open Sys2Proof Sys2Proof.Machine

set_option Elab.async false

/-! ### WellFormed: an ill-formed term for each check (R83) -/

theorem test_wf_good : ({ op := 0x02, sym := 0x61, rsv := 0, imm := 5 } : Fields).wf = true := by decide

theorem test_wf_opcode : ({ op := 0x08, sym := 0, rsv := 0, imm := 0 } : Fields).opDefined = false := by decide

theorem test_wf_rsv : ({ op := 0x02, sym := 0x61, rsv := 1, imm := 4 } : Fields).rsvZero = false := by decide

theorem test_wf_sym : ({ op := 0x03, sym := 0x61, rsv := 0, imm := 4 } : Fields).symZeroIfUnused = false := by decide

theorem test_wf_imm : ({ op := 0x04, sym := 0, rsv := 0, imm := 5 } : Fields).immZeroIfUnused = false := by decide

theorem test_wf_rejects :
    ({ op := 0x08, sym := 0, rsv := 0, imm := 0 } : Fields).wf = false ∧
    ({ op := 0x02, sym := 0x61, rsv := 1, imm := 4 } : Fields).wf = false ∧
    ({ op := 0x03, sym := 0x61, rsv := 0, imm := 4 } : Fields).wf = false ∧
    ({ op := 0x04, sym := 0, rsv := 0, imm := 5 } : Fields).wf = false := by decide

theorem test_config_sizes : (Config.wf { ibufSize := 0, obufSize := 1 }) = false ∧
    Config.wf { ibufSize := 1, obufSize := 0 } = false ∧ Config.wf Config.vectors = true := by decide

theorem test_line_wf : (AsmLine.ldf 256 0).wf = false ∧ (AsmLine.count (2 ^ 32)).wf = false ∧
    (AsmLine.ldf 255 (2 ^ 32 - 1)).wf = true := by decide

/-! ### Decoding words written out bit by bit: OP, SYM, RSV, IMM (R80, R82) -/

theorem test_decode_nop : decode 0b0000000000000000000000000000000000000000000000000000000000000000#64 = .ok .nop := by decide

theorem test_decode_clr : decode 0b0000000100000000000000000000000000000000000000000000000000000000#64 = .ok .clr := by decide

theorem test_decode_ldf : decode 0b0000001001100001000000000000000000000000000000000000000000000101#64 = .ok (.ldf 0x61 5) := by decide

theorem test_decode_count : decode 0b0000001100000000000000000000000000000000000000000000000000001011#64 = .ok (.count 11) := by decide

theorem test_decode_build : decode 0b0000010000000000000000000000000000000000000000000000000000000000#64 = .ok .build := by decide

theorem test_decode_gen : decode 0b0000010100000000000000000000000000000000000000000000000000000000#64 = .ok .gen := by decide

theorem test_decode_encode : decode 0b0000011000000000000000000000000010000000000000000000000000000001#64 = .ok (.encode 0x80000001) := by decide

theorem test_decode_decode : decode 0b0000011100000000000000000000000000000000000000000000000000011000#64 = .ok (.decode 24) := by decide

/-- V-W4: both operands at their largest. -/
theorem test_decode_ldf_max : decode 0x02FF0000FFFFFFFF#64 = .ok (.ldf 0xFF 0xFFFFFFFF) := by decide

/-- V-W5, V-W6, V-W11: reserved opcodes; BAD_OPCODE is tested before RSV. -/
theorem test_decode_bad_opcode : decode 0x0800000000000000#64 = .error (.badOpcode 8) ∧
    decode 0xFF00000000000000#64 = .error (.badOpcode 255) ∧
    decode 0x0800000100000000#64 = .error (.badOpcode 8) := by decide

/-- V-W7 to V-W10: non-zero unused fields. -/
theorem test_decode_bad_reserved : decode 0x0000000000000001#64 = .error (.badReserved 0) ∧
    decode 0x0361000000000004#64 = .error (.badReserved 3) ∧
    decode 0x0261000100000004#64 = .error (.badReserved 2) ∧
    decode 0x0400000000000005#64 = .error (.badReserved 4) := by decide

/-- The opcode table's words through the host's interface. -/
theorem test_table_word : decodeTableWord 64 0x0261000000000005 = some (.ldf 0x61 5) ∧
    decodeTableWord 64 0x0800000000000000 = none := by decide

/-! ### The assembler (R86, R87, R88) -/

theorem test_line_ldf : parseLine ['L', 'D', 'F', ' ', '\'', 'a', '\'', ',', ' ', '5', ' ', ';', 'x'] =
    some (.ldf 97 5) := by decide

theorem test_line_hex : parseLine ['C', 'O', 'U', 'N', 'T', ' ', '0', 'x', '1', 'F'] = some (.count 31) ∧
    parseLine ['B', 'U', 'I', 'L', 'D', ' ', '1'] = none := by decide

/-- The model's choice (notes/assumptions/12.md): a comma and a semicolon in single quotes are symbols. -/
theorem test_line_quoted : parseLine ['L', 'D', 'F', ' ', '\'', ',', '\'', ',', ' ', '5'] = some (.ldf 0x2C 5) ∧
    parseLine ['L', 'D', 'F', ' ', '\'', ';', '\'', ',', ' ', '5', ' ', ';', ','] = some (.ldf 0x3B 5) := by decide

theorem test_compress_words : assemble (.compress 11) =
    some [0x030000000000000B#64, 0x0400000000000000#64, 0x0500000000000000#64, 0x060000000000000B#64] := by decide

/-! ### Small states -/

/-- A buffer that holds the given bytes from address 0. -/
def buf (bs : List Byte) : Memory := bs.zipIdx.map (fun e => (e.2, e.1))

/-- Reset, with the given bytes written to IBUF from address 0. -/
def withInput (bs : List Byte) : State := { State.reset with ibuf := buf bs }

/-- The state after a list of commands; none where the machine stops. -/
def after : List Instr → State → Option State
  | [], s => some s
  | i :: is, s =>
    match exec i s with
    | .next t => after is t
    | _ => none

/-- ERR and ERRINFO after one command. -/
def faultOf (i : Instr) (s : State) : Option (BitVec 16 × BitVec 32) :=
  (after [i] s).map (fun t => (t.err, t.errinfo))

/-- The bytes of OBUF below OLEN. -/
def output (s : State) : List (Option Byte) := (List.range s.olen.toNat).map (memGet s.obuf)

/-- "abracadabra" (R10). -/
def abra : List Byte := [0x61, 0x62, 0x72, 0x61, 0x63, 0x61, 0x64, 0x61, 0x62, 0x72, 0x61]

/-- The 24-byte frame of V-E1. -/
def abraFrame : List Byte := [0x00, 0x00, 0x00, 0x0B, 0x00, 0x05, 0x61, 0x01, 0x00, 0x62, 0x03, 0xC0,
  0x63, 0x03, 0x80, 0x64, 0x03, 0xA0, 0x72, 0x03, 0xE0, 0x6E, 0x8A, 0xDC]

/-- The table and tree of the two symbols 'a' and 'b', one of each (R43 (d)). -/
def treeAb : State :=
  { State.reset with
      ft := [(97, 1), (98, 1)], ibuf := buf [0x61, 0x62], treeValid := true, root := 2, nnodes := 3, rootf := 2,
      node := [(0, { kind := .leaf, sym := 0x61, freq := 1, left := 511, right := 511 }),
               (1, { kind := .leaf, sym := 0x62, freq := 1, left := 511, right := 511 }),
               (2, { kind := .internal, sym := 0, freq := 2, left := 0, right := 1 })] }

/-- The same with its code table. -/
def tableAb : State := { treeAb with ctValid := true, ct := [(97, [false]), (98, [true])] }

/-! ### Vectors of 95_test_vectors.md, one step each -/

/-- V-X5: CMDCNT wraps. -/
theorem test_nop_wraps_cmdcnt : (match acceptWord 0 { State.reset with cmdcnt := 0xFFFFFFFF } with
    | .next t => t.cmdcnt == 0 && t.fault == false
    | _ => false) = true := by decide +kernel

/-- V-X4. -/
theorem test_clr_clears : (match acceptWord clrWord (raise (.noCode 2) { tableAb with olen := 7 }) with
    | .next t => statusWord t == 0 && t.err == 0 && ndist t.ft == 0 && t.cmdcnt == 1
    | _ => false) = true := by decide +kernel

/-- V-X3: CLR with IMM ≠ 0 is discarded while FAULT = 1. -/
theorem test_clr_inexact_discarded : (match acceptWord 0x0100000000000001#64 (raise .noTree State.reset) with
    | .next t => t.fault && t.err == 0x0105
    | _ => false) = true := by decide +kernel

/-- V-C5: LDF drops both valid flags and leaves the root registers. -/
theorem test_ldf_stale : (after [.ldf 0x63 7] tableAb).map (fun t => (statusWord t, ndist t.ft, t.root, t.nnodes, t.rootf)) =
    some (0, 3, 2, 3, 2) := by decide +kernel

/-- V-C6: a zero count removes the key. -/
theorem test_ldf_zero : (after [.ldf 0x61 0] tableAb).map (fun t => (ndist t.ft, ftAt t.ft 0x61)) = some (1, 0) := by
  decide +kernel

/-- V-C1. -/
theorem test_count_abracadabra : (after [.count 11] (withInput abra)).map
    (fun t => ([0x61, 0x62, 0x63, 0x64, 0x72].map (ftAt t.ft), ndist t.ft)) = some ([5, 2, 1, 1, 2], 5) := by
  decide +kernel

/-- V-C3, V-C4: EMPTY_INPUT, and SRC_RANGE with IBUF_SIZE = 16. -/
theorem test_count_faults : faultOf (.count 0) State.reset = some (0x0101, 0) ∧
    faultOf (.count 17) (State.resetWith { ibufSize := 16, obufSize := 16 }) = some (0x0106, 17) := by decide +kernel

/-- V-B7: a leaf precedes an internal node of the same frequency. -/
theorem test_build_tie : (after [.ldf 0x61 3, .ldf 0x62 1, .ldf 0x63 1, .ldf 0x64 1, .build] State.reset).map
    (fun t => ([4, 5, 6].map (fun h => (nodeAt t.node h).map (fun n => (n.freq, n.left, n.right))), t.root, t.rootf)) =
    some ([some (2, 1, 2), some (3, 3, 4), some (6, 0, 5)], 6, 6) := by decide +kernel

/-- V-B1: the last merge of "abracadabra". -/
theorem test_build_abracadabra : (after [.count 11, .build] (withInput abra)).map
    (fun t => ((nodeAt t.node 8).map (fun n => (n.freq, n.left, n.right)), t.root, t.nnodes, t.rootf)) =
    some (some (11, 0, 7), 8, 9, 11) := by decide +kernel

/-- V-G1. -/
theorem test_gen_abracadabra : (after [.count 11, .build, .gen] (withInput abra)).map
    (fun t => [0x61, 0x62, 0x63, 0x64, 0x72].map (ctAt t.ct)) =
    some [[false], [true, true, false], [true, false, false], [true, false, true], [true, true, true]] := by
  decide +kernel

/-- V-G2, V-G10. -/
theorem test_gen_single_and_none : (after [.ldf 0x61 4, .build, .gen] State.reset).map (fun t => ctAt t.ct 0x61) =
    some [false] ∧ faultOf .gen State.reset = some (0x0105, 0) := by decide +kernel

/-- V-E1. -/
theorem test_encode_abracadabra : (after [.count 11, .build, .gen, .encode 11] (withInput abra)).map
    (fun t => (output t, t.tbits)) = some (abraFrame.map some, 23) := by decide +kernel

/-- V-E9, V-E13 (OBUF_SIZE = 9: the header fits, the body byte does not). -/
theorem test_encode_faults : faultOf (.encode 3) { tableAb with ibuf := buf [0x61, 0x62, 0x63] } = some (0x0102, 2) ∧
    (after [.count 4, .build, .gen, .encode 4]
      { State.resetWith { ibufSize := 16, obufSize := 9 } with ibuf := buf [0x61, 0x61, 0x61, 0x61] }).map
      (fun t => (t.err, t.olen, t.tbits)) = some (0x0206, 0, 0) := by decide +kernel

/-- V-D1. -/
theorem test_decode_abracadabra : (after [.decode 24] (withInput abraFrame)).map output = some (abra.map some) := by
  decide +kernel

/-- V-D14, V-D16, V-D13c: BODY_TRUNC, WALK_INVALID, HDR_PREFIX_CONFLICT. -/
theorem test_decode_faults :
    faultOf (.decode 16) (withInput [0, 0, 0, 0x0A, 0, 3, 0x61, 1, 0, 0x62, 2, 0x80, 0x63, 2, 0xC0, 0x2B]) = some (0x0803, 5) ∧
    faultOf (.decode 10) (withInput [0, 0, 0, 2, 0, 1, 0x61, 1, 0, 0x40]) = some (0x0903, 1) ∧
    faultOf (.decode 13) (withInput [0, 0, 0, 2, 0, 2, 0x61, 1, 0, 0x62, 2, 0, 0x40]) = some (0x0603, 1) := by
  decide +kernel

/-- The word of each row runs as the first command after reset. -/
theorem test_first_step : (match step (State.reset.withFetchWord 64 0x0261000000000005) with
    | .next t => t.ft == [(97, 5)] && t.cmdcnt == 1 && t.pending == []
    | _ => false) = true := by decide +kernel

/-- R36: an unwritten IBUF byte is refused. -/
theorem test_count_refuses_unwritten : (match exec (.count 3) (withInput [0x61, 0x62]) with
    | .refused (.ibufUnwritten a) => a == 2
    | _ => false) = true := by decide +kernel

/-! ### Witnesses: for every statement with hypotheses, a concrete case of each clause, at a boundary value -/

theorem memGet_buf (bs : List Byte) (a : Nat) : memGet (buf bs) a = bs[a]? := by
  have h : ∀ (bs : List Byte) (k a : Nat), tabGet ((bs.zipIdx k).map (fun e => (e.2, e.1))) a =
      if k ≤ a then bs[a - k]? else none := by
    intro bs
    induction bs with
    | nil => intro k a; simp
    | cons b bs ih =>
      intro k a
      simp only [List.zipIdx_cons, List.map_cons, tabGet, ih]
      by_cases h1 : k = a
      · subst h1
        simp
      · by_cases h2 : k + 1 ≤ a
        · rw [if_neg h1, if_pos h2, if_pos (by omega), show a - k = a - (k + 1) + 1 by omega]
          rfl
        · rw [if_neg h1, if_neg h2, if_neg (by omega)]
  simpa [memGet, buf] using h bs 0 a

theorem ibufHolds_withInput (bs : List Byte) : ibufHolds (withInput bs) bs := fun a _ => memGet_buf bs a

theorem obufHolds_buf (s : State) (bs : List Byte) : obufHolds { s with obuf := buf bs } bs := fun a _ => memGet_buf bs a

/-- The bytes of a frame to be decoded. -/
def frameBytes (n l : Nat) (parts : List (List Byte)) (rest : List Byte) : List Byte :=
  be32 n ++ be16 l ++ parts.flatten ++ rest

theorem frame_withInput (m : Imm) (n l : Nat) (es : List (Symbol × Code)) (parts : List (List Byte))
    (rest : List Byte) (he : List.Forall₂ entryBytes es parts)
    (h : m ≤ 65536#32 ∧ 1 ≤ n ∧ n < 2 ^ 32 ∧ 1 ≤ l ∧ l ≤ 256 ∧ m.toNat = (frameBytes n l parts rest).length) :
    frameInIbuf (withInput (frameBytes n l parts rest)) m n l es rest :=
  ⟨h.1, h.2.1, h.2.2.1, h.2.2.2.1, h.2.2.2.2.1, _, ⟨parts, he, rfl⟩, h.2.2.2.2.2, ibufHolds_withInput _⟩

/-- A block with the given sizes and the given bytes in IBUF. -/
def sized (i o : Nat) (bs : List Byte) : State :=
  { State.resetWith { ibufSize := BitVec.ofNat 32 i, obufSize := BitVec.ofNat 32 o } with ibuf := buf bs }

theorem witness_DecodeEncodeAgree : decode 0x02FF0000FFFFFFFF#64 = .ok (.ldf 0xFF 0xFFFFFFFF) := by decide

/-- OP 8 is the first reserved one and OP 7 the last defined; each of the three unused fields; LDF with both
operands at their largest. -/
theorem witness_WordsAreClassified : State.reset.fault = false ∧
    7 < ((0x0800000000000000#64).extractLsb' 56 8).toNat ∧
    (((0x0700000100000000#64).extractLsb' 56 8).toNat ≤ 7 ∧ (0x0700000100000000#64).extractLsb' 32 16 ≠ 0) ∧
    (((0x0701000000000000#64).extractLsb' 56 8).toNat ≤ 7 ∧ (0x0701000000000000#64).extractLsb' 56 8 ≠ 0x02#8 ∧
      (0x0701000000000000#64).extractLsb' 48 8 ≠ 0) ∧
    decode 0x0701000000000000#64 = .error (.badReserved 7) ∧ decode 0x0500000000000001#64 = .error (.badReserved 5) ∧
    decode 0x0700000000000018#64 = .ok (.decode 24) ∧ decode 0x02FF0000FFFFFFFF#64 = .ok (.ldf 0xFF 0xFFFFFFFF) := by
  decide

theorem witness_PseudoCommandsExpand : 2 ^ 32 - 1 < 2 ^ 32 ∧ (assemble (.compress (2 ^ 32 - 1))).isSome ∧
    assemble (.compress (2 ^ 32)) = none := by decide

theorem witness_HeaderIntegersAreBigEndian : be32 (2 ^ 32 - 1) = [0xFF, 0xFF, 0xFF, 0xFF] ∧ be32 11 = [0, 0, 0, 11] ∧
    be16 256 = [1, 0] := by decide

/-- R64: "10010" packs to 0x90 (1001 0000); its last used bit and its last pad bit. -/
theorem witness_PackedBitsReadBack : memGet (buf [0x90]) (0 + 7 / 8) = some 0x90 ∧ (pack [true, false, false, true, false])[0]? = some 0x90 ∧
    7 < 8 * (pack [true, false, false, true, false]).length := by decide

/-- A block with the fault latch set. -/
def faulted : State := raise .noTree State.reset

theorem witness_AcceptCommandWord : faulted.fault = true ∧ (0 : CmdWord) ≠ 0x0100000000000000#64 ∧ State.reset.fault = false ∧
    decode 0x0700000000000018#64 = .ok (.decode 24) ∧ decode 0x0800000000000000#64 = .error (.badOpcode 8) := by decide

/-- A command to run, an action that is no command, a word to be discarded, and no action. -/
theorem witness_StepRunsDecodedCommand :
    (State.reset.withFetchWord 64 0x0261000000000005).pending = .command 0x0261000000000005#64 :: [] ∧
    decode 0x0261000000000005#64 = .ok (.ldf 0x61 5) ∧
    ({ State.reset with pending := [.writeIbuf 0 0x61, .reset] } : State).pending = .writeIbuf 0 0x61 :: [.reset] ∧
    (faulted.withFetchWord 64 0x0261000000000005).pending = .command 0x0261000000000005#64 :: [] ∧
    State.reset.pending = [] := by decide

theorem witness_CmdcntCountsAcceptedWords : (∃ t, acceptWord 0 { State.reset with cmdcnt := 0xFFFFFFFF } = .next t) ∧
    (∃ t, exec .nop faulted = .next t) ∧ ∃ t, hostAct .reset faulted = .next t := ⟨⟨_, rfl⟩, ⟨_, rfl⟩, ⟨_, rfl⟩⟩

theorem witness_FaultLatchIsSticky : faulted.fault = true ∧
    0x0100000000000001#64 ≠ clrWord ∧ 0x0400000000000000#64 ≠ clrWord ∧ 0xFF00000000000000#64 ≠ clrWord := by decide

/-- n = IBUF_SIZE = 16 is the last n in range, and 17 the first out of it. -/
theorem witness_CountCountsSymbols : (17 : Imm) ≠ 0 ∧ (sized 16 16 []).cfg.ibufSize < (17 : Imm) ∧ (16 : Imm) ≠ 0 ∧
    (16 : Imm) ≤ (sized 16 16 []).cfg.ibufSize ∧ (List.replicate 16 (0x61 : Symbol)).length = (16 : Imm).toNat ∧
    ibufHolds (sized 16 16 (List.replicate 16 0x61)) (List.replicate 16 0x61) :=
  ⟨by decide, by decide, by decide, by decide, rfl, fun a _ => memGet_buf _ a⟩

theorem witness_CountConservesFrequency : (11 : Imm) ≠ 0 ∧ (11 : Imm) ≤ (withInput abra).cfg.ibufSize ∧
    abra.length = (11 : Imm).toNat ∧ ibufHolds (withInput abra) abra :=
  ⟨by decide, by decide, by decide, ibufHolds_withInput abra⟩

theorem witness_UnwrittenByte_count_encode : (3 : Imm) ≤ (withInput [0x61, 0x62]).cfg.ibufSize ∧
    2 < (3 : Imm).toNat ∧ (∀ b, b < 2 → (memGet (withInput [0x61, 0x62]).ibuf b).isSome) ∧
    memGet (withInput [0x61, 0x62]).ibuf 2 = none ∧
    (tableAb.ctValid = true ∧ ibufHolds tableAb [0x61, 0x62] ∧ memGet tableAb.ibuf 2 = none ∧
      (∀ x ∈ [0x61, (0x62 : Symbol)], ctAt tableAb.ct x ≠ []) ∧
      (header 3 tableAb.ct).length + (bodyBits tableAb.ct [0x61, 0x62]).length / 8 ≤ tableAb.cfg.obufSize.toNat) :=
  ⟨by decide, by decide, by decide, by decide, rfl, fun a _ => memGet_buf [0x61, 0x62] a, by decide, by decide +kernel,
    by decide +kernel⟩

/-- NSYM broken off after 0 and after 3 bytes, NDIST after 4 and after 5. -/
theorem witness_UnwrittenByte_decode_fixed (bs : List Byte) (h : bs ∈ [[], [0, 0, 0], [0, 0, 0, 1], [0, 0, 0, 1, 0]]) :
    (6 : Imm) ≤ (withInput bs).cfg.ibufSize ∧ ibufHolds (withInput bs) bs ∧ memGet (withInput bs).ibuf bs.length = none ∧
    ((bs.length < 4 ∧ 4 ≤ (6 : Imm).toNat) ∨
      (4 ≤ bs.length ∧ bs.length < 6 ∧ 6 ≤ (6 : Imm).toNat ∧ bs.take 4 ≠ [0, 0, 0, 0])) := by
  refine ⟨show (6 : Imm) ≤ 65536#32 by decide, ibufHolds_withInput bs, ?_, ?_⟩
  · rw [show (withInput bs).ibuf = buf bs from rfl, memGet_buf]
    simp
  · simp only [List.mem_cons, List.not_mem_nil, or_false] at h
    rcases h with rfl | rfl | rfl | rfl <;> decide

theorem witness_BuildWritesResultRegisters : (∀ sym, ftAt State.reset.ft sym = 0) ∧ (∃ sym, ftAt treeAb.ft sym ≠ 0) ∧
    (after [.count 2, .build] (withInput [0x61, 0x62])).isSome ∧
    (after [.count 2] (withInput [0x61, 0x62])).map State.fault = some false :=
  ⟨fun _ => rfl, ⟨0x61, by decide⟩, by decide +kernel, by decide +kernel⟩

/-- BUILD gives `treeAb` its own tree back. -/
theorem treeAb_node : (mergeLoop (ndist treeAb.ft - 1) (mergeStart treeAb)).node = treeAb.node := by decide +kernel

theorem treeAb_stands : treeStands treeAb.ft treeAb.node := by
  have hl : 1 ≤ ndist treeAb.ft := by decide +kernel
  have h := (build_merged treeAb hl).treeStands hl
  rwa [treeAb_node] at h

/-- The premises of BuildMakesLeavesInOrder, BuildMergesTwoLeast, BuildTreeStands, GeneratedCodesArePrefixCode and
CodeLengthsAreBounded: a table with a key; the first and the last key; the first and the last internal node; two keys
and one key. -/
theorem witness_tables_with_a_key : ftAt treeAb.ft 0x61 ≠ 0 ∧ (keys treeAb.ft)[0]? = some 0x61 ∧
    (keys treeAb.ft)[1]? = some 0x62 ∧ (ndist treeAb.ft ≤ 2 ∧ 2 ≤ 2 * ndist treeAb.ft - 2) ∧ 2 ≤ ndist treeAb.ft ∧
    ndist [(255, (1 : Count))] = 1 ∧ 255 ≤ (List.replicate 255 true).length := by decide +kernel

theorem witness_BuildSingleLeaf : ftAt [(255, (1 : Count))] 255 ≠ 0 ∧ ∀ y, y ≠ 255 → ftAt [(255, (1 : Count))] y = 0 := by
  decide +kernel

theorem witness_GenNeedsTree : State.reset.treeValid = false := rfl

theorem witness_GenRecordsPaths : treeAb.treeValid = true ∧ treeAb.treeOk ∧ 2 ≤ ndist treeAb.ft :=
  ⟨rfl, fun _ => ⟨by decide +kernel, by decide +kernel, by decide +kernel, treeAb_stands, by decide +kernel, by decide +kernel⟩,
    by decide +kernel⟩

/-- The tree of V-B2's shape: one leaf, of the last symbol. -/
def leafOnly : State :=
  { State.reset with
      ft := [(255, 4)], treeValid := true, root := 0, nnodes := 1, rootf := 4,
      node := [(0, { kind := .leaf, sym := 0xFF, freq := 4, left := 511, right := 511 })] }

theorem witness_GenSingleLeaf : leafOnly.treeValid = true ∧
    nodeAt leafOnly.node leafOnly.root = some { kind := .leaf, sym := 0xFF, freq := 4, left := 511, right := 511 } := by decide

/-- The header of `tableAb`'s code table has 12 bytes: OBUF_SIZE 11 is the last too small for it. -/
theorem witness_EncodeTestsInOrder : State.reset.ctValid = false ∧ tableAb.ctValid = true ∧
    tableAb.cfg.ibufSize < (65537 : Imm) ∧ (65536 : Imm) ≤ tableAb.cfg.ibufSize ∧
    ({ tableAb with cfg := { ibufSize := 2, obufSize := 11 } } : State).cfg.obufSize.toNat < (header 2 tableAb.ct).length := by
  decide +kernel

/-- The frame of "ab" has 13 bytes, all that OBUF_SIZE = 13 holds. -/
def tableAbIn (obufSize : BitVec 32) : State := { tableAb with cfg := { ibufSize := 2, obufSize := obufSize } }

theorem ab_holds (o : BitVec 32) (b : Byte) : ibufHolds { tableAbIn o with ibuf := buf [0x61, b] } [0x61, b] :=
  fun a _ => memGet_buf _ a

theorem witness_EncodeWritesFrame : (tableAbIn 13).ctValid = true ∧ (2 : Imm) ≠ 0 ∧ (2 : Imm) ≤ (tableAbIn 13).cfg.ibufSize ∧
    [0x61, (0x62 : Symbol)].length = (2 : Imm).toNat ∧ ibufHolds (tableAbIn 13) [0x61, 0x62] ∧
    (∀ x ∈ [0x61, (0x62 : Symbol)], ctAt (tableAbIn 13).ct x ≠ []) ∧
    (header 2 (tableAbIn 13).ct ++ pack (bodyBits (tableAbIn 13).ct [0x61, 0x62])).length = (tableAbIn 13).cfg.obufSize.toNat :=
  ⟨rfl, by decide, by decide, by decide, ab_holds 13 0x62, by decide +kernel, by decide +kernel⟩

theorem witness_HeaderLayout : ctWf tableAb.ct = true ∧ (∀ x ∈ [(0x61 : Symbol)], ctAt tableAb.ct x ≠ []) ∧
    (frameOf [(0x61, [false])] [0x61]).length = 10 := by decide +kernel

/-- The clauses of EncodeStops: OBUF_SIZE 11 is too small for the header and 12 for the body; 'c' has no code, and the
code of eight 'a' before it fills one whole byte, for which OBUF_SIZE 12 has no room and 13 has. -/
theorem witness_EncodeStops : (tableAbIn 11).cfg.obufSize.toNat < (header 2 tableAb.ct).length ∧
    (header 2 tableAb.ct).length ≤ (tableAbIn 12).cfg.obufSize.toNat ∧
    12 < (header 2 tableAb.ct).length + ((bodyBits tableAb.ct [0x61, 0x62]).length + 7) / 8 ∧
    ctAt tableAb.ct 0x63 = [] ∧ (List.replicate 8 (0x61 : Symbol) ++ [0x63])[8]? = some 0x63 ∧
    (∀ y ∈ (List.replicate 8 (0x61 : Symbol) ++ [0x63]).take 8, ctAt tableAb.ct y ≠ []) ∧
    (header 9 tableAb.ct).length + (bodyBits tableAb.ct (List.replicate 8 0x61)).length / 8 = 13 := by decide +kernel

/-- Two states that agree on what ENCODE reads and on nothing else. -/
theorem witness_EncodeDependsOnInputAndTable :
    (∀ a, a < (2 : Imm).toNat → memGet tableAb.ibuf a = memGet (buf [0x61, 0x62, 0x63]) a) ∧
    (after [.encode 2] tableAb).isSome ∧
    (after [.encode 2] { tableAb with ibuf := buf [0x61, 0x62, 0x63], ft := [], obuf := buf [1] }).isSome := by decide +kernel

/-- The last m too short for NSYM (3) and for NDIST (5); NSYM = 0; NDIST = 0 and 257. -/
theorem witness_DecodeFixedHeaderFaults : State.reset.cfg.ibufSize < (65537 : Imm) ∧
    ibufHolds (withInput [0, 0, 1]) [0, 0, 1] ∧ ibufHolds (withInput [0, 0, 0, 0]) [0, 0, 0, 0] ∧
    ibufHolds (withInput [0, 0, 0, 1, 0]) [0, 0, 0, 1, 0] ∧
    ibufHolds (withInput [0, 0, 0, 1, 0, 0]) [0, 0, 0, 1, 0, 0] ∧
    ibufHolds (withInput [0, 0, 0, 1, 1, 1]) [0, 0, 0, 1, 1, 1] :=
  ⟨by decide, ibufHolds_withInput _, ibufHolds_withInput _, ibufHolds_withInput _, ibufHolds_withInput _, ibufHolds_withInput _⟩

/-- The entry 'a' -> '0' as bytes. -/
theorem entry_a : entryBytes (0x61, [false]) [0x61, 1, 0x00] := ⟨[0x00], rfl, by decide, by decide⟩

/-- The entry 'b' -> '1' as bytes, its pad bits set (R191). -/
theorem entry_b : entryBytes (0x62, [true]) [0x62, 1, 0xFF] := ⟨[0xFF], rfl, by decide, by decide⟩

theorem fits_a : tableFits [(0x61, [false])] := ⟨by decide, by decide, by simp, by decide +kernel⟩

theorem fits_ab : tableFits [(0x61, [false]), (0x62, [true])] :=
  ⟨by decide, by decide, by simp [apart], by decide +kernel⟩

/-- One byte left for an entry; a length byte 0; a symbol seen before; a code of 9 bits with one byte left. -/
theorem witness_DecodeEntryFaults (rest : List Byte) (h : rest ∈ [[0x61], [0x62, 0], [0x61, 1], [0x62, 9, 0x80]]) :
    frameInIbuf (withInput (frameBytes 1 2 [[0x61, 1, 0x00]] rest)) (BitVec.ofNat 32 (9 + rest.length)) 1 2 [(0x61, [false])] rest ∧
    tableFits [(0x61, [false])] := by
  refine ⟨frame_withInput _ 1 2 _ _ rest (.cons entry_a .nil) ?_, fits_a⟩
  simp only [List.mem_cons, List.not_mem_nil, or_false] at h
  rcases h with rfl | rfl | rfl | rfl <;> decide

/-- 'b' -> '00' clashes with 'a' -> '0', and 'b' -> '1' with no code. -/
theorem witness_DecodeTableFaults_clash : frameInIbuf (withInput (frameBytes 2 2 [[0x61, 1, 0x00]] ([0x62, 2, 0x00] ++ [0x40])))
      13 2 2 [(0x61, [false])] ([0x62, 2, 0x00] ++ [0x40]) ∧ tableFits [(0x61, [false])] ∧
    entryBytes (0x62, [false, false]) [0x62, 2, 0x00] ∧ ¬ apart [false] [false, false] ∧ apart [false] [true] := by
  refine ⟨frame_withInput _ 2 2 _ _ _ (.cons entry_a .nil) (by decide), fits_a, ⟨[0x00], rfl, by decide, by decide⟩, ?_, ?_⟩ <;>
    simp [apart]

/-- Codes of 255 bits: the first two take the 510 nodes beside the root, the third would need more. -/
def longA : Code := List.replicate 255 false

def longB : Code := true :: List.replicate 254 false

def longC : Code := true :: true :: List.replicate 253 false

theorem longs_need : dtNeed [(0x61, longA), (0x62, longB)] ≤ 510 ∧
    510 < dtNeed ([(0x61, longA), (0x62, longB)] ++ [(0x63, longC)]) := by
  constructor
  · refine Nat.le_trans (List.dedup_sublist _).length_le ?_
    decide +kernel
  · have hA : ((List.range' 1 255).map longA.take).Nodup := List.Nodup.map_on (by
      intro i hi j hj h
      have := congrArg List.length h
      have hl : longA.length = 255 := by decide +kernel
      rw [List.mem_range'_1] at hi hj
      simp only [List.length_take, hl] at this
      omega) List.nodup_range'
    have hB : ((List.range' 1 255).map longB.take).Nodup := List.Nodup.map_on (by
      intro i hi j hj h
      have := congrArg List.length h
      have hl : longB.length = 255 := by decide +kernel
      rw [List.mem_range'_1] at hi hj
      simp only [List.length_take, hl] at this
      omega) List.nodup_range'
    have hall : ([true, true] :: ((List.range' 1 255).map longA.take ++ (List.range' 1 255).map longB.take)).Nodup := by
      rw [List.nodup_cons, List.nodup_append]
      refine ⟨?_, hA, hB, ?_⟩
      · decide +kernel
      · have ha : ∀ x ∈ (List.range' 1 255).map longA.take, x.head? = some false := by decide +kernel
        have hb : ∀ x ∈ (List.range' 1 255).map longB.take, x.head? = some true := by decide +kernel
        rintro x hx y hy rfl
        have := (ha x hx).symm.trans (hb x hy)
        cases this
    have hsub : ([true, true] :: ((List.range' 1 255).map longA.take ++ (List.range' 1 255).map longB.take)) ⊆
        (([(0x61, longA), (0x62, longB)] ++ [((0x63 : Symbol), longC)]).flatMap (fun e : Symbol × Code => e.2.inits.tail)).dedup := by
      have htake : ∀ (d : Code), d.length = 255 → ∀ q ∈ (List.range' 1 255).map d.take, q ∈ d.inits.tail := by
        intro d hd q hq
        obtain ⟨i, hi, rfl⟩ := List.mem_map.mp hq
        rw [List.mem_range'_1] at hi
        refine (mem_inits_tail _ _).mpr ⟨fun h0 => ?_, List.take_prefix _ _⟩
        have := congrArg List.length h0
        simp only [List.length_take, List.length_nil] at this
        omega
      intro q hq
      rw [List.mem_dedup, List.mem_flatMap]
      rcases List.mem_cons.mp hq with rfl | hq
      · exact ⟨((0x63 : Symbol), longC), by simp, (mem_inits_tail _ _).mpr ⟨by decide, by decide +kernel⟩⟩
      · rcases List.mem_append.mp hq with hq | hq
        · exact ⟨((0x61 : Symbol), longA), by simp, htake _ (by decide +kernel) _ hq⟩
        · exact ⟨((0x62 : Symbol), longB), by simp, htake _ (by decide +kernel) _ hq⟩
    have := (hall.subperm hsub).length_le
    simp only [List.length_cons, List.length_append, List.length_map, List.length_range'] at this
    unfold dtNeed
    omega

/-- The bytes of the three long codes: 32 each, the last bit of the last a pad bit. -/
theorem entry_long (x : Symbol) (c : Code) (h : c.length = 255) : entryBytes (x, c) (x :: 255 :: pack c) :=
  ⟨pack c, by simp [h], by simp, prefix_bitsOf_pack c⟩

theorem fits_long : tableFits [(0x61, longA), (0x62, longB)] :=
  ⟨by decide +kernel, by decide, by simp [apart]; decide +kernel, longs_need.1⟩

theorem witness_DecodeTableFaults_overflow :
    frameInIbuf (withInput (frameBytes 3 3 [0x61 :: 255 :: pack longA, 0x62 :: 255 :: pack longB] (0x63 :: 255 :: pack longC)))
      108 3 3 [(0x61, longA), (0x62, longB)] ((0x63 :: 255 :: pack longC) ++ []) ∧
    tableFits [(0x61, longA), (0x62, longB)] ∧ entryBytes (0x63, longC) (0x63 :: 255 :: pack longC) ∧
    (∀ f ∈ [((0x61 : Symbol), longA), (0x62, longB)], apart f.2 longC) ∧
    510 < dtNeed ([(0x61, longA), (0x62, longB)] ++ [(0x63, longC)]) := by
  refine ⟨?_, fits_long, entry_long _ _ (by decide +kernel), ?_, longs_need.2⟩
  · rw [List.append_nil]
    exact frame_withInput _ 3 3 _ _ _
      (.cons (entry_long _ _ (by decide +kernel)) (.cons (entry_long _ _ (by decide +kernel)) .nil)) (by decide +kernel)
  · unfold apart
    decide +kernel

/-- NSYM one above OBUF_SIZE. -/
theorem witness_DecodeTestsCapacity : frameInIbuf (withInput (frameBytes 65537 1 [[0x61, 1, 0x00]] []))
      9 65537 1 [(0x61, [false])] [] ∧ tableFits [(0x61, [false])] ∧ State.reset.cfg.obufSize.toNat < 65537 :=
  ⟨frame_withInput _ 65537 1 _ _ _ (.cons entry_a .nil) (by decide), fits_a, by decide⟩

/-- Entries out of order, pad bits set, and a byte after the body (R191). -/
theorem witness_DecodeReproducesSymbols :
    frameInIbuf (withInput (frameBytes 3 2 [[0x62, 1, 0xFF], [0x61, 1, 0x00]] [0xBF, 0x11]))
      14 3 2 [(0x62, [true]), (0x61, [false])] [0xBF, 0x11] ∧
    tableFits [(0x62, [true]), (0x61, [false])] ∧ 3 ≤ State.reset.cfg.obufSize.toNat ∧
    codesUnder [(0x62, [true]), (0x61, [false])] [0x62, 0x61, 0x62] [true, false, true] ∧
    [true, false, true] <+: bitsOf [0xBF, 0x11] :=
  ⟨frame_withInput _ 3 2 _ _ _ (.cons entry_b (.cons entry_a .nil)) (by decide),
    ⟨by decide, by decide, by simp [apart], by decide +kernel⟩, by decide,
    ⟨[true], _, by simp, rfl, [false], _, by simp, rfl, [true], [], by simp, rfl, rfl⟩, by decide⟩

theorem entry_c : entryBytes (0x63, [true, true]) [0x63, 2, 0xC0] := ⟨[0xC0], rfl, by decide, by decide⟩

theorem fits_ac : tableFits [(0x61, [false]), (0x63, [true, true])] :=
  ⟨by decide, by decide, by simp [apart], by decide +kernel⟩

theorem frame_broken (m : Imm) (n l : Nat) (es : List (Symbol × Code)) (parts : List (List Byte)) (got : List Byte)
    (he : List.Forall₂ entryBytes es parts)
    (h : m ≤ 65536#32 ∧ 1 ≤ n ∧ n < 2 ^ 32 ∧ 1 ≤ l ∧ l ≤ 256 ∧ (frameBytes n l parts got).length < m.toNat) :
    frameBreaksOff (withInput (frameBytes n l parts got)) m n l es got (frameBytes n l parts got).length :=
  ⟨h.1, h.2.1, h.2.2.1, h.2.2.2.1, h.2.2.2.2.1, _, ⟨parts, he, rfl⟩, rfl, h.2.2.2.2.2, ibufHolds_withInput _, by
    rw [show (withInput (frameBytes n l parts got)).ibuf = buf (frameBytes n l parts got) from rfl, memGet_buf]
    simp⟩

/-- The second fixed byte of an entry is not written. -/
theorem witness_UnwrittenByte_decode_entry : frameBreaksOff (withInput (frameBytes 1 2 [[0x61, 1, 0x00]] [0x62]))
      11 1 2 [(0x61, [false])] [0x62] 10 ∧ tableFits [(0x61, [false])] ∧ 10 - 1 + 2 ≤ (11 : Imm).toNat :=
  ⟨frame_broken 11 1 2 _ _ [0x62] (.cons entry_a .nil) (by decide), fits_a, by decide⟩

/-- The second code byte of an entry of 9 bits is not written. -/
theorem witness_UnwrittenByte_decode_code : frameBreaksOff (withInput (frameBytes 1 2 [[0x61, 1, 0x00]] [0x62, 9, 0x80]))
      13 1 2 [(0x61, [false])] [0x62, 9, 0x80] 12 ∧ tableFits [(0x61, [false])] ∧ (0x62 : Symbol) ∉ [(0x61 : Symbol)] ∧
    12 - 1 + ((9 : Byte).toNat + 7) / 8 ≤ (13 : Imm).toNat ∧ ¬ [false] <+: bitsOf [0x80] ∧
    dtNeed ([(0x61, [false])] ++ [(0x62, bitsOf [0x80])]) ≤ 510 :=
  ⟨frame_broken 13 1 2 _ _ [0x62, 9, 0x80] (.cons entry_a .nil) (by decide), fits_a, by decide, by decide, by decide,
    by decide +kernel⟩

/-- Seven 'a', the first bit of the code of 'c', and the next body byte is not written. -/
theorem witness_UnwrittenByte_decode_body :
    frameBreaksOff (withInput (frameBytes 8 2 [[0x61, 1, 0x00], [0x63, 2, 0xC0]] [0x01]))
      14 8 2 [(0x61, [false]), (0x63, [true, true])] [0x01] 13 ∧ tableFits [(0x61, [false]), (0x63, [true, true])] ∧
    codesUnder [(0x61, [false]), (0x63, [true, true])] (List.replicate 7 0x61) (List.replicate 7 false) ∧
    bitsOf [0x01] = List.replicate 7 false ++ [true] ∧ ([true] <+: [true, true] ∧ [true] ≠ [true, true]) ∧ 7 < 8 :=
  ⟨frame_broken 14 8 2 _ _ [0x01] (.cons entry_a (.cons entry_c .nil)) (by decide), fits_ac,
    ⟨[false], _, by simp, rfl, [false], _, by simp, rfl, [false], _, by simp, rfl, [false], _, by simp, rfl,
      [false], _, by simp, rfl, [false], _, by simp, rfl, [false], [], by simp, rfl, rfl⟩,
    by decide, by decide, by decide⟩

/-- A refusal, for the last clause. -/
theorem witness_UnwrittenByte_refused : ∃ r, exec (.count 3) (withInput [0x61, 0x62]) = .refused r := ⟨_, rfl⟩

/-- Seven 'a', the first bit of the code of 'c', and the body is at its end. -/
theorem witness_DecodeTruncatedBody :
    frameInIbuf (withInput (frameBytes 8 2 [[0x61, 1, 0x00], [0x63, 2, 0xC0]] [0x01]))
      13 8 2 [(0x61, [false]), (0x63, [true, true])] [0x01] ∧ tableFits [(0x61, [false]), (0x63, [true, true])] ∧
    codesUnder [(0x61, [false]), (0x63, [true, true])] (List.replicate 7 0x61) (List.replicate 7 false) ∧
    bitsOf [0x01] = List.replicate 7 false ++ [true] ∧ ([true] <+: [true, true] ∧ [true] ≠ [true, true]) ∧ 7 < 8 :=
  ⟨frame_withInput _ 8 2 _ _ _ (.cons entry_a (.cons entry_c .nil)) (by decide), fits_ac,
    ⟨[false], _, by simp, rfl, [false], _, by simp, rfl, [false], _, by simp, rfl, [false], _, by simp, rfl,
      [false], _, by simp, rfl, [false], _, by simp, rfl, [false], [], by simp, rfl, rfl⟩,
    by decide, by decide, by decide⟩

/-- One 'a', the first bit of the code of 'c', and then a bit that leads nowhere. -/
theorem witness_DecodeInvalidWalk :
    frameInIbuf (withInput (frameBytes 2 2 [[0x61, 1, 0x00], [0x63, 2, 0xC0]] [0x40]))
      13 2 2 [(0x61, [false]), (0x63, [true, true])] [0x40] ∧ tableFits [(0x61, [false]), (0x63, [true, true])] ∧
    codesUnder [(0x61, [false]), (0x63, [true, true])] [0x61] [false] ∧ [false] ++ [true] ++ [false] <+: bitsOf [0x40] ∧
    ([true] <+: [true, true] ∧ [true] ≠ [true, true]) ∧
    ∀ e ∈ [((0x61 : Symbol), [false]), (0x63, [true, true])], ¬ [true] ++ [false] <+: e.2 :=
  ⟨frame_withInput _ 2 2 _ _ _ (.cons entry_a (.cons entry_c .nil)) (by decide), fits_ac,
    ⟨[false], [], by simp, rfl, rfl⟩, by decide, by decide, by decide⟩

/-- Two states that agree on the frame and on nothing else. -/
theorem witness_DecodeReadsFrameAlone :
    (∀ a, a < (24 : Imm).toNat → memGet (withInput abraFrame).ibuf a = memGet (buf (abraFrame ++ [1])) a) ∧
    (after [.decode 24] (withInput abraFrame)).isSome ∧
    (after [.decode 24] { tableAb with ibuf := buf (abraFrame ++ [1]), obuf := buf [7] }).isSome := by decide +kernel

/-- The frame of the one symbol 'a' has 10 bytes: OBUF_SIZE 10 holds it and 9 does not. -/
theorem witness_CompressRuns : (1 : Imm) ≠ 0 ∧ (1 : Imm) ≤ (sized 1 10 [0x61]).cfg.ibufSize ∧
    (sized 1 10 [0x61]).fault = false ∧ ibufHolds (sized 1 10 [0x61]) [0x61] ∧
    (match acceptWords [encode (.count 1), encode .build, encode .gen] (sized 1 10 [0x61]) with
     | .next t1 => (frameOf t1.ct [0x61]).length == 10
     | _ => false) = true ∧
    (match acceptWords (compressWords 1) (sized 1 10 [0x61]) with
     | .next t => !t.fault && t.olen == 10
     | _ => false) = true ∧
    ibufHolds (sized 1 9 [0x61]) [0x61] ∧
    (match acceptWords (compressWords 1) (sized 1 9 [0x61]) with
     | .next t => t.err == 0x0206 && t.olen == 0
     | _ => false) = true :=
  ⟨by decide, by decide, rfl, fun a _ => memGet_buf _ a, by decide +kernel, by decide +kernel,
    fun a _ => memGet_buf _ a, by decide +kernel⟩

/-- "abracadabra" compressed, as V-E1 has it. -/
theorem witness_CompressThenDecodeRoundTrip :
    (match acceptWords (compressWords 11) (withInput abra) with
     | .next t => !t.fault && t.olen == 24 && output t == abraFrame.map some
     | _ => false) = true ∧
    obufHolds { State.reset with obuf := buf abraFrame } abraFrame ∧ ibufHolds (withInput abraFrame) abraFrame ∧
    (24 : Imm) ≤ (withInput abraFrame).cfg.ibufSize ∧ (11 : Imm) ≤ (withInput abraFrame).cfg.obufSize :=
  ⟨by decide +kernel, obufHolds_buf _ _, ibufHolds_withInput _, by decide, by decide⟩

/-- From a state that holds a table and a tree of other input, COMPRESS of the same bytes completes too, and with an
OBUF that is too small it faults; and of one symbol repeated it gives one bit a symbol. -/
theorem witness_CompressDependsOnInputAlone_and_CountsBodyBits :
    (match acceptWords (compressWords 11) { tableAb with ibuf := buf (abra ++ [1]) } with
     | .next t => !t.fault && t.olen == 24
     | _ => false) = true ∧
    (match acceptWords (compressWords 11) { tableAb with ibuf := buf abra, cfg := { ibufSize := 16, obufSize := 23 } } with
     | .next t => t.err == 0x0206 && t.errinfo == 0
     | _ => false) = true ∧
    (match acceptWords (compressWords 3) (withInput [0x61, 0x61, 0x61]) with
     | .next t => !t.fault && t.tbits == 3
     | _ => false) = true ∧
    (∀ a, a < (11 : Imm).toNat → memGet (withInput abra).ibuf a = memGet (buf (abra ++ [1])) a) := by decide +kernel

theorem witness_FaultsArePrecise : State.reset.fault = false ∧
    (after [.gen] State.reset).map State.fault = some true ∧
    (after [.encode 3] { tableAb with ibuf := buf [0x61, 0x62, 0x63] }).map State.fault = some true := by decide +kernel

theorem witness_ResetLeavesAllClear : 11 < 12 ∧ (readReg (State.resetWith { ibufSize := 1, obufSize := 1 }) 11).isSome := by decide

/-- The last byte of each buffer and the first address beyond it; a written and an unwritten byte of IBUF; the last
defined byte of OBUF and the first that is not; and a read of each kind that answers. -/
theorem witness_HostAccessesBuffersAndRegisters : 15 < (sized 16 16 []).cfg.ibufSize.toNat ∧
    memGet (sized 16 16 (List.replicate 16 0x61)).ibuf 15 = some 0x61 ∧ memGet (sized 16 16 []).ibuf 15 = none ∧
    (sized 16 16 []).cfg.ibufSize.toNat ≤ 16 ∧ (sized 16 16 []).cfg.obufSize.toNat ≤ 16 ∧
    (0 < ({ sized 16 1 [] with olen := 1, obuf := buf [7] } : State).cfg.obufSize.toNat ∧
      memGet (buf [7]) 0 = some 7 ∧ 0 < (1 : BitVec 32).toNat) ∧
    (0 < (sized 16 1 []).cfg.obufSize.toNat ∧ (sized 16 1 []).olen.toNat ≤ 0) ∧
    (readReg State.reset 11 = some 0 ∧ readReg State.reset 12 = none) := by decide +kernel

theorem witness_HostAccesses_rereads : (∃ t, hostAct (.readIbuf 15) (sized 16 16 []) = .next t) ∧
    (∃ t, hostAct (.readReg 11) State.reset = .next t) ∧
    ∃ t, hostAct (.readObuf 0) { sized 16 1 [] with olen := 1, obuf := buf [7] } = .next t := ⟨⟨_, rfl⟩, ⟨_, rfl⟩, ⟨_, rfl⟩⟩

theorem witness_CommandsWriteOnlyTheirProducts : (after [.encode 2] tableAb).isSome ∧ (after [.build] treeAb).isSome ∧
    (after [.gen] treeAb).isSome ∧ (after [.decode 24] (withInput abraFrame)).isSome := by decide +kernel

/-- A rise of each flag, a changed FT, a changed NODE, and a fault. -/
theorem witness_ValidFlagsFollowStages :
    (after [.build] { treeAb with treeValid := false, node := [] }).map (fun t => (t.treeValid, t.node == [])) = some (true, false) ∧
    (after [.gen] treeAb).map State.ctValid = some true ∧
    (after [.ldf 0x63 1] tableAb).map (fun t => (t.ft == tableAb.ft, statusWord t)) = some (false, 0) ∧
    (after [.count 0] tableAb).map statusWord = some 7 := by decide +kernel

theorem readable_of (m : Imm) (bs : List Byte) (h : m.toNat ≤ bs.length) : readable (.count m) (withInput bs) ∧
    readable (.encode m) (withInput bs) ∧ readable (.decode m) (withInput bs) := by
  have hb : ∀ a, a < m.toNat → (memGet (buf bs) a).isSome := by
    intro a ha
    rw [memGet_buf]
    simp only [Option.isSome_iff_exists]
    exact ⟨bs[a], by rw [List.getElem?_eq_getElem]⟩
  exact ⟨fun _ => hb, fun _ => hb, fun _ => hb⟩

theorem witness_EveryCommandEnds : treeAb.treeOk ∧ State.reset.treeOk ∧ readable .gen treeAb ∧
    readable (.decode 24) (withInput abraFrame) :=
  ⟨witness_GenRecordsPaths.2.1, fun h => (by cases h), trivial, (readable_of 24 abraFrame (by decide)).2.2⟩

/-- `tableAb` with a written frame has every invariant, and steps under a command that changes it. -/
theorem witness_invariants : tableAb.r43 ∧ tableAb.canonical ∧
    ({ tableAb with olen := 1, obuf := buf [7] } : State).outputDefined ∧
    (match step (tableAb.withFetchWord 64 0x0261000000000005) with
     | .next t => t.ft == [(97, 5), (98, 1)] && !t.treeValid
     | _ => false) = true := by
  refine ⟨⟨fun _ => ⟨rfl, rfl⟩, fun h => (by cases h), fun _ => rfl, fun _ => witness_GenRecordsPaths.2.1 rfl, fun _ => ⟨?_, ?_⟩⟩,
    by unfold State.canonical; decide +kernel, ⟨by decide, ?_⟩, by decide +kernel⟩
  · decide +kernel
  · intro sym h
    rw [if_neg (by decide +kernel)]
    have hs : sym = 0x61 ∨ sym = 0x62 := by
      revert h
      revert sym
      decide +kernel
    rcases hs with rfl | rfl
    · exact ⟨0, { kind := .leaf, sym := 0x61, freq := 1, left := 511, right := 511 }, by decide, by decide, rfl, rfl⟩
    · exact ⟨1, { kind := .leaf, sym := 0x62, freq := 1, left := 511, right := 511 }, by decide, by decide, rfl, rfl⟩
  · intro a ha
    have : a = 0 := by simpa using ha
    subst this
    rfl

/-- Reset meets the invariants, at the smallest sizes too. -/
theorem witness_FaultLatch_invariants : faulted.latchClear ∧ faulted.latchSet ∧ faulted.tableNeedsTree :=
  ⟨fun h => (by cases h), fun _ => ⟨rfl, by decide, by decide⟩, fun h => (by cases h)⟩

theorem witness_InternalLayoutsRoundTrip : longA.length ≤ 255 ∧ 254 < longA.length ∧ ([] : Code).length ≤ 255 := by decide +kernel

end Sys2Proof.Tests
end

section
/-! How a command that answers a next state can have ended, said once for all eight commands; what it leaves
unchanged and what it may change follow from that. -/

namespace Sys2Proof.Machine

open Sys2Proof

/-- How command `i`, run in `s`, can have ended in the next state: with its product, with a fault a test raised
before anything was written (R229), or with a fault raised while ENCODE or DECODE was writing OBUF (R230). Which tests
a command has, and in which order, is said by `execCount_next` and its like. -/
inductive CommandEnds (s : State) : Instr → State → Prop
  | nop : CommandEnds s .nop s
  | clr : CommandEnds s .clr (clearBlock s)
  | ldf (sym : Symbol) (n : Imm) : CommandEnds s (.ldf sym n) (dropTree { s with ft := ftPut s.ft sym n })
  | count {n : Imm} {ft : Tab Count} (hft : countLoop s.ibuf n.toNat 0 [] = .ok ft) :
      CommandEnds s (.count n) (dropTree { s with ft := ft })
  | build {m : Merge} (hl : ndist s.ft ≠ 0) (hm : mergeLoop (ndist s.ft - 1) (mergeStart s) = m) :
      CommandEnds s .build (setTree { s with
        node := m.node, root := m.pq.headD 0, nnodes := BitVec.ofNat 9 (2 * ndist s.ft - 1),
        rootf := freqAt m.node (m.pq.headD 0) })
  | gen {ct : Tab Code} (htree : s.treeValid = true) (hct : codesOf s.node s.root = some ct) :
      CommandEnds s .gen (setTable { s with ct := ct })
  | encode {n : Imm} {ps : PackState}
      (hps : writeFrame s.ct s.ibuf s.cfg.obufSize.toNat n.toNat s.obuf = .ok ps) :
      CommandEnds s (.encode n)
        { s with obuf := ps.obuf, olen := BitVec.ofNat 32 ps.wp, tbits := BitVec.ofNat 48 ps.total }
  | decode {m : Imm} {n : Nat} {w : Walk} (hw : readFrame s.ibuf s.cfg.obufSize.toNat m.toNat s.obuf = .ok (n, w)) :
      CommandEnds s (.decode m) { s with obuf := w.obuf, olen := BitVec.ofNat 32 n }
  | testFault (i : Instr) (c : Cause) : CommandEnds s i (raise c s)
  | encodeFault {n : Imm} {c : Cause} {obuf : Memory}
      (he : writeFrame s.ct s.ibuf s.cfg.obufSize.toNat n.toNat s.obuf = .error (.raised c obuf)) :
      CommandEnds s (.encode n) (raise c { s with obuf := obuf })
  | decodeFault {m : Imm} {c : Cause} {obuf : Memory}
      (he : readFrame s.ibuf s.cfg.obufSize.toNat m.toNat s.obuf = .error (.raised c obuf)) :
      CommandEnds s (.decode m) (raise c { s with obuf := obuf })

/-- Every next state of a command is one of those ends. -/
theorem exec_ends (i : Instr) (s t : State) (h : exec i s = .next t) : CommandEnds s i t := by
  cases i with
  | nop =>
    obtain rfl := execNop_next s t h
    exact .nop
  | clr =>
    obtain rfl := execClr_next s t h
    exact .clr
  | ldf sym n =>
    obtain rfl := execLdf_next sym n s t h
    exact .ldf sym n
  | count n =>
    obtain ⟨_, rfl⟩ | ⟨_, _, rfl⟩ | ⟨_, _, ft, hft, rfl⟩ := execCount_next n s t h
    · exact .testFault _ _
    · exact .testFault _ _
    · exact .count hft
  | build =>
    obtain ⟨_, rfl⟩ | ⟨hl, rfl⟩ := execBuild_next s t h
    · exact .testFault _ _
    · exact .build hl rfl
  | gen =>
    obtain ⟨_, rfl⟩ | ⟨htree, ct, hct, rfl⟩ := execGen_next s t h
    · exact .testFault _ _
    · exact .gen htree hct
  | encode n =>
    obtain ⟨_, rfl⟩ | ⟨_, _, rfl⟩ | ⟨_, _, _, rfl⟩ | ⟨_, _, _, ⟨c, obuf, he, rfl⟩ | ⟨ps, hps, rfl⟩⟩ :=
      execEncode_next n s t h
    · exact .testFault _ _
    · exact .testFault _ _
    · exact .testFault _ _
    · exact .encodeFault he
    · exact .encode hps
  | decode m =>
    obtain ⟨_, rfl⟩ | ⟨_, ⟨c, obuf, he, rfl⟩ | ⟨n, w, hw, rfl⟩⟩ := execDecode_next m s t h
    · exact .testFault _ _
    · exact .decodeFault he
    · exact .decode hw

/-! ### What a command leaves unchanged -/

namespace CommandEnds

variable {i : Instr} {s t : State}

theorem outsideSame (h : CommandEnds s i t) : outsideSame s t := by
  cases h <;> exact ⟨rfl, rfl, rfl, rfl, rfl, rfl⟩

theorem cmdcnt (h : CommandEnds s i t) : t.cmdcnt = s.cmdcnt := by
  cases h <;> rfl

theorem node (h : CommandEnds s i t) (hi : i ≠ .build) : t.node = s.node := by
  cases h with
  | build => exact absurd rfl hi
  | _ => rfl

theorem rootRegisters (h : CommandEnds s i t) (hb : i ≠ .build) (hc : i ≠ .clr) :
    t.root = s.root ∧ t.nnodes = s.nnodes ∧ t.rootf = s.rootf := by
  cases h with
  | build => exact absurd rfl hb
  | clr => exact absurd rfl hc
  | _ => exact ⟨rfl, rfl, rfl⟩

theorem ft (h : CommandEnds s i t) (hn : ∀ n, i ≠ .count n) (hl : ∀ sym n, i ≠ .ldf sym n) (hc : i ≠ .clr) :
    t.ft = s.ft := by
  cases h with
  | count => exact absurd rfl (hn _)
  | ldf => exact absurd rfl (hl _ _)
  | clr => exact absurd rfl hc
  | _ => rfl

theorem ct (h : CommandEnds s i t) (hg : i ≠ .gen) (hc : i ≠ .clr) : t.ct = s.ct := by
  cases h with
  | gen => exact absurd rfl hg
  | clr => exact absurd rfl hc
  | _ => rfl

theorem tbits (h : CommandEnds s i t) (he : ∀ n, i ≠ .encode n) (hc : i ≠ .clr) : t.tbits = s.tbits := by
  cases h with
  | encode => exact absurd rfl (he _)
  | clr => exact absurd rfl hc
  | _ => rfl

theorem olen (h : CommandEnds s i t) (hf : t.fault = false) (he : ∀ n, i ≠ .encode n) (hd : ∀ m, i ≠ .decode m)
    (hc : i ≠ .clr) : t.olen = s.olen := by
  cases h with
  | encode => exact absurd rfl (he _)
  | decode => exact absurd rfl (hd _)
  | clr => exact absurd rfl hc
  | testFault | encodeFault | decodeFault => simp at hf
  | _ => rfl

theorem obuf (h : CommandEnds s i t) (he : ∀ n, i ≠ .encode n) (hd : ∀ m, i ≠ .decode m) : t.obuf = s.obuf := by
  cases h with
  | encode | encodeFault => exact absurd rfl (he _)
  | decode | decodeFault => exact absurd rfl (hd _)
  | _ => rfl

/-- What every write of one OBUF byte below OBUF_SIZE keeps, a command keeps of OBUF (R62). -/
theorem obuf_keeps (h : CommandEnds s i t) (P : Memory → Prop) (h0 : P s.obuf)
    (hput : ∀ a v obuf, a < s.cfg.obufSize.toNat → P obuf → P (memPut obuf a v)) : P t.obuf := by
  have hwrite n := writeFrame_keeps s.ct s.ibuf s.obuf s.cfg.obufSize.toNat n P h0 hput
  have hread m := readFrame_within s.ibuf s.cfg.obufSize.toNat m s.obuf (fun _ => P) h0 hput
  cases h with
  | encode hps => exact (hwrite _).2 _ hps
  | encodeFault he => exact (hwrite _).1 _ _ he
  | decode hw => exact ((hread _).2 _ _ hw).2.2
  | decodeFault he =>
    obtain ⟨_, hP⟩ := (hread _).1 _ he
    exact hP
  | _ => exact h0

theorem memGet_obuf_above (h : CommandEnds s i t) (a : Nat) (ha : s.cfg.obufSize.toNat ≤ a) :
    memGet t.obuf a = memGet s.obuf a :=
  h.obuf_keeps (fun obuf => memGet obuf a = memGet s.obuf a) rfl fun b v obuf hb hP => by
    rw [memGet_memPut_ne obuf v (by omega), hP]

/-! ### How a command moves the two valid flags (R23, R255) -/

theorem treeValid_rises (h : CommandEnds s i t) (hs : s.treeValid = false) (ht : t.treeValid = true) :
    i = .build ∧ t.ctValid = false := by
  cases h with
  | build => exact ⟨rfl, rfl⟩
  | _ => simp_all

theorem ctValid_rises (h : CommandEnds s i t) (hs : s.ctValid = false) (ht : t.ctValid = true) :
    i = .gen ∧ s.treeValid = true ∧ t.treeValid = true := by
  cases h with
  | gen htree => exact ⟨rfl, htree, htree⟩
  | _ => simp_all

theorem flags_of_ft_ne (h : CommandEnds s i t) (hne : t.ft ≠ s.ft) : t.treeValid = false ∧ t.ctValid = false := by
  cases h with
  | clr | ldf | count => exact ⟨rfl, rfl⟩
  | _ => exact absurd rfl hne

theorem ctValid_of_node_ne (h : CommandEnds s i t) (hne : t.node ≠ s.node) : t.ctValid = false := by
  cases h with
  | build => rfl
  | _ => exact absurd rfl hne

theorem flags_of_fault (h : CommandEnds s i t) (hs : s.fault = false) (ht : t.fault = true) :
    t.treeValid = s.treeValid ∧ t.ctValid = s.ctValid := by
  cases h with
  | testFault | encodeFault | decodeFault => exact ⟨rfl, rfl⟩
  | _ => simp_all

end CommandEnds

/-! ### The host's other actions (R258) -/

/-- What an action that is no command word does: a reset, a write of IBUF, or an answer to the host. -/
theorem hostAct_next (a : HostAct) (s t : State) (hcmd : ∀ w, a ≠ .command w) (h : hostAct a s = .next t) :
    (a = .reset ∧ t = resetBlock s) ∨
    (a ≠ .reset ∧ ((∃ ibuf, t = { s with ibuf := ibuf }) ∨ ∃ r k, t = { s with reply := r, freeCtr := k })) := by
  cases a with
  | command w => exact absurd rfl (hcmd w)
  | reset => exact .inl ⟨rfl, by simpa [hostAct, eq_comm] using h⟩
  | writeObuf a v => cases h
  | writeReg r v => cases h
  | writeIbuf a v =>
    simp only [hostAct] at h
    split at h
    · cases h
    · cases h
      exact .inr ⟨by simp, .inl ⟨_, rfl⟩⟩
  | readIbuf a =>
    simp only [hostAct] at h
    split at h
    · cases h
    · cases h
      exact .inr ⟨by simp, .inr ⟨_, s.freeCtr, rfl⟩⟩
  | readObuf a =>
    simp only [hostAct] at h
    split at h
    · cases h
    · cases h
      refine .inr ⟨by simp, .inr ?_⟩
      cases obufDefined s a with
      | none => exact ⟨_, _, rfl⟩
      | some b => exact ⟨_, s.freeCtr, rfl⟩
  | readReg r =>
    simp only [hostAct] at h
    split at h
    · cases h
      exact .inr ⟨by simp, .inr ⟨_, s.freeCtr, rfl⟩⟩
    · cases h

theorem acceptWord_cmdcnt (w : CmdWord) (s t : State) (h : acceptWord w s = .next t) : t.cmdcnt = s.cmdcnt + 1 := by
  obtain ⟨_, _, rfl⟩ | ⟨_, _, rfl⟩ | ⟨_, i, _, hi⟩ | ⟨_, e, _, rfl⟩ := acceptWord_next w s t h
  · rfl
  · rfl
  · exact (exec_ends i _ t hi).cmdcnt
  · rfl

/-- Settles O10: a word is counted before it is executed, and no end of a command touches CMDCNT. -/
theorem cmdcntCountsAcceptedWords : Obligations.CmdcntCountsAcceptedWords := by
  unfold Obligations.CmdcntCountsAcceptedWords
  refine ⟨fun w s t h => ?_, fun i s t h => (exec_ends i s t h).cmdcnt, fun a s t hcmd h => ?_⟩
  · rw [acceptWord_cmdcnt w s t h]
    exact BitVec.toNat_add ..
  · obtain ⟨rfl, rfl⟩ | ⟨hne, ⟨_, rfl⟩ | ⟨_, _, rfl⟩⟩ := hostAct_next a s t hcmd h
    · rfl
    · rw [if_neg hne]
    · rw [if_neg hne]

/-- Settles O52, by the ends of the commands, one frame lemma for each clause. -/
theorem commandsWriteOnlyTheirProducts : Obligations.CommandsWriteOnlyTheirProducts := by
  unfold Obligations.CommandsWriteOnlyTheirProducts
  intro i s t hexec
  have h := exec_ends i s t hexec
  exact ⟨h.outsideSame, h.node, h.rootRegisters, h.ft, h.ct, h.tbits, h.olen, h.obuf, h.memGet_obuf_above⟩

/-- Settles O53, by the ends of the commands. -/
theorem validFlagsFollowStages : Obligations.ValidFlagsFollowStages := by
  unfold Obligations.ValidFlagsFollowStages
  intro i s t hf hexec
  have h := exec_ends i s t hexec
  exact ⟨h.treeValid_rises, h.ctValid_rises, h.flags_of_ft_ne, h.ctValid_of_node_ne, h.flags_of_fault hf⟩

end Sys2Proof.Machine
end

section
/-! What every step keeps: R43, the canonical form and the defined output, each from what the ends of a command
and the other host actions keep. -/

namespace Sys2Proof.Machine

open Sys2Proof

/-! ### R43 (a), (b), (c): the latch and the order of the flags -/

theorem causeClass_bounds (c : Cause) : 1 ≤ (causeClass c).toNat ∧ (causeClass c).toNat ≤ 6 := by
  cases c <;> simp [causeClass]

/-- ERR[7:0] of a cause is its class (R24). -/
theorem causeErr_class (c : Cause) : (causeErr c).extractLsb' 0 8 = causeClass c := by
  rw [causeErr, BitVec.extractLsb'_append_eq_right]

theorem raise_latchClear (c : Cause) (s : State) : (raise c s).latchClear := by
  simp [State.latchClear]

/-- A fault's ERR[7:0] is its class, 1 to 6 (R220, R226). -/
theorem raise_latchSet (c : Cause) (s : State) : (raise c s).latchSet := by
  intro _
  rw [raise_err, causeErr_class]
  exact ⟨rfl, causeClass_bounds c⟩

namespace CommandEnds

variable {i : Instr} {s t : State}

theorem latchClear (h : CommandEnds s i t) (hs : s.latchClear) : t.latchClear := by
  cases h with
  | clr => exact fun _ => ⟨rfl, rfl⟩
  | testFault | encodeFault | decodeFault => exact raise_latchClear _ _
  | _ => exact hs

/-- A command that ends with FAULT = 1 from FAULT = 0 has raised it. -/
theorem latchSet (h : CommandEnds s i t) (hf : s.fault = false) : t.latchSet := by
  cases h with
  | testFault | encodeFault | decodeFault => exact raise_latchSet _ _
  | _ => simp [State.latchSet, hf]

theorem tableNeedsTree (h : CommandEnds s i t) (hs : s.tableNeedsTree) : t.tableNeedsTree := by
  cases h with
  | clr | ldf | count | build => simp [State.tableNeedsTree]
  | gen htree => exact fun _ => htree
  | _ => exact hs

end CommandEnds

/-- Settles O57: fault entry sets the latch with a class of 1 to 6, CLR and reset clear it, and a flag falls before
what it vouches for changes. -/
theorem stepKeepsLatchAndFlagRules : Obligations.StepKeepsLatchAndFlagRules := by
  unfold Obligations.StepKeepsLatchAndFlagRules
  refine step_keeps _ (fun _ _ h => h) (fun _ h => h) ?clr ?raise ?exec (fun _ _ _ h _ => h) (fun _ _ _ h => h) ?reset
  case clr => simp [State.latchClear, State.latchSet, State.tableNeedsTree]
  case raise => exact fun c s ⟨_, _, hflags⟩ => ⟨raise_latchClear c s, raise_latchSet c s, hflags⟩
  case exec =>
    intro i s t hf ⟨hclear, _, hflags⟩ hexec
    have h := exec_ends i s t hexec
    exact ⟨h.latchClear hclear, h.latchSet hf, h.tableNeedsTree hflags⟩
  case reset => simp [State.latchClear, State.latchSet, State.tableNeedsTree]

/-! ### R43 (d), (e): the tree and the code table -/

theorem treeOk_of_not_valid {s : State} (h : s.treeValid = false) : s.treeOk := by
  simp [State.treeOk, h]

theorem tableOk_of_not_valid {s : State} (h : s.ctValid = false) : s.tableOk := by
  simp [State.tableOk, h]

/-- The finished merge loop ends with the tree's root, whose frequency is the sum of FT (R134, R136). -/
theorem Merged.root_freq {ft : Tab Count} {node0 : Tab Node} {m : Merge} (hl : 1 ≤ ndist ft)
    (hm : Merged ft node0 (ndist ft - 1) m) :
    (m.pq.headD 0).toNat = 2 * ndist ft - 2 ∧ (freqAt m.node (m.pq.headD 0)).toNat = ftSum ft := by
  obtain ⟨r, hr, hroot⟩ := hm.root hl
  have hsum := hm.sum
  rw [hr] at hsum ⊢
  exact ⟨hroot, by simpa [freqSum] using hsum⟩

namespace CommandEnds

variable {i : Instr} {s t : State}

theorem treeOk (h : CommandEnds s i t) (hs : s.treeOk) : t.treeOk := by
  cases h with
  | clr | ldf | count => exact treeOk_of_not_valid rfl
  | build hl hm =>
    have hl1 : 1 ≤ ndist s.ft := Nat.one_le_iff_ne_zero.mpr hl
    have hle := ndist_le s.ft
    have hmerged := build_merged s hl1
    rw [hm] at hmerged
    obtain ⟨hroot, hsum⟩ := hmerged.root_freq hl1
    exact fun _ => ⟨hl1, toNat_handle _ (by omega), hroot, hmerged.treeStands hl1, rfl, hsum⟩
  | _ => exact hs

theorem tableOk (h : CommandEnds s i t) (htree : s.treeOk) (hs : s.tableOk) : t.tableOk := by
  cases h with
  | clr | ldf | count | build => exact tableOk_of_not_valid rfl
  | gen hvalid hct =>
    obtain ⟨hl, _, hroot, hstands, _, _⟩ := htree hvalid
    obtain ⟨ct, hct', hkeys, _, _, _, hpaths⟩ := codesOf_spec hstands hl hroot
    cases hct.symm.trans hct'
    exact fun _ => ⟨hkeys, hpaths⟩
  | _ => exact hs

end CommandEnds

theorem step_keeps_treeOk_tableOk :
    ∀ s t : State, s.treeOk ∧ s.tableOk → step s = .next t → t.treeOk ∧ t.tableOk := by
  refine step_keeps _ (fun _ _ h => h) (fun _ h => h) ?clr (fun _ _ h => h) ?exec (fun _ _ _ h _ => h)
    (fun _ _ _ h => h) ?reset
  case clr => exact fun _ _ => ⟨treeOk_of_not_valid rfl, tableOk_of_not_valid rfl⟩
  case exec =>
    intro i s t _ ⟨htree, htable⟩ hexec
    have h := exec_ends i s t hexec
    exact ⟨h.treeOk htree, h.tableOk htree htable⟩
  case reset => exact fun _ _ => ⟨treeOk_of_not_valid rfl, tableOk_of_not_valid rfl⟩

/-- Settles O58: BUILD's merge loop ends with the tree of FT, GEN records the paths of that tree, and the other
commands keep both or drop their flags; the latch is O57's. -/
theorem stepKeepsR43 : Obligations.StepKeepsR43 := by
  unfold Obligations.StepKeepsR43
  intro s t ⟨hclear, hset, hflags, htree, htable⟩ hstep
  obtain ⟨hclear', hset', hflags'⟩ := stepKeepsLatchAndFlagRules s t ⟨hclear, hset, hflags⟩ hstep
  exact ⟨hclear', hset', hflags', step_keeps_treeOk_tableOk s t ⟨htree, htable⟩ hstep⟩

/-! ### The canonical form (the model's own: notes/assumptions/7.md) -/

theorem ftWf_nil : ftWf [] = true := rfl

theorem ctWf_nil : ctWf [] = true := rfl

theorem bufWf_nil (size : Nat) : bufWf size [] = true := rfl

namespace CommandEnds

variable {i : Instr} {s t : State}

theorem ftWf (h : CommandEnds s i t) (hs : ftWf s.ft) : ftWf t.ft := by
  cases h with
  | clr => exact ftWf_nil
  | ldf sym n => exact ftPut_ftWf s.ft sym n hs
  | count hft => exact countLoop_ftWf _ _ _ _ _ ftWf_nil hft
  | _ => exact hs

theorem nodeWf (h : CommandEnds s i t) (hs : tabWf 511 s.node) : tabWf 511 t.node := by
  cases h with
  | build hl hm => exact hm ▸ build_tabWf s hs
  | _ => exact hs

theorem ctWf (h : CommandEnds s i t) (hs : ctWf s.ct) : ctWf t.ct := by
  cases h with
  | clr => exact ctWf_nil
  | gen htree hct => exact codesOf_ctWf _ _ _ hct
  | _ => exact hs

theorem canonical (h : CommandEnds s i t) (hs : s.canonical) : t.canonical := by
  obtain ⟨hft, hnode, hct, hibuf, hobuf⟩ := hs
  obtain ⟨hcfg, hsame, _⟩ := h.outsideSame
  refine ⟨h.ftWf hft, h.nodeWf hnode, h.ctWf hct, ?_, ?_⟩
  · rwa [hcfg, hsame]
  · rw [hcfg]
    exact h.obuf_keeps (fun obuf => bufWf s.cfg.obufSize.toNat obuf) hobuf
      fun a v obuf ha hP => memPut_bufWf obuf _ a v hP ha

end CommandEnds

/-- Settles O55, table by table: every write keeps the keys rising, within their bound and without an entry that
reads as unlisted. -/
theorem stepKeepsCanonicalForm : Obligations.StepKeepsCanonicalForm := by
  unfold Obligations.StepKeepsCanonicalForm
  refine step_keeps _ (fun _ _ h => h) (fun _ h => h) ?clr (fun _ _ h => h) ?exec ?write (fun _ _ _ h => h) ?reset
  case clr => exact fun s h => CommandEnds.clr.canonical h
  case exec => exact fun i s t _ hs hexec => (exec_ends i s t hexec).canonical hs
  case write =>
    intro s a v ⟨hft, hnode, hct, hibuf, hobuf⟩ ha
    exact ⟨hft, hnode, hct, memPut_bufWf s.ibuf _ a v hibuf ha, hobuf⟩
  case reset => exact fun s ⟨_, hnode, _⟩ => ⟨ftWf_nil, hnode, ctWf_nil, bufWf_nil _, bufWf_nil _⟩

/-! ### The defined output (R30, R37) -/

theorem outputDefined_of_olen_zero {s : State} (h : s.olen = 0) : s.outputDefined := by
  simp [State.outputDefined, h]

/-- Every address below `k` of a buffer has been written. -/
def filledTo (k : Nat) (obuf : Memory) : Prop := ∀ a, a < k → (memGet obuf a).isSome

theorem filledTo_memPut {k : Nat} {obuf : Memory} (v : Byte) (h : filledTo k obuf) :
    filledTo (k + 1) (memPut obuf k v) := by
  intro a ha
  rw [memGet_memPut]
  split
  · rfl
  · exact h a (by omega)

/-- An output of `k` bytes that are written and fit OBUF is defined once OLEN is `k`. -/
theorem outputDefined_of_filledTo {t : State} {k : Nat} (hk : t.olen = BitVec.ofNat 32 k)
    (hsize : k ≤ t.cfg.obufSize.toNat) (hfill : filledTo k t.obuf) : t.outputDefined := by
  have holen : t.olen.toNat = k := by
    rw [hk, BitVec.toNat_ofNat, Nat.mod_eq_of_lt (Nat.lt_of_le_of_lt hsize t.cfg.obufSize.isLt)]
  rw [State.outputDefined, holen]
  exact ⟨hsize, hfill⟩

theorem CommandEnds.outputDefined {i : Instr} {s t : State} (h : CommandEnds s i t) (hs : s.outputDefined) :
    t.outputDefined := by
  cases h with
  | clr | testFault | encodeFault | decodeFault => exact outputDefined_of_olen_zero rfl
  | @encode n ps hps =>
    obtain ⟨_, _, _, he⟩ | ⟨_, _, he, _⟩ | ⟨ps', he, hsize, _, hfill⟩ :=
      writeFrame_obuf (ct := s.ct) (ibuf := s.ibuf) (obuf0 := s.obuf) (size := s.cfg.obufSize.toNat) n.toNat
    all_goals cases hps.symm.trans he
    exact outputDefined_of_filledTo rfl hsize hfill
  | @decode m n w hw =>
    obtain ⟨hsize, _, hfill⟩ := (readFrame_within s.ibuf _ m.toNat s.obuf filledTo (fun a ha => by omega)
      (fun _ v _ _ hP => filledTo_memPut v hP)).2 _ _ hw
    exact outputDefined_of_filledTo rfl hsize hfill
  | _ => exact hs

/-- Settles O56: ENCODE and DECODE write every byte from address 0 up to the OLEN they set, and OLEN is 0 after a
fault, CLR and reset. -/
theorem stepKeepsOutputDefined : Obligations.StepKeepsOutputDefined := by
  unfold Obligations.StepKeepsOutputDefined
  refine step_keeps _ (fun _ _ h => h) (fun _ h => h) ?clr ?raise ?exec (fun _ _ _ h _ => h) (fun _ _ _ h => h) ?reset
  case clr => exact fun _ _ => outputDefined_of_olen_zero rfl
  case raise => exact fun _ _ _ => outputDefined_of_olen_zero rfl
  case exec => exact fun i s t _ hs hexec => (exec_ends i s t hexec).outputDefined hs
  case reset => exact fun _ _ => outputDefined_of_olen_zero rfl

/-- Settles O59: at reset FAULT and both flags are 0, the tables and buffers are empty, and OLEN is 0. -/
theorem resetHasInvariants : Obligations.ResetHasInvariants := by
  unfold Obligations.ResetHasInvariants
  intro c
  have hlatch : (State.resetWith c).latchClear ∧ (State.resetWith c).latchSet ∧ (State.resetWith c).tableNeedsTree := by
    simp [State.latchClear, State.latchSet, State.tableNeedsTree]
  obtain ⟨hclear, hset, hflags⟩ := hlatch
  exact ⟨⟨hclear, hset, hflags, treeOk_of_not_valid rfl, tableOk_of_not_valid rfl⟩,
    ⟨ftWf_nil, rfl, ctWf_nil, bufWf_nil _, bufWf_nil _⟩, outputDefined_of_olen_zero rfl⟩

end Sys2Proof.Machine
end

section
/-! The registers as the host reads them (R22), NDIST (R27), and reset (R42, R250). -/

namespace Sys2Proof.Machine

open Sys2Proof

/-- NDIST as a count over the symbol numbers 0 to 255. -/
theorem ndist_eq_card (ft : Tab Count) :
    ndist ft = (Finset.univ.filter (fun x : Fin 256 => ftAt ft (BitVec.ofNat 8 x.val) ≠ 0)).card := by
  have hsymbols : allSymbols = (List.finRange 256).map (fun x : Fin 256 => BitVec.ofNat 8 x.val) := by
    rw [allSymbols, ← List.map_coe_finRange_eq_range, List.map_map]
    rfl
  have hcount : ndist ft = (List.finRange 256).countP (fun x => ftAt ft (BitVec.ofNat 8 x.val) != 0) := by
    rw [ndist, keys, ← List.countP_eq_length_filter, hsymbols, List.countP_map]
    rfl
  rw [hcount, List.countP_eq_length_filter, ← List.toFinset_card_of_nodup ((List.nodup_finRange 256).filter _)]
  congr 1
  ext x
  simp

/-- Settles O15: NDIST filters the 256 symbols by a non-zero count. -/
theorem ndistReadsKeyCount : Obligations.NdistReadsKeyCount := by
  unfold Obligations.NdistReadsKeyCount
  intro s
  rw [← ndist_eq_card]
  exact ⟨ndist_le s.ft, rfl⟩

/-! ### The register map -/

theorem statusWord_bits (s : State) :
    (statusWord s).getLsbD 0 = s.fault ∧ (statusWord s).getLsbD 1 = s.treeValid ∧
      (statusWord s).getLsbD 2 = s.ctValid ∧ ∀ k, 3 ≤ k → (statusWord s).getLsbD k = false := by
  simp only [statusWord, BitVec.getLsbD_append, BitVec.getLsbD_ofBool, BitVec.getLsbD_zero]
  refine ⟨by simp, by simp, by simp, fun k hk => ?_⟩
  rw [if_neg (by omega), if_neg (by omega), if_neg (by omega)]

/-- A field wider than a register is its low word and the rest above it (R22). -/
theorem toNat_eq_hi_lo {w : Nat} (x : BitVec w) (k : Nat) (hk : k ≤ 32) (hw : w = 32 + k) :
    x.toNat = ((x.extractLsb' 32 k).setWidth 32).toNat * 2 ^ 32 + (x.extractLsb' 0 32).toNat := by
  have hx : x.toNat / 2 ^ 32 < 2 ^ k := by
    rw [Nat.div_lt_iff_lt_mul (by decide), ← Nat.pow_add, Nat.add_comm k, ← hw]
    exact x.isLt
  have hk' : (2 : Nat) ^ k ≤ 2 ^ 32 := Nat.pow_le_pow_right (by decide) hk
  simp only [BitVec.toNat_setWidth, BitVec.extractLsb'_toNat, Nat.shiftRight_eq_div_pow, Nat.pow_zero, Nat.div_one]
  rw [Nat.mod_eq_of_lt hx, Nat.mod_eq_of_lt (by omega)]
  omega

/-- Settles O49, register by register. -/
theorem registerMap : Obligations.RegisterMap := by
  unfold Obligations.RegisterMap
  intro s
  have hndist : (BitVec.ofNat 32 (ndist s.ft)).toNat = ndist s.ft := by
    have := ndist_le s.ft
    rw [BitVec.toNat_ofNat, Nat.mod_eq_of_lt (by omega)]
  have hnone : ∀ r, 12 ≤ r → readReg s r = none := by
    intro r hr
    obtain ⟨k, rfl⟩ := Nat.exists_eq_add_of_le' hr
    rfl
  exact ⟨⟨_, rfl, statusWord_bits s⟩,
    ⟨_, rfl, BitVec.toNat_setWidth_of_le (by decide)⟩, rfl, rfl,
    ⟨_, rfl, hndist⟩,
    ⟨_, rfl, BitVec.toNat_setWidth_of_le (by decide)⟩,
    ⟨_, rfl, BitVec.toNat_setWidth_of_le (by decide)⟩,
    ⟨_, _, rfl, rfl, toNat_eq_hi_lo s.rootf 8 (by decide) rfl⟩,
    ⟨_, _, rfl, rfl, toNat_eq_hi_lo s.tbits 16 (by decide) rfl⟩, rfl, hnone⟩

/-! ### Reset -/

theorem ndist_nil : ndist [] = 0 := by
  simp [ndist, keys]

theorem readReg_resetWith (c : Config) (r : Nat) (hr : r < 12) : readReg (State.resetWith c) r = some 0 := by
  interval_cases r <;> simp [readReg, statusWord, ndist_nil]

/-- Settles O50: every field a register reads is 0 at reset, and the reset action is that state but for NODE and what
is the host's. -/
theorem resetLeavesAllClear : Obligations.ResetLeavesAllClear := by
  unfold Obligations.ResetLeavesAllClear
  exact ⟨readReg_resetWith, fun _ sym => ⟨ftAt_nil sym, ctAt_nil sym⟩, fun _ => rfl, rfl⟩

end Sys2Proof.Machine
end

section
/-! Unwritten bytes of IBUF (R36, 93_implementation_defined.md V5): COUNT, ENCODE and DECODE are refused at the first
such byte they reach, and a refusal names one. -/

namespace Sys2Proof.Machine

open Sys2Proof

/-! ### COUNT and ENCODE reach byte a after the bytes before it -/

/-- COUNT's loop is refused at the first unwritten byte of those it reads. -/
theorem countLoop_unwritten (ibuf : Memory) (a k i : Nat) (ft : Tab Count) (hi : i ≤ a) (ha : a < i + k)
    (hsome : ∀ b, i ≤ b → b < a → (memGet ibuf b).isSome) (hnone : memGet ibuf a = none) :
    countLoop ibuf k i ft = .error (.refused (.ibufUnwritten a)) := by
  induction k generalizing i ft with
  | zero => omega
  | succ k ih =>
    rw [countLoop]
    obtain rfl | hlt := Nat.eq_or_lt_of_le hi
    · rw [readByte_none ibuf i hnone]
    · obtain ⟨x, hx⟩ := Option.isSome_iff_exists.mp (hsome i (Nat.le_refl i) hlt)
      rw [(readByte_ok ibuf i x).mpr hx]
      exact ih (i + 1) _ hlt (by omega) fun b hb => hsome b (by omega)

theorem ne_zero_of_lt_toNat {n : Imm} {a : Nat} (h : a < n.toNat) : n ≠ 0 := by
  rintro rfl
  exact Nat.not_lt_zero a h

theorem count_refused (n : Imm) (s : State) (a : Nat) (hn : n ≤ s.cfg.ibufSize) (ha : a < n.toNat)
    (hsome : ∀ b, b < a → (memGet s.ibuf b).isSome) (hnone : memGet s.ibuf a = none) :
    exec (.count n) s = .refused (.ibufUnwritten a) := by
  show execCount n s = _
  rw [execCount_run n s (ne_zero_of_lt_toNat ha) hn,
    countLoop_unwritten s.ibuf a n.toNat 0 [] (Nat.zero_le a) (by omega) (fun b _ => hsome b) hnone]
  rfl

theorem encode_refused (n : Imm) (s : State) (xs : List Symbol) (hct : s.ctValid = true) (hn : n ≤ s.cfg.ibufSize)
    (hlt : xs.length < n.toNat) (hxs : ibufHolds s xs) (hnone : memGet s.ibuf xs.length = none)
    (hcodes : ∀ x ∈ xs, ctAt s.ct x ≠ [])
    (hroom : (header n.toNat s.ct).length + (bodyBits s.ct xs).length / 8 ≤ s.cfg.obufSize.toNat) :
    exec (.encode n) s = .refused (.ibufUnwritten xs.length) := by
  have hloop := encodeLoop_unwritten xs 0 n.toNat
    (PackedTo.start (header n.toNat s.ct).length (memWrite s.obuf 0 (header n.toNat s.ct)))
    (ct := s.ct) (ibuf := s.ibuf) (size := s.cfg.obufSize.toNat)
    (fun j hj => by rw [Nat.zero_add]; exact hxs j hj) hcodes hlt hroom (by rw [Nat.zero_add]; exact hnone)
  have hframe : writeFrame s.ct s.ibuf s.cfg.obufSize.toNat n.toNat s.obuf =
      .error (.refused (.ibufUnwritten xs.length)) := by
    rw [writeFrame, if_neg (by omega), hloop, Nat.zero_add]
  show execEncode n s = _
  rw [execEncode_run n s hct (ne_zero_of_lt_toNat hlt) hn, hframe]
  rfl

/-! ### DECODE: the fixed header -/

/-- A frame that is refused refuses DECODE. -/
theorem decode_refused_of_readFrame {m : Imm} {s : State} {r : Refusal} (hm : m ≤ s.cfg.ibufSize)
    (h : readFrame s.ibuf s.cfg.obufSize.toNat m.toNat s.obuf = .error (.refused r)) :
    exec (.decode m) s = .refused r := by
  show execDecode m s = _
  rw [execDecode_run m s hm, h]
  rfl

/-- A header that is refused refuses DECODE. -/
theorem decode_refused_of_parseHeader {m : Imm} {s : State} {r : Refusal} (hm : m ≤ s.cfg.ibufSize)
    (h : parseHeader s.ibuf s.obuf m.toNat = .error (.refused r)) : exec (.decode m) s = .refused r :=
  decode_refused_of_readFrame hm (by rw [readFrame, h])

theorem readByte_bytesAt {ibuf : Memory} {a : Nat} {bs : List Byte} (h : bytesAt ibuf a bs) (k : Nat) {b : Byte}
    (hk : bs[k]? = some b) : readByte ibuf (a + k) = .ok b := by
  rw [readByte_ok, h k (List.getElem?_eq_some_iff.mp hk).1, hk]

theorem bytesAt_zero {s : State} {bs : List Byte} (h : ibufHolds s bs) : bytesAt s.ibuf 0 bs := by
  intro k hk
  rw [Nat.zero_add, h k hk]

/-- NSYM is refused at its first unwritten byte. -/
theorem parseNsym_unwritten (ibuf obuf : Memory) (m : Nat) (got : List Byte) (hm : 4 ≤ m) (hlt : got.length < 4)
    (hb : bytesAt ibuf 0 got) (hnone : memGet ibuf got.length = none) :
    parseNsym ibuf obuf m = .error (.refused (.ibufUnwritten got.length)) := by
  rw [parseNsym, if_neg (by omega)]
  match got, hlt with
  | [], _ => rw [readByte_none ibuf 0 hnone]; rfl
  | [b0], _ => rw [readByte_bytesAt hb 0 rfl, readByte_none ibuf 1 hnone]; rfl
  | [b0, b1], _ => rw [readByte_bytesAt hb 0 rfl, readByte_bytesAt hb 1 rfl, readByte_none ibuf 2 hnone]; rfl
  | [b0, b1, b2], _ =>
    rw [readByte_bytesAt hb 0 rfl, readByte_bytesAt hb 1 rfl, readByte_bytesAt hb 2 rfl, readByte_none ibuf 3 hnone]
    rfl

/-- NDIST is refused at its first unwritten byte. -/
theorem parseNdist_unwritten (ibuf obuf : Memory) (m : Nat) (got : List Byte) (hm : 6 ≤ m) (hlt : got.length < 2)
    (hb : bytesAt ibuf 4 got) (hnone : memGet ibuf (4 + got.length) = none) :
    parseNdist ibuf obuf m = .error (.refused (.ibufUnwritten (4 + got.length))) := by
  rw [parseNdist, if_neg (by omega)]
  match got, hlt with
  | [], _ => rw [readByte_none ibuf 4 hnone]; rfl
  | [b0], _ => rw [readByte_bytesAt hb 0 rfl, readByte_none ibuf 5 hnone]; rfl

theorem beToNat32_eq_zero {b0 b1 b2 b3 : Byte} (h : beToNat32 b0 b1 b2 b3 = 0) : [b0, b1, b2, b3] = [0, 0, 0, 0] := by
  unfold beToNat32 at h
  have hzero : ∀ b : Byte, b.toNat = 0 → b = 0 := fun b hb => BitVec.eq_of_toNat_eq hb
  rw [hzero b0 (by omega), hzero b1 (by omega), hzero b2 (by omega), hzero b3 (by omega)]

/-- Four written bytes that are not all zero are an NSYM (R181). -/
theorem parseNsym_nonzero (ibuf obuf : Memory) (m : Nat) (bs : List Byte) (hm : 4 ≤ m) (hlen : bs.length = 4)
    (hne : bs ≠ [0, 0, 0, 0]) (hb : bytesAt ibuf 0 bs) : ∃ n, parseNsym ibuf obuf m = .ok n := by
  match bs, hlen with
  | [b0, b1, b2, b3], _ =>
    refine ⟨beToNat32 b0 b1 b2 b3, ?_⟩
    rw [parseNsym, if_neg (by omega), readByte_bytesAt hb 0 rfl, readByte_bytesAt hb 1 rfl, readByte_bytesAt hb 2 rfl,
      readByte_bytesAt hb 3 rfl]
    exact if_neg fun h => hne (beToNat32_eq_zero h)

theorem decode_refused_in_fixed_header (m : Imm) (s : State) (bs : List Byte) (hm : m ≤ s.cfg.ibufSize)
    (hbs : ibufHolds s bs) (hnone : memGet s.ibuf bs.length = none)
    (hplace : (bs.length < 4 ∧ 4 ≤ m.toNat) ∨
      (4 ≤ bs.length ∧ bs.length < 6 ∧ 6 ≤ m.toNat ∧ bs.take 4 ≠ [0, 0, 0, 0])) :
    exec (.decode m) s = .refused (.ibufUnwritten bs.length) := by
  refine decode_refused_of_parseHeader hm ?_
  rw [parseHeader]
  obtain ⟨hlt, hm4⟩ | ⟨hge, hlt, hm6, hne⟩ := hplace
  · rw [parseNsym_unwritten s.ibuf s.obuf m.toNat bs hm4 hlt (bytesAt_zero hbs) hnone]
  · have hb := bytesAt_zero hbs
    rw [← List.take_append_drop 4 bs] at hb
    obtain ⟨hnsym, hndist⟩ := hb.append
    have htake : (bs.take 4).length = 4 := List.length_take_of_le hge
    have hdrop : 4 + (bs.drop 4).length = bs.length := by rw [List.length_drop]; omega
    obtain ⟨n, hn⟩ := parseNsym_nonzero s.ibuf s.obuf m.toNat _ (by omega) htake hne hnsym
    rw [htake] at hndist
    rw [hn, ← hdrop]
    simp only
    rw [parseNdist_unwritten s.ibuf s.obuf m.toNat (bs.drop 4) hm6 (by omega) hndist (by rw [hdrop]; exact hnone)]

/-! ### DECODE: an entry of the code table -/

theorem frameBreaksOff.inIbuf {s : State} {m : Imm} {n l : Nat} {es : List (Symbol × Code)} {got : List Byte} {a : Nat}
    (hf : frameBreaksOff s m n l es got a) : m ≤ s.cfg.ibufSize := hf.1

theorem frameBreaksOff.unwritten {s : State} {m : Imm} {n l : Nat} {es : List (Symbol × Code)} {got : List Byte}
    {a : Nat} (hf : frameBreaksOff s m n l es got a) : memGet s.ibuf a = none ∧ a < m.toNat := by
  obtain ⟨_, _, _, _, _, _, _, _, ham, _, hnone⟩ := hf
  exact ⟨hnone, ham⟩

/-- An entry that is refused refuses DECODE, after the good entries before it. -/
theorem decode_refused_of_parseEntry {m : Imm} {s : State} {n l : Nat} {es : List (Symbol × Code)} {got : List Byte}
    {a : Nat} {r : Refusal} (hf : frameBreaksOff s m n l es got a) (hfit : tableFits es) (hlt : es.length < l)
    (h : ∀ off ps, ParsedTo es off ps → off + got.length = a → bytesAt s.ibuf off got →
      parseEntry s.ibuf s.obuf m.toNat es.length ps = .error (.refused r)) : exec (.decode m) s = .refused r := by
  obtain ⟨off, ps, hps, hoff, hgot, hheader⟩ := parseHeader_breaksOff s s.obuf m n l es got a hf hfit hlt.le
  refine decode_refused_of_parseHeader hf.inIbuf ?_
  obtain ⟨k, hk⟩ : ∃ k, l - es.length = k + 1 := ⟨l - es.length - 1, by omega⟩
  rw [hheader, hk, parseEntries, h off ps hps hoff hgot]

theorem decode_refused_in_entry_fixed {m : Imm} {s : State} {n l : Nat} {es : List (Symbol × Code)} {got : List Byte}
    {a : Nat} (hf : frameBreaksOff s m n l es got a) (hfit : tableFits es) (hlt : es.length < l)
    (hgot : got.length < 2) (hm : a - got.length + 2 ≤ m.toNat) : exec (.decode m) s = .refused (.ibufUnwritten a) := by
  obtain ⟨hnone, _⟩ := hf.unwritten
  refine decode_refused_of_parseEntry hf hfit hlt fun off ps hps hoff hb => ?_
  obtain rfl := hps.at_
  subst hoff
  exact parseEntry_unwritten_fixed s.ibuf s.obuf m.toNat es.length ps got hb hgot (by omega) hnone

theorem decode_refused_in_entry_code {m : Imm} {s : State} {n l : Nat} {es : List (Symbol × Code)} {got : List Byte}
    {a : Nat} (hf : frameBreaksOff s m n l es got a) (hfit : tableFits es) (sym lenByte : Byte) (cb : List Byte)
    (hlt : es.length < l) (hgot : got = sym :: lenByte :: cb) (hlen : lenByte ≠ 0) (hnew : sym ∉ es.map Prod.fst)
    (hcb : cb.length < (lenByte.toNat + 7) / 8) (hm : a - cb.length + (lenByte.toNat + 7) / 8 ≤ m.toNat)
    (hap : ∀ e ∈ es, ¬ e.2 <+: bitsOf cb) (hneed : dtNeed (es ++ [(sym, bitsOf cb)]) ≤ 510) :
    exec (.decode m) s = .refused (.ibufUnwritten a) := by
  obtain ⟨hnone, _⟩ := hf.unwritten
  subst hgot
  refine decode_refused_of_parseEntry hf hfit hlt fun off ps hps hoff hb => ?_
  simp only [List.length_cons] at hoff
  obtain rfl : off + 2 + cb.length = a := by omega
  exact parseEntry_unwritten_code s.ibuf s.obuf m.toNat es.length ps es off hps sym lenByte cb hb hlen hnew hcb
    (by unfold bytesFor; omega) hap hneed hnone

/-! ### DECODE: the body -/

/-- The walk is refused at the first unwritten body byte, after whole codes and a proper part of one. -/
theorem walkLoop_unwritten {ibuf : Memory} {dt : List DtNode} {ps : List Code} {es : List (Symbol × Code)} {p n : Nat}
    (hdt : DtHolds dt ps es) (hps : pathsOf ps es) (hfit : tableFits es) (xs : List Symbol) (bits part : Code)
    (got : List Byte) (rem : Nat) (obuf : Memory) (hxs : codesUnder es xs bits) (hgot : bitsOf got = bits ++ part)
    (hpart : ∃ e ∈ es, part <+: e.2 ∧ part ≠ e.2) (hlt : xs.length < n) (hb : bytesAt ibuf p got)
    (hnone : memGet ibuf (p + got.length) = none) :
    walkLoop ibuf dt p n (rem + 1 + (bitsOf got).length) { cur := 0, bp := 0, em := 0, obuf := obuf } =
      .error (.refused (.ibufUnwritten (p + got.length))) := by
  have hsame : ∀ e ∈ es, ∀ f ∈ es, f.2 <+: e.2 → f.2 = e.2 := fun e he f hf h => by rw [hfit.same e he f hf h]
  have hnil : ∀ f ∈ es, f.2 ≠ [] := fun f hf h => by
    have := (hfit.lens f hf).1
    simp [h] at this
  have hbits : bitsAt ibuf p 0 (bits ++ part) := bitsAt_of_bytes got _ hb (hgot ▸ List.prefix_refl _)
  obtain ⟨hbits1, hbits2⟩ := hbits.append
  obtain ⟨e, he, hpre, hne⟩ := hpart
  have hcodes := walk_codes (n := n) hdt hps hnil hsame xs bits 0 0 (rem + 1 + part.length) obuf hxs hbits1 (by omega)
  obtain ⟨i, _, hwalk⟩ := walk_part (n := n) hdt hps e he (hsame e he) part [] 0 (0 + bits.length) (0 + xs.length)
    (rem + 1) (memWrite obuf 0 xs) hdt.root hpre hne hbits2 (by omega)
  have hpos : 0 + bits.length + part.length = 8 * got.length := by
    rw [← length_bitsOf, hgot, List.length_append, Nat.zero_add]
  have hread : readBit ibuf p (8 * got.length) = .error (.refused (.ibufUnwritten (p + got.length))) := by
    rw [readBit, Nat.mul_div_cancel_left _ (by decide), readByte_none ibuf _ hnone]
  rw [hgot, List.length_append,
    show rem + 1 + (bits.length + part.length) = rem + 1 + part.length + bits.length by omega, hcodes]
  refine hwalk.trans ?_
  rw [hpos, walkLoop, if_neg (by simpa using hlt)]
  simp only [hread]

theorem decode_refused_in_body {m : Imm} {s : State} {n l : Nat} {es : List (Symbol × Code)} {got : List Byte}
    {a : Nat} (hf : frameBreaksOff s m n l es got a) (hfit : tableFits es) (xs : List Symbol) (bits part : Code)
    (hl : es.length = l) (hsize : n ≤ s.cfg.obufSize.toNat) (hxs : codesUnder es xs bits)
    (hgot : bitsOf got = bits ++ part) (hpart : ∃ e ∈ es, part <+: e.2 ∧ part ≠ e.2) (hlt : xs.length < n) :
    exec (.decode m) s = .refused (.ibufUnwritten a) := by
  obtain ⟨off, ps, hps, hoff, hb, hheader⟩ := parseHeader_breaksOff s s.obuf m n l es got a hf hfit hl.le
  obtain ⟨hnone, ham⟩ := hf.unwritten
  obtain ⟨hat, _, paths, hdt, hpaths⟩ := hps
  subst hat hoff
  rw [hl, Nat.sub_self, parseEntries] at hheader
  obtain ⟨rem, hrem⟩ : ∃ rem, 8 * (m.toNat - ps.p) = rem + 1 + (bitsOf got).length :=
    ⟨8 * (m.toNat - ps.p) - 8 * got.length - 1, by rw [length_bitsOf]; omega⟩
  refine decode_refused_of_readFrame hf.inIbuf ?_
  rw [readFrame, hheader]
  simp only
  rw [if_neg (by omega), hrem,
    walkLoop_unwritten hdt hpaths hfit xs bits part got rem s.obuf hxs hgot hpart hlt hb hnone]

/-! ### No other refusal -/

theorem count_refused_inv (n : Imm) (s : State) (r : Refusal) (h : exec (.count n) s = .refused r) :
    ∃ a, r = .ibufUnwritten a ∧ memGet s.ibuf a = none ∧ a < n.toNat ∧ n ≤ s.cfg.ibufSize := by
  replace h : execCount n s = .refused r := h
  by_cases h0 : n = 0
  · rw [execCount, if_pos h0] at h
    cases h
  by_cases hn : s.cfg.ibufSize < n
  · rw [execCount, if_neg h0, if_pos hn] at h
    cases h
  replace hn : n ≤ s.cfg.ibufSize := BitVec.not_lt.mp hn
  rw [execCount_run n s h0 hn] at h
  split at h
  · rename_i e he
    obtain ⟨a, _, ha, hnone, rfl⟩ := countLoop_error s.ibuf n.toNat 0 [] e he
    cases h
    exact ⟨a, rfl, hnone, by omega, hn⟩
  · cases h

theorem encode_refused_inv (n : Imm) (s : State) (r : Refusal) (h : exec (.encode n) s = .refused r) :
    ∃ a, r = .ibufUnwritten a ∧ memGet s.ibuf a = none ∧ a < n.toNat ∧ n ≤ s.cfg.ibufSize := by
  replace h : execEncode n s = .refused r := h
  by_cases hct : s.ctValid = false
  · rw [execEncode, if_pos hct] at h
    cases h
  by_cases h0 : n = 0
  · rw [execEncode, if_neg hct, if_pos h0] at h
    cases h
  by_cases hn : s.cfg.ibufSize < n
  · rw [execEncode, if_neg hct, if_neg h0, if_pos hn] at h
    cases h
  replace hn : n ≤ s.cfg.ibufSize := BitVec.not_lt.mp hn
  rw [execEncode_run n s (by simpa using hct) h0 hn] at h
  obtain ⟨a, ha, hnone, he⟩ | ⟨c, obuf, he, _⟩ | ⟨ps, he, _⟩ :=
    writeFrame_obuf (ct := s.ct) (ibuf := s.ibuf) (obuf0 := s.obuf) (size := s.cfg.obufSize.toNat) n.toNat
  all_goals rw [he] at h; cases h
  exact ⟨a, rfl, hnone, ha, hn⟩

theorem decode_refused_inv (m : Imm) (s : State) (r : Refusal) (h : exec (.decode m) s = .refused r) :
    ∃ a, r = .ibufUnwritten a ∧ memGet s.ibuf a = none ∧ a < m.toNat ∧ m ≤ s.cfg.ibufSize := by
  replace h : execDecode m s = .refused r := h
  by_cases hm : s.cfg.ibufSize < m
  · rw [execDecode, if_pos hm] at h
    cases h
  replace hm : m ≤ s.cfg.ibufSize := BitVec.not_lt.mp hm
  rw [execDecode_run m s hm] at h
  split at h
  · rename_i e he
    have hwithin := (readFrame_within s.ibuf _ m.toNat s.obuf (fun _ _ => True) trivial fun _ _ _ _ _ => trivial).1 e he
    cases e with
    | raised c obuf => cases h
    | refused r' =>
      cases h
      obtain ⟨a, ha, hnone, hr⟩ := hwithin
      exact ⟨a, hr, hnone, ha, hm⟩
  · cases h

/-- A refusal names an unwritten byte below the operand; the commands without one are never refused. -/
theorem exec_refused_inv (i : Instr) (s : State) (r : Refusal) (h : exec i s = .refused r) : ∃ a,
    r = .ibufUnwritten a ∧ memGet s.ibuf a = none ∧ a < i.fields.imm.toNat ∧ i.fields.imm ≤ s.cfg.ibufSize := by
  cases i with
  | nop | clr | ldf => cases h
  | build =>
    replace h : execBuild s = .refused r := h
    simp only [execBuild] at h
    split at h <;> cases h
  | gen =>
    replace h : execGen s = .refused r := h
    simp only [execGen] at h
    split at h
    · cases h
    · split at h <;> cases h
  | count n => exact count_refused_inv n s r h
  | encode n => exact encode_refused_inv n s r h
  | decode m => exact decode_refused_inv m s r h

/-- Settles O18, clause by clause: each engine runs over the written bytes before the gap and is refused at it, and an
engine's only refusal is a read of an unwritten byte below the operand. -/
theorem unwrittenByteIsRefused : Obligations.UnwrittenByteIsRefused := by
  unfold Obligations.UnwrittenByteIsRefused
  refine ⟨count_refused, encode_refused, decode_refused_in_fixed_header, ?_, exec_refused_inv⟩
  intro m s n l es got a hf hfit
  exact ⟨decode_refused_in_entry_fixed hf hfit, decode_refused_in_entry_code hf hfit, decode_refused_in_body hf hfit⟩

end Sys2Proof.Machine
end

section
/-! The operand forms of 20_memory.md: the header's integers (R63), and bit strings in bytes (R64, R65). -/

namespace Sys2Proof.Machine

open Sys2Proof

/-- Settles O6: the base-256 digits of a number give it back. -/
theorem headerIntegersAreBigEndian : Obligations.HeaderIntegersAreBigEndian := by
  unfold Obligations.HeaderIntegersAreBigEndian
  exact ⟨fun v hv => ⟨_, _, _, _, rfl, (beToNat32_be32 v hv).symm, beToNat32_be32 v hv⟩,
    fun v hv => ⟨_, _, rfl, (beToNat16_be16 v hv).symm, beToNat16_be16 v hv⟩⟩

/-- The bit operations of R12 as arithmetic on the byte's value. -/
theorem byteBit_eq_decide (b : Byte) (j : Nat) : byteBit b j = decide (b.toNat / 2 ^ (7 - j) % 2 = 1) := by
  have hval : (b >>> (7 - j) &&& 1).toNat = b.toNat / 2 ^ (7 - j) % 2 := by
    rw [BitVec.toNat_and, BitVec.toNat_ushiftRight, Nat.shiftRight_eq_div_pow]
    exact Nat.and_one_is_mod _
  rw [byteBit, ← hval, beq_eq_decide, decide_eq_decide, ← BitVec.toNat_inj]
  rfl

theorem readBit_of_byte (ibuf : Memory) (a i : Nat) (b : Byte) (h : memGet ibuf (a + i / 8) = some b) :
    readBit ibuf a i = .ok (byteBit b (i % 8)) := by
  rw [readBit, (readByte_ok ibuf _ b).mpr h]

/-- Bit j of byte k of pack(d) is bit 8k + j of d, or 0 past its end (R64). -/
theorem byteBit_getElem?_pack (d : Code) (k j : Nat) (b : Byte) (hb : (pack d)[k]? = some b) (hj : j < 8) :
    byteBit b j = d.getD (8 * k + j) false := by
  have hk : k < bytesFor d.length := by simpa using (List.getElem?_eq_some_iff.mp hb).1
  obtain rfl : packByte (d.drop (8 * k)) = b := by simpa [getElem?_pack d k hk] using hb
  rw [byteBit_packByte _ j hj]
  simp

/-- Settles O7: a packed byte holds eight bits of the string by their weights, and the bits of bytes that stand in
IBUF are read in that order. -/
theorem packedBitsReadBack : Obligations.PackedBitsReadBack := by
  unfold Obligations.PackedBitsReadBack
  refine ⟨fun ibuf a i b h => ?_, fun d => ⟨length_pack d, fun k j b hb hj => ?_, fun ibuf a i h hi => ?_⟩⟩
  · rw [readBit_of_byte ibuf a i b h, byteBit_eq_decide]
  · have hbit := byteBit_getElem?_pack d k j b hb hj
    rw [byteBit_eq_decide] at hbit
    rw [← decide_eq_true_iff (p := b.toNat / 2 ^ (7 - j) % 2 = 1), hbit, List.getD_eq_getElem?_getD, Option.getD_eq_iff]
    simp
  · exact readBit_bitsOf ibuf a i (pack d) _ h (getElem?_bitsOf_pack d i (by rwa [length_pack] at hi))

end Sys2Proof.Machine
end

section
/-! Command words (30_encoding.md R80 to R88): a word is its four fields, and the decoder and the encoder are inverse on
the words whose fields are legal. -/

namespace Sys2Proof

open BitVec (extractLsb'_append_eq_of_le extractLsb'_append_eq_of_add_le extractLsb'_append_extractLsb'_eq_extractLsb'
  extractLsb'_eq_self)

/-! ### Four fields in a row -/

theorem extractLsb'_append₄ {a b c d : Nat} (x : BitVec a) (y : BitVec b) (z : BitVec c) (u : BitVec d) :
    (x ++ y ++ z ++ u).extractLsb' (b + c + d) a = x ∧ (x ++ y ++ z ++ u).extractLsb' (c + d) b = y ∧
      (x ++ y ++ z ++ u).extractLsb' d c = z ∧ (x ++ y ++ z ++ u).extractLsb' 0 d = u := by
  refine ⟨?_, ?_, ?_, ?_⟩
  · rw [extractLsb'_append_eq_of_le (by omega), extractLsb'_append_eq_of_le (by omega),
      extractLsb'_append_eq_of_le (by omega), show b + c + d - d - c - b = 0 by omega, extractLsb'_eq_self]
  · rw [extractLsb'_append_eq_of_le (by omega), extractLsb'_append_eq_of_le (by omega),
      extractLsb'_append_eq_of_add_le (by omega), show c + d - d - c = 0 by omega, extractLsb'_eq_self]
  · rw [extractLsb'_append_eq_of_le (le_refl d), extractLsb'_append_eq_of_add_le (by omega), Nat.sub_self,
      extractLsb'_eq_self]
  · rw [extractLsb'_append_eq_of_add_le (by omega), extractLsb'_eq_self]

theorem append₄_extractLsb' {a b c d : Nat} (w : BitVec (a + b + c + d)) :
    w.extractLsb' (b + c + d) a ++ w.extractLsb' (c + d) b ++ w.extractLsb' d c ++ w.extractLsb' 0 d = w := by
  rw [extractLsb'_append_extractLsb'_eq_extractLsb' (by omega),
    extractLsb'_append_extractLsb'_eq_extractLsb' (by omega),
    extractLsb'_append_extractLsb'_eq_extractLsb' (by omega), extractLsb'_eq_self]

/-! ### A word is its four fields (R80) -/

@[simp] theorem fieldsOf_wordOf (f : Fields) : fieldsOf (wordOf f) = f :=
  (Fields.mk.injEq ..).mpr (extractLsb'_append₄ f.op f.sym f.rsv f.imm)

@[simp] theorem wordOf_fieldsOf (w : CmdWord) : wordOf (fieldsOf w) = w :=
  append₄_extractLsb' (a := 8) (b := 8) (c := 16) (d := 32) w

theorem fieldsOf_inj {w v : CmdWord} : fieldsOf w = fieldsOf v ↔ w = v :=
  ⟨fun h => by rw [← wordOf_fieldsOf w, h, wordOf_fieldsOf], congrArg fieldsOf⟩

@[simp] theorem fieldsOf_encode (i : Instr) : fieldsOf (encode i) = i.fields := fieldsOf_wordOf _

/-! ### The tests of R83 on the fields -/

theorem Fields.opDefined_iff (f : Fields) : f.opDefined = true ↔ f.op.toNat ≤ 7 := by
  simp [Fields.opDefined, BitVec.le_def]

theorem Fields.unusedZero_iff (f : Fields) : f.unusedZero = true ↔
    f.rsv = 0 ∧ (opUsesSym f.op = true ∨ f.sym = 0) ∧ (opUsesImm f.op = true ∨ f.imm = 0) := by
  simp [Fields.unusedZero, Fields.rsvZero, Fields.symZeroIfUnused, Fields.immZeroIfUnused, and_assoc]

theorem Fields.unusedZero_eq_false_iff (f : Fields) : f.unusedZero = false ↔
    f.rsv ≠ 0 ∨ (f.op ≠ 0x02#8 ∧ f.sym ≠ 0) ∨
      (f.op ≠ 0x02#8 ∧ f.op ≠ 0x03#8 ∧ f.op ≠ 0x06#8 ∧ f.op ≠ 0x07#8 ∧ f.imm ≠ 0) := by
  rw [← Bool.not_eq_true, unusedZero_iff]
  simp only [opUsesSym, opUsesImm, Bool.or_eq_true, beq_iff_eq, not_and_or, not_or, and_assoc, ne_eq]

theorem Fields.wf_iff (f : Fields) : f.wf = true ↔ f.opDefined = true ∧ f.unusedZero = true := by
  simp [Fields.wf]

theorem Fields.op_cases {f : Fields} (h : f.opDefined = true) : f.op = 0 ∨ f.op = 1 ∨ f.op = 2 ∨ f.op = 3 ∨
    f.op = 4 ∨ f.op = 5 ∨ f.op = 6 ∨ f.op = 7 := by
  have hop := f.opDefined_iff.mp h
  simp only [← BitVec.toNat_inj, BitVec.reduceToNat]
  omega

/-! ### Legal fields and commands -/

@[simp] theorem Instr.fields_wf (i : Instr) : i.fields.wf = true := by
  cases i <;> rfl

@[simp] theorem instrOf_fields (i : Instr) : instrOf i.fields = i := by
  cases i <;> rfl

/-- The command of legal fields drops none of them: a field it has no operand for is zero (R83). -/
theorem fields_instrOf {f : Fields} (h : f.wf = true) : (instrOf f).fields = f := by
  obtain ⟨hop, hunused⟩ := f.wf_iff.mp h
  obtain ⟨hrsv, hsym, himm⟩ := f.unusedZero_iff.mp hunused
  have hcases := f.op_cases hop
  obtain ⟨op, sym, rsv, imm⟩ := f
  dsimp only at hrsv hsym himm hcases
  obtain rfl | rfl | rfl | rfl | rfl | rfl | rfl | rfl := hcases <;>
    simp_all [instrOf, Instr.fields, opUsesSym, opUsesImm]

/-! ### The decoder (R83) -/

theorem decode_badOpcode {w : CmdWord} (h : (fieldsOf w).opDefined = false) :
    decode w = .error (.badOpcode (fieldsOf w).op) := by
  simp [decode, h]

theorem decode_badReserved {w : CmdWord} (h : (fieldsOf w).opDefined = true) (hu : (fieldsOf w).unusedZero = false) :
    decode w = .error (.badReserved (fieldsOf w).op) := by
  simp [decode, h, hu]

theorem decode_legal {w : CmdWord} (h : (fieldsOf w).wf = true) : decode w = .ok (instrOf (fieldsOf w)) := by
  obtain ⟨hop, hunused⟩ := (fieldsOf w).wf_iff.mp h
  simp [decode, hop, hunused]

/-- A word decodes to a command exactly when its fields are legal and are that command's fields. -/
theorem decode_eq_ok_iff (w : CmdWord) (i : Instr) :
    decode w = .ok i ↔ (fieldsOf w).wf = true ∧ i.fields = fieldsOf w := by
  constructor
  · intro h
    have hwf : (fieldsOf w).wf = true := by
      cases hop : (fieldsOf w).opDefined with
      | false => simp [decode_badOpcode hop] at h
      | true =>
        cases hunused : (fieldsOf w).unusedZero with
        | false => simp [decode_badReserved hop hunused] at h
        | true => exact (fieldsOf w).wf_iff.mpr ⟨hop, hunused⟩
    obtain rfl : instrOf (fieldsOf w) = i := by simpa [decode_legal hwf] using h
    exact ⟨hwf, fields_instrOf hwf⟩
  · rintro ⟨hwf, hi⟩
    rw [decode_legal hwf, ← hi, instrOf_fields]

theorem decode_encode (i : Instr) : decode (encode i) = .ok i :=
  (decode_eq_ok_iff _ i).mpr ⟨by simp, by simp⟩

theorem encode_of_decode {w : CmdWord} {i : Instr} (h : decode w = .ok i) : encode i = w := by
  obtain ⟨_, hfields⟩ := (decode_eq_ok_iff w i).mp h
  rw [encode, hfields, wordOf_fieldsOf]

theorem exists_decode_op_iff (w : CmdWord) (op : BitVec 8) :
    (∃ i, decode w = .ok i ∧ i.fields.op = op) ↔ (fieldsOf w).wf = true ∧ (fieldsOf w).op = op := by
  constructor
  · rintro ⟨i, hi, rfl⟩
    obtain ⟨hwf, hfields⟩ := (decode_eq_ok_iff w i).mp hi
    exact ⟨hwf, by rw [hfields]⟩
  · rintro ⟨hwf, rfl⟩
    exact ⟨_, decode_legal hwf, by rw [fields_instrOf hwf]⟩

/-! ### The opcode map (R82) -/

/-- The mask of an opcode, field by field: OP, RSV and the fields its command does not use. -/
def maskFields (op : BitVec 8) : Fields :=
  { op := BitVec.allOnes 8, sym := if opUsesSym op then 0 else BitVec.allOnes 8, rsv := BitVec.allOnes 16,
    imm := if opUsesImm op then 0 else BitVec.allOnes 32 }

/-- The printed columns of R82 are the ones its columns "uses SYM" and "uses IMM" give. -/
theorem opRow_columns : ∀ r ∈ opRows, r.op.toNat ≤ 7 ∧ fieldsOf r.mask = maskFields r.op ∧
    fieldsOf r.mtch = { op := r.op, sym := 0, rsv := 0, imm := 0 } := by
  decide

theorem and_eq_iff_fields (w m v : CmdWord) : w &&& m = v ↔
    (fieldsOf w).op &&& (fieldsOf m).op = (fieldsOf v).op ∧ (fieldsOf w).sym &&& (fieldsOf m).sym = (fieldsOf v).sym ∧
      (fieldsOf w).rsv &&& (fieldsOf m).rsv = (fieldsOf v).rsv ∧
      (fieldsOf w).imm &&& (fieldsOf m).imm = (fieldsOf v).imm := by
  rw [← fieldsOf_inj]
  simp only [fieldsOf, BitVec.extractLsb'_and, Fields.mk.injEq]

theorem and_ite_allOnes_eq_zero {k : Nat} (c : Bool) (x : BitVec k) :
    x &&& (if c then 0 else BitVec.allOnes k) = 0 ↔ c = true ∨ x = 0 := by
  cases c <;> simp

/-- Masking tests the opcode and that every unused field is zero. -/
theorem mask_selects_iff (w : CmdWord) {r : OpRow} (hr : r ∈ opRows) :
    w &&& r.mask = r.mtch ↔ (fieldsOf w).wf = true ∧ (fieldsOf w).op = r.op := by
  obtain ⟨hop, hmask, hmtch⟩ := opRow_columns r hr
  rw [and_eq_iff_fields, hmask, hmtch, Fields.wf_iff, Fields.opDefined_iff, Fields.unusedZero_iff]
  simp only [maskFields, BitVec.and_allOnes, and_ite_allOnes_eq_zero]
  constructor
  · rintro ⟨heq, hsym, hrsv, himm⟩
    exact ⟨⟨heq ▸ hop, hrsv, heq ▸ hsym, heq ▸ himm⟩, heq⟩
  · rintro ⟨⟨_, hrsv, hsym, himm⟩, heq⟩
    exact ⟨heq, heq ▸ hsym, hrsv, heq ▸ himm⟩

end Sys2Proof

namespace Sys2Proof.Machine

open Sys2Proof

/-! ### Accepting a word while FAULT = 0 (R83, R212) -/

theorem acceptWord_command {w : CmdWord} {s : State} {i : Instr} (hf : s.fault = false) (h : decode w = .ok i) :
    acceptWord w s = exec i (bumpCmdcnt s) := by
  simp [acceptWord, hf, h]

theorem acceptWord_illegal {w : CmdWord} {s : State} {e : DecodeError} (hf : s.fault = false)
    (h : decode w = .error e) : acceptWord w s = .next (raise (decodeCause e) (bumpCmdcnt s)) := by
  simp [acceptWord, hf, h]

/-! ### The statements on command words -/

/-- Settles O1: a word is its fields, and a legal word's fields are those of its command. -/
theorem decodeEncodeAgree : Obligations.DecodeEncodeAgree := by
  unfold Obligations.DecodeEncodeAgree
  exact ⟨decode_encode, fun _ _ => encode_of_decode⟩

/-- Settles O3, by the two tests of R83 in their order. -/
theorem wordsAreClassified : Obligations.WordsAreClassified := by
  unfold Obligations.WordsAreClassified
  intro w s hf
  have hdefined : (fieldsOf w).opDefined = true ↔ (fieldsOf w).op.toNat ≤ 7 := (fieldsOf w).opDefined_iff
  have hunused := (fieldsOf w).unusedZero_eq_false_iff
  refine ⟨fun hop => ?_, fun hop hset => ?_, fun hop hset => ?_⟩
  · have hd := decode_badOpcode (Bool.eq_false_iff.mpr (mt hdefined.mp (Nat.not_le.mpr hop)))
    exact ⟨hd, (acceptWord_illegal hf hd :)⟩
  · have hd := decode_badReserved (hdefined.mpr hop) (hunused.mpr hset)
    exact ⟨hd, (acceptWord_illegal hf hd :)⟩
  · have hzero : (fieldsOf w).unusedZero = true := Bool.of_not_eq_false (mt hunused.mp hset)
    obtain ⟨i, hd, hi⟩ := (exists_decode_op_iff w _).mpr ⟨(fieldsOf w).wf_iff.mpr ⟨hdefined.mpr hop, hzero⟩, rfl⟩
    exact ⟨i, hd, hi, acceptWord_command hf hd⟩

/-- Settles O4: the mask of a row leaves the opcode and the fields that must be zero. -/
theorem opcodeMapSelects : Obligations.OpcodeMapSelects := by
  unfold Obligations.OpcodeMapSelects
  intro w r hr
  rw [mask_selects_iff w hr, exists_decode_op_iff]

/-- Settles O2: the eight words are computed from the fields of R82, and each decodes by `decode_encode`. -/
theorem workedCommandWords : Obligations.WorkedCommandWords := by
  unfold Obligations.WorkedCommandWords
  have both : ∀ (i : Instr) (w : CmdWord), encode i = w → encode i = w ∧ decode w = .ok i :=
    fun i w h => ⟨h, h ▸ decode_encode i⟩
  exact ⟨both _ _ (by decide), both _ _ (by decide), both _ _ (by decide), both _ _ (by decide), both _ _ (by decide),
    both _ _ (by decide), both _ _ (by decide), both _ _ (by decide)⟩

/-! ### The assembler (R86, R87) -/

theorem assemble_of_wf {l : AsmLine} (h : l.wf = true) : assemble l = some ((expand l).map encode) := by
  rw [assemble, if_pos h]

theorem assemble_of_not_wf {l : AsmLine} (h : l.wf = false) : assemble l = none := by
  simp [assemble, h]

/-- Settles O5: a line in R86's range assembles to its expansion, and the range is the number's. -/
theorem pseudoCommandsExpand : Obligations.PseudoCommandsExpand := by
  unfold Obligations.PseudoCommandsExpand
  refine ⟨fun n hn => ?_, fun n hn => ?_⟩
  · have hok : numberOk n = true := decide_eq_true hn
    exact ⟨assemble_of_wf (l := .compress n) hok, assemble_of_wf (l := .decompress n) hok⟩
  · have hbad : numberOk n = false := decide_eq_false (Nat.not_lt.mpr hn)
    exact ⟨assemble_of_not_wf (l := .compress n) hbad, assemble_of_not_wf (l := .decompress n) hbad⟩

end Sys2Proof.Machine
end

section
/-! The bit layouts inside the block (30_encoding.md R96, R97, R98). -/

namespace Sys2Proof.Machine

open Sys2Proof

open BitVec (extractLsb'_append_eq_of_le extractLsb'_append_eq_of_add_le extractLsb'_append_extractLsb'_eq_extractLsb'
  extractLsb'_eq_self)

/-! ### The code field (R96) -/

/-- The number of `n` binary digits, the first one the heaviest. -/
def weightedSum (b : Nat → Bool) (n : Nat) : Nat :=
  ((List.range n).map (fun i => if b i then 2 ^ (n - 1 - i) else 0)).sum

/-- One more digit at the low end doubles what stands above it. -/
theorem weightedSum_succ (b : Nat → Bool) (n : Nat) : weightedSum b (n + 1) = Nat.bit (b n) (weightedSum b n) := by
  have hdouble : ((List.range n).map (fun i => if b i then 2 ^ (n - i) else 0)).sum = 2 * weightedSum b n := by
    rw [weightedSum, ← List.sum_map_mul_left]
    refine congrArg List.sum (List.map_congr_left fun i hi => ?_)
    have hlt : i < n := List.mem_range.mp hi
    rw [mul_ite, Nat.mul_zero, show n - i = n - 1 - i + 1 by omega, Nat.pow_succ']
  have hsum : weightedSum b (n + 1) = 2 * weightedSum b n + if b n then 1 else 0 := by
    rw [← hdouble]
    simp [weightedSum, List.range_succ]
  rw [hsum, Nat.bit_val]
  cases b n <;> rfl

theorem testBit_weightedSum (b : Nat → Bool) (n k : Nat) :
    (weightedSum b n).testBit k = (decide (k < n) && b (n - 1 - k)) := by
  induction n generalizing k with
  | zero => simp [weightedSum]
  | succ n ih =>
    rw [weightedSum_succ]
    cases k with
    | zero => simp
    | succ k => rw [Nat.testBit_bit_succ, ih, show n + 1 - 1 - (k + 1) = n - 1 - k by omega]; simp

/-- Field bit k holds code bit 254 - k, or 0 past the code's end. -/
theorem getLsbD_ctField (c : Code) (k : Nat) (hk : k < 255) : (ctField c).getLsbD k = c.getD (254 - k) false := by
  have hsum : ctField c = BitVec.ofNat 255 (weightedSum (fun i => c.getD i false) 255) := rfl
  rw [hsum, BitVec.getLsbD_ofNat, testBit_weightedSum]
  simp [hk]

/-- Code bit i stands in field bit 254 - i. -/
theorem getLsbD_ctField_rev (c : Code) (i : Nat) (hi : i < 255) : (ctField c).getLsbD (254 - i) = c.getD i false := by
  rw [getLsbD_ctField c _ (by omega), show 254 - (254 - i) = i by omega]

theorem ofCtField_ctField (c : Code) (hc : c.length ≤ 255) : ofCtField c.length (ctField c) = c := by
  refine List.ext_getElem (by simp [ofCtField]) fun i _ hi => ?_
  simp only [ofCtField, List.getElem_map, List.getElem_range]
  rw [getLsbD_ctField_rev c i (by omega), List.getD_eq_getElem c false hi]

theorem ctField_low_zero (c : Code) (k : Nat) (hk : k < 255 - c.length) : (ctField c).getLsbD k = false := by
  rw [getLsbD_ctField c k (by omega)]
  exact List.getD_eq_default _ _ (by omega)

/-! ### The kind bit (R34) -/

@[simp] theorem ofKindBit_kindBit (k : NodeKind) : ofKindBit (kindBit k) = k := by
  cases k <;> rfl

@[simp] theorem kindBit_ofKindBit (b : BitVec 1) : kindBit (ofKindBit b) = b := by
  revert b
  decide

theorem getLsbD_iff_internal {w : Nat} {x : BitVec w} {j : Nat} {k : NodeKind} (h : x.extractLsb' j 1 = kindBit k) :
    x.getLsbD j = true ↔ k = .internal := by
  have hbit : x.getLsbD j = (kindBit k).getLsbD 0 := by simp [← h]
  rw [hbit]
  cases k <;> decide

/-! ### A NODE entry (R97) -/

theorem nodeWord_fields (n : Node) :
    (nodeWord n).extractLsb' 66 1 = kindBit n.kind ∧ (nodeWord n).extractLsb' 58 8 = n.sym ∧
      (nodeWord n).extractLsb' 18 40 = n.freq ∧ (nodeWord n).extractLsb' 9 9 = n.left ∧
      (nodeWord n).extractLsb' 0 9 = n.right := by
  obtain ⟨_, hfreq, hleft, hright⟩ := extractLsb'_append₄ (kindBit n.kind ++ n.sym) n.freq n.left n.right
  refine ⟨?_, ?_, hfreq, hleft, hright⟩
  · rw [nodeWord, extractLsb'_append_eq_of_le (by decide), extractLsb'_append_eq_of_le (by decide),
      extractLsb'_append_eq_of_le (by decide), extractLsb'_append_eq_of_le (by decide), extractLsb'_eq_self]
  · rw [nodeWord, extractLsb'_append_eq_of_le (by decide), extractLsb'_append_eq_of_le (by decide),
      extractLsb'_append_eq_of_le (by decide), extractLsb'_append_eq_of_add_le (by decide), extractLsb'_eq_self]

theorem ofNodeWord_nodeWord (n : Node) : ofNodeWord (nodeWord n) = n := by
  obtain ⟨hkind, hsym, hfreq, hleft, hright⟩ := nodeWord_fields n
  rw [ofNodeWord, hkind, hsym, hfreq, hleft, hright, ofKindBit_kindBit]

theorem nodeWord_ofNodeWord (w : BitVec 67) : nodeWord (ofNodeWord w) = w := by
  simp only [nodeWord, ofNodeWord, kindBit_ofKindBit]
  rw [extractLsb'_append_extractLsb'_eq_extractLsb' (by decide)]
  exact append₄_extractLsb' (a := 9) (b := 40) (c := 9) (d := 9) w

/-! ### A DT entry (R98) -/

theorem dtWord_fields (n : DtNode) :
    (dtWord n).extractLsb' 26 1 = kindBit n.kind ∧ (dtWord n).extractLsb' 18 8 = n.sym ∧
      (dtWord n).extractLsb' 9 9 = n.left ∧ (dtWord n).extractLsb' 0 9 = n.right :=
  extractLsb'_append₄ (kindBit n.kind) n.sym n.left n.right

theorem ofDtWord_dtWord (n : DtNode) : ofDtWord (dtWord n) = n := by
  obtain ⟨hkind, hsym, hleft, hright⟩ := dtWord_fields n
  rw [ofDtWord, hkind, hsym, hleft, hright, ofKindBit_kindBit]

theorem dtWord_ofDtWord (w : BitVec 27) : dtWord (ofDtWord w) = w := by
  simp only [dtWord, ofDtWord, kindBit_ofKindBit]
  exact append₄_extractLsb' (a := 1) (b := 8) (c := 9) (d := 9) w

/-- Settles O60: the code's field bits are its digits by weight, and the words of an entry are its fields in a row. -/
theorem internalLayoutsRoundTrip : Obligations.InternalLayoutsRoundTrip := by
  unfold Obligations.InternalLayoutsRoundTrip
  refine ⟨fun c hc => ⟨ofCtField_ctField c hc, fun i hi => getLsbD_ctField_rev c i (by omega), ctField_low_zero c⟩,
    fun n => ?_, nodeWord_ofNodeWord, fun n => ?_, dtWord_ofDtWord⟩
  · obtain ⟨hkind, hfields⟩ := nodeWord_fields n
    exact ⟨ofNodeWord_nodeWord n, getLsbD_iff_internal hkind, hfields⟩
  · obtain ⟨hkind, hfields⟩ := dtWord_fields n
    exact ⟨ofDtWord_dtWord n, getLsbD_iff_internal hkind, hfields⟩

end Sys2Proof.Machine
end

section
/-! The Frequency Counter (40_frequency_counter.md): LDF sets one count (R123), COUNT replaces the table by the counts
of its input (R120 to R122). -/

namespace Sys2Proof.Machine

open Sys2Proof

theorem ftAt_ftPut_self (ft : Tab Count) (x : Symbol) (c : Count) : ftAt (ftPut ft x c) x = c := by
  rw [ftAt_ftPut, if_pos rfl]

theorem ftAt_ftPut_ne (ft : Tab Count) {x y : Symbol} (c : Count) (h : y ≠ x) : ftAt (ftPut ft x c) y = ftAt ft y := by
  rw [ftAt_ftPut, if_neg h.symm]

/-- Settles O14: LDF writes its one entry and drops the tree. -/
theorem ldfSetsOneCount : Obligations.LdfSetsOneCount := by
  unfold Obligations.LdfSetsOneCount
  intro sym n s
  exact ⟨fieldsOf_encode (.ldf sym n), ftPut s.ft sym n, rfl, ftAt_ftPut_self s.ft sym n,
    fun _ hy => ftAt_ftPut_ne s.ft n hy⟩

/-! ### COUNT -/

theorem count_emptyInput (s : State) : exec (.count 0) s = .next (raise .emptyInput s) := by
  show execCount 0 s = _
  rw [execCount, if_pos rfl]

theorem count_srcRange {n : Imm} {s : State} (h0 : n ≠ 0) (hn : s.cfg.ibufSize < n) :
    exec (.count n) s = .next (raise (.srcRange n) s) := by
  show execCount n s = _
  rw [execCount, if_neg h0, if_pos hn]

/-- COUNT of a range that IBUF holds completes with the number of times each byte occurs (R120); FT's old entries do
not enter (R122). -/
theorem count_completes {n : Imm} {s : State} {xs : List Symbol} (h0 : n ≠ 0) (hn : n ≤ s.cfg.ibufSize)
    (hlen : xs.length = n.toNat) (hxs : ibufHolds s xs) :
    ∃ ft, exec (.count n) s = .next (dropTree { s with ft := ft }) ∧ ∀ x, (ftAt ft x).toNat = xs.count x := by
  obtain ⟨ft, hloop, hcounts⟩ := countLoop_counts xs s.ibuf hxs (hlen ▸ n.isLt)
  refine ⟨ft, ?_, hcounts⟩
  show execCount n s = _
  rw [execCount_run n s h0 hn, ← hlen, hloop]

/-- A table of counts has the bytes that occur as its keys (R121). -/
theorem ftAt_ne_zero_iff_mem {ft : Tab Count} {xs : List Symbol} {x : Symbol} (h : (ftAt ft x).toNat = xs.count x) :
    ftAt ft x ≠ 0 ↔ x ∈ xs := by
  rw [← List.count_pos_iff, ← h, Nat.pos_iff_ne_zero]
  exact not_congr (BitVec.toNat_inj (y := 0#32)).symm

/-- Settles O16: R120's two tests in their order, then the counting loop. -/
theorem countCountsSymbols : Obligations.CountCountsSymbols := by
  unfold Obligations.CountCountsSymbols
  intro n s
  refine ⟨fieldsOf_encode (.count n), ?_, count_srcRange, fun h0 hn xs hlen hxs => count_completes h0 hn hlen hxs⟩
  rintro rfl
  exact count_emptyInput s

/-- Settles O17: the counts of a sequence sum to its length and are positive where a byte occurs. -/
theorem countConservesFrequency : Obligations.CountConservesFrequency := by
  unfold Obligations.CountConservesFrequency
  intro n s xs h0 hn hlen hxs
  obtain ⟨ft, hexec, hcounts⟩ := count_completes h0 hn hlen hxs
  exact ⟨_, hexec, (ftSum_of_counts ft xs hcounts).trans hlen, fun x => ftAt_ne_zero_iff_mem (hcounts x)⟩

end Sys2Proof.Machine
end

section
/-! The Tree Builder (41_tree_builder.md): on a table with a key BUILD completes with the finished merge loop, and the
statements are read off that loop's invariant `Merged`. -/

namespace Sys2Proof.Machine

open Sys2Proof

/-! ### How BUILD ends (R130) -/

/-- What BUILD makes of a finished merge loop (R136): NODE, the three result registers and the flags. -/
def builtState (s : State) (m : Merge) : State :=
  setTree { s with node := m.node, root := m.pq.headD 0, nnodes := BitVec.ofNat 9 (2 * ndist s.ft - 1),
                   rootf := freqAt m.node (m.pq.headD 0) }

theorem build_emptyTable {s : State} (h : ∀ sym, ftAt s.ft sym = 0) : exec .build s = .next (raise .emptyTable s) := by
  have hl : ndist s.ft = 0 := by
    by_contra hne
    obtain ⟨x, hx⟩ := (ndist_pos_iff s.ft).mp (Nat.pos_of_ne_zero hne)
    exact hx (h x)
  show execBuild s = _
  simp only [execBuild, hl, if_true]

/-- BUILD of a table with a key completes, and what it leaves in NODE and PQ is a finished merge loop. -/
theorem build_completes {s : State} (h : ∃ sym, ftAt s.ft sym ≠ 0) : ∃ m, 1 ≤ ndist s.ft ∧
    Merged s.ft s.node (ndist s.ft - 1) m ∧ exec .build s = .next (builtState s m) := by
  have hl : 1 ≤ ndist s.ft := (ndist_pos_iff s.ft).mpr h
  refine ⟨_, hl, build_merged s hl, ?_⟩
  show execBuild s = _
  simp only [execBuild, if_neg (Nat.one_le_iff_ne_zero.mp hl)]
  rfl

/-! ### What stands in NODE after the merge loop -/

namespace Merged

variable {ft : Tab Count} {node0 : Tab Node} {m : Merge}

/-- Every handle up to the root has a node, and its frequency is no more than the sum of FT (R138). -/
theorem nodeNo_bounded {k : Nat} (hm : Merged ft node0 k m) {i : Nat} (hi : i < ndist ft + k) :
    ∃ n, nodeNo m.node i = some n ∧ n.freq.toNat ≤ ftSum ft := by
  have hstands : ∃ n, nodeNo m.node i = some n := by
    by_cases hlt : i < ndist ft
    · exact ⟨_, hm.leaves i _ (List.getElem?_eq_getElem hlt)⟩
    · obtain ⟨n, _, _, hn, _⟩ := hm.internal i (by omega) hi
      exact ⟨n, hn⟩
  obtain ⟨n, hn⟩ := hstands
  exact ⟨n, hn, freqAt_of_nodeAt m.node _ n hn ▸ hm.bound i hi⟩

/-- The entries at the handles not yet given out stay (R139). -/
theorem nodeAt_above {k : Nat} (hm : Merged ft node0 k m) {h : Handle} (hh : ndist ft + k ≤ h.toNat) :
    nodeAt m.node h = nodeAt node0 h := by
  rw [nodeAt_eq_nodeNo, nodeAt_eq_nodeNo, hm.above _ hh h.isLt]

/-- The root has a node, and its frequency is the root's (R136). -/
theorem nodeAt_root (hl : 1 ≤ ndist ft) (hm : Merged ft node0 (ndist ft - 1) m) :
    ∃ n, nodeAt m.node (m.pq.headD 0) = some n ∧ n.freq = freqAt m.node (m.pq.headD 0) := by
  obtain ⟨hroot, _⟩ := hm.root_freq hl
  obtain ⟨n, hn, _⟩ := hm.nodeNo_bounded (i := (m.pq.headD 0).toNat) (by omega)
  rw [← nodeAt_eq_nodeNo] at hn
  exact ⟨n, hn, (freqAt_of_nodeAt _ _ n hn).symm⟩

end Merged

/-- Settles O20: the loop that puts the leaves does so in the order of the keys, and no merge touches them. -/
theorem buildMakesLeavesInOrder : Obligations.BuildMakesLeavesInOrder := by
  unfold Obligations.BuildMakesLeavesInOrder
  intro s hkey
  obtain ⟨m, _, hm, hexec⟩ := build_completes hkey
  exact ⟨_, hexec, keys_sorted s.ft, mem_keys s.ft, hm.leaves⟩

/-- Settles O22: the tree and the frequencies of the finished loop, whose sum is bounded by 256 counts. -/
theorem buildTreeStands : Obligations.BuildTreeStands := by
  unfold Obligations.BuildTreeStands
  intro s hkey
  obtain ⟨m, hl, hm, hexec⟩ := build_completes hkey
  refine ⟨_, hexec, hm.treeStands hl, fun i hi => ?_⟩
  obtain ⟨n, hn, hle⟩ := hm.nodeNo_bounded (i := i) (by omega)
  exact ⟨n, hn, hle.trans (ftSum_le s.ft)⟩

/-! ### The order of the merges (R132, R133) -/

/-- R132's order against a handle given as a number. -/
theorem before_ofNat_iff (node : Tab Node) (g : Handle) {h : Nat} (hh : h < 512) :
    before node g (BitVec.ofNat 9 h) = true ↔
      (freqAt node (BitVec.ofNat 9 g.toNat)).toNat < (freqAt node (BitVec.ofNat 9 h)).toNat ∨
      ((freqAt node (BitVec.ofNat 9 g.toNat)).toNat = (freqAt node (BitVec.ofNat 9 h)).toNat ∧ g.toNat < h) := by
  rw [before_iff, toNat_handle h hh, BitVec.ofNat_toNat, BitVec.setWidth_eq]

theorem ofNat_handle_ne {g : Handle} {h : Nat} (hh : h < 512) (hne : h ≠ g.toNat) : BitVec.ofNat 9 h ≠ g := by
  intro heq
  exact hne (heq ▸ (toNat_handle h hh).symm)

/-- Settles O21: each merge step takes the two least of PQ, which holds the handles that wait; later steps change
neither the nodes it compared nor their parents. -/
theorem buildMergesTwoLeast : Obligations.BuildMergesTwoLeast := by
  unfold Obligations.BuildMergesTwoLeast
  intro s hkey
  obtain ⟨m, hl, hm, hexec⟩ := build_completes hkey
  refine ⟨_, hexec, fun i hi1 hi2 => ?_⟩
  have hle := ndist_le s.ft
  have hi : i < ndist s.ft + (ndist s.ft - 1) := by omega
  obtain ⟨n, nl, nr, hn, hkind, _, hleft, hright, hne, hnl, hnr, hsum⟩ := hm.internal i hi1 hi
  have hwaits : ∀ h, isChild m.node i h → ∀ j, ndist s.ft ≤ j → j < i → ¬ isChild m.node j h := by
    intro h hc
    obtain ⟨_, _, hw⟩ := hm.waitParent i h hi1 hi hc
    exact hw
  have hleast : ∀ h, h < i → (∀ j, ndist s.ft ≤ j → j < i → ¬ isChild m.node j h) →
      (BitVec.ofNat 9 h ≠ n.left → before m.node n.left (BitVec.ofNat 9 h) = true) ∧
      (BitVec.ofNat 9 h ≠ n.left → BitVec.ofNat 9 h ≠ n.right → before m.node n.right (BitVec.ofNat 9 h) = true) := by
    intro h hlt hw
    obtain ⟨n', hn', hall⟩ := hm.least i hi1 hi
    cases hn.symm.trans hn'
    have hh := toNat_handle h (by omega)
    exact hall _ (by rwa [hh]) (by rwa [hh])
  refine ⟨n, nl, nr, hn, hkind, hnl, hnr, hsum, ⟨hleft, hwaits _ ⟨n, hn, .inl rfl⟩⟩,
    ⟨hright, hwaits _ ⟨n, hn, .inr rfl⟩⟩, hne, fun h ⟨hlt, hw⟩ hhl => ?_, fun h ⟨hlt, hw⟩ hhl hhr => ?_⟩
  · have hh : h < 512 := by omega
    exact (before_ofNat_iff m.node n.left hh).mp ((hleast h hlt hw).1 (ofNat_handle_ne hh hhl))
  · have hh : h < 512 := by omega
    exact (before_ofNat_iff m.node n.right hh).mp
      ((hleast h hlt hw).2 (ofNat_handle_ne hh hhl) (ofNat_handle_ne hh hhr))

/-! ### The result registers (R135, R136) -/

/-- A COUNT that raised no fault has counted n bytes (R121). -/
theorem count_ftSum {n : Imm} {s t : State} (hexec : exec (.count n) s = .next t) (hf : t.fault = false) :
    n ≠ 0 ∧ ftSum t.ft = n.toNat := by
  obtain ⟨_, rfl⟩ | ⟨_, _, rfl⟩ | ⟨hn, _, ft, hft, rfl⟩ := execCount_next n s t hexec
  · cases hf
  · cases hf
  · obtain ⟨xs, hlen, hxs⟩ := countLoop_bytes _ _ _ _ _ hft
    simp only [Nat.zero_add] at hxs
    obtain ⟨ft', hft', hcounts⟩ := countLoop_counts xs s.ibuf (hlen ▸ hxs) (hlen ▸ n.isLt)
    rw [hlen, hft] at hft'
    cases hft'
    exact ⟨hn, (ftSum_of_counts ft xs hcounts).trans hlen⟩

theorem exists_key_of_ftSum_ne_zero {ft : Tab Count} (h : ftSum ft ≠ 0) : ∃ sym, ftAt ft sym ≠ 0 := by
  refine (ndist_pos_iff ft).mp (List.length_pos_iff.mpr fun hnil => h ?_)
  rw [ftSum_eq_keys, hnil]
  rfl

/-- After COUNT n BUILD completes with ROOTF = n (R136). -/
theorem build_after_count {n : Imm} {s t u : State} (hcount : exec (.count n) s = .next t) (hf : t.fault = false)
    (hbuild : exec .build t = .next u) : u.fault = false ∧ u.rootf.toNat = n.toNat := by
  obtain ⟨hn, hsum⟩ := count_ftSum hcount hf
  have hn0 : n.toNat ≠ 0 := fun h => hn (BitVec.eq_of_toNat_eq h)
  obtain ⟨m, hl, hm, hexec⟩ := build_completes (exists_key_of_ftSum_ne_zero (hsum ▸ hn0))
  cases hbuild.symm.trans hexec
  obtain ⟨_, hrootf⟩ := hm.root_freq hl
  exact ⟨hf, hrootf.trans hsum⟩

/-- Settles O19: EMPTY_TABLE on no key, else the root that the merge loop ends with, whose frequency is the sum of
FT; COUNT n makes that sum n. -/
theorem buildWritesResultRegisters : Obligations.BuildWritesResultRegisters := by
  unfold Obligations.BuildWritesResultRegisters
  refine ⟨fun s => build_emptyTable, fun s hkey => ?_, fun n s t u hcount _ hf hbuild => build_after_count hcount hf hbuild⟩
  obtain ⟨m, hl, hm, hexec⟩ := build_completes hkey
  obtain ⟨hroot, hrootf⟩ := hm.root_freq hl
  have hle := ndist_le s.ft
  exact ⟨_, _, _, _, hexec, hroot, toNat_handle _ (by omega), hm.nodeAt_root hl, hrootf,
    fun h hh => hm.nodeAt_above (by omega)⟩

theorem keys_eq_singleton {ft : Tab Count} {sym : Symbol} (hsym : ftAt ft sym ≠ 0)
    (hother : ∀ y, y ≠ sym → ftAt ft y = 0) : keys ft = [sym] := by
  refine List.perm_singleton.mp ((List.perm_ext_iff_of_nodup (nodup_keys ft) (List.nodup_singleton sym)).mpr fun y => ?_)
  rw [mem_keys, List.mem_singleton]
  constructor
  · exact fun hy => by_contra fun hne => hy (hother y hne)
  · rintro rfl
    exact hsym

/-- Settles O23: with one key the root 2L - 2 is the leaf at handle 0. -/
theorem buildSingleLeaf : Obligations.BuildSingleLeaf := by
  unfold Obligations.BuildSingleLeaf
  intro s sym hsym hother
  obtain ⟨m, hl, hm, hexec⟩ := build_completes ⟨sym, hsym⟩
  have hkeys := keys_eq_singleton hsym hother
  have hone : ndist s.ft = 1 := by rw [ndist, hkeys, List.length_singleton]
  have hleaf : nodeAt m.node 0 = some (leafNode s.ft sym) := hm.leaves 0 sym (by rw [hkeys]; rfl)
  have hroot : m.pq.headD 0 = 0 := by
    obtain ⟨hroot, _⟩ := hm.root_freq hl
    rw [hone] at hroot
    exact BitVec.eq_of_toNat_eq hroot
  refine ⟨_, hexec, hroot, ?_, ?_, hleaf⟩
  · show BitVec.ofNat 9 (2 * ndist s.ft - 1) = 1
    rw [hone]
    rfl
  · show freqAt m.node (m.pq.headD 0) = _
    rw [hroot, freqAt_of_nodeAt _ _ _ hleaf]
    rfl

end Sys2Proof.Machine
end

section
/-! The Code Table Generator (42_code_table_generator.md): on a finalized tree GEN completes with the table that
`codesOf` makes, and the statements are read off `codesOf_spec` and the paths of the tree BUILD leaves. -/

namespace Sys2Proof.Machine

open Sys2Proof

/-! ### How GEN ends (R150) -/

theorem gen_noTree {s : State} (h : s.treeValid = false) : exec .gen s = .next (raise .noTree s) := by
  show execGen s = _
  rw [execGen, if_pos h]

theorem gen_completes {s : State} {ct : Tab Code} (hvalid : s.treeValid = true) (hct : codesOf s.node s.root = some ct) :
    exec .gen s = .next { s with ct := ct, ctValid := true } := by
  show execGen s = _
  simp only [execGen, hvalid, Bool.true_eq_false, if_false, hct]
  rfl

/-- Settles O24: the test of TREE_VALID comes first, and fault entry leaves CT alone. -/
theorem genNeedsTree : Obligations.GenNeedsTree := by
  unfold Obligations.GenNeedsTree
  exact fun s h => ⟨gen_noTree h, raise_ct _ s, rfl⟩

/-- Settles O26: the table of a single leaf has the one entry '0'. -/
theorem genSingleLeaf : Obligations.GenSingleLeaf := by
  unfold Obligations.GenSingleLeaf
  intro s n hvalid hn hkind
  refine ⟨_, gen_completes hvalid (codesOf_leaf n hn hkind), ?_, fun y hy => ?_⟩
  · rw [ctAt_ctPut, if_pos rfl]
  · rw [ctAt_ctPut, if_neg hy.symm, ctAt_nil]

/-- Settles O25: the traversal records the path of every key of the tree R43 (d) gives. -/
theorem genRecordsPaths : Obligations.GenRecordsPaths := by
  unfold Obligations.GenRecordsPaths
  intro s hvalid htree hl
  obtain ⟨_, _, hroot, hstands, _, _⟩ := htree hvalid
  obtain ⟨ct, hct, hpaths, habsent⟩ := codesOf_paths hstands hl hroot
  exact ⟨ct, gen_completes hvalid hct, hpaths, habsent⟩

/-! ### BUILD then GEN -/

/-- On a table with a key BUILD and GEN complete, and GEN's table is that of the finished tree (R137, R150). -/
theorem build_gen_complete {s : State} (hkey : ∃ sym, ftAt s.ft sym ≠ 0) : ∃ t u,
    exec .build s = .next t ∧ exec .gen t = .next u ∧ 1 ≤ ndist s.ft ∧ treeStands s.ft t.node ∧
      t.root.toNat = 2 * ndist s.ft - 2 ∧ codesOf t.node t.root = some u.ct := by
  obtain ⟨m, hl, hm, hbuild⟩ := build_completes hkey
  obtain ⟨hroot, _⟩ := hm.root_freq hl
  have hstands := hm.treeStands hl
  obtain ⟨ct, hct, _⟩ := codesOf_spec hstands hl hroot
  exact ⟨builtState s m, _, hbuild, gen_completes rfl hct, hl, hstands, hroot, hct⟩

/-! ### A complete prefix code (R153) -/

/-- In a prefix code at most one present code is a prefix of a given bit string. -/
theorem prefixFree.symbol_unique {ct : Tab Code} (hfree : prefixFree ct) {x y : Symbol} {b : Code}
    (hx : ctAt ct x ≠ []) (hy : ctAt ct y ≠ []) (hxb : ctAt ct x <+: b) (hyb : ctAt ct y <+: b) : x = y := by
  by_contra hne
  rcases List.prefix_or_prefix_of_prefix hxb hyb with h | h
  · exact hfree x y hne hx hy h
  · exact hfree y x (Ne.symm hne) hy hx h

/-- A tree whose keys have their paths as codes gives every bit string that is long enough a code as a prefix. -/
theorem exists_code_prefix {ft : Tab Count} {node : Tab Node} {root : Handle} {ct : Tab Code}
    (ht : treeStands ft node) (hl : 1 ≤ ndist ft) (hr : root.toNat = 2 * ndist ft - 2)
    (hpaths : ∀ sym, ftAt ft sym ≠ 0 → isPathOf node root sym (ctAt ct sym)) (b : Code) (hb : 255 ≤ b.length) :
    ∃ sym, ftAt ft sym ≠ 0 ∧ ctAt ct sym <+: b := by
  have hle := ndist_le ft
  obtain ⟨p, g, n, hpb, hg, hn, hkind⟩ := path_complete ht hl root.toNat root b le_rfl hr.le (by omega)
  have hpath : isPathOf node root n.sym p := ⟨g, n, hg, hn, hkind, rfl⟩
  have hkey := isPathOf_key ht hl hr hpath
  have hcode := isPathOf_unique ht hl hr hpath (hpaths _ hkey)
  exact ⟨n.sym, hkey, hcode ▸ hpb⟩

/-- Settles O27: `codesOf_spec` on the finished tree; a long bit string runs into one leaf. -/
theorem generatedCodesArePrefixCode : Obligations.GeneratedCodesArePrefixCode := by
  unfold Obligations.GeneratedCodesArePrefixCode
  intro s hkey
  obtain ⟨t, u, hbuild, hgen, hl, hstands, hroot, hct⟩ := build_gen_complete hkey
  obtain ⟨ct, hct', hkeys, hfree, _, _, hcodes⟩ := codesOf_spec hstands hl hroot
  cases hct.symm.trans hct'
  refine ⟨t, u, hbuild, hgen, hfree, hkeys, fun hl2 b hb => ?_, fun hone sym hsym => ?_⟩
  · obtain ⟨ct, hct', hpaths, _⟩ := codesOf_paths hstands hl2 hroot
    cases hct.symm.trans hct'
    obtain ⟨x, hx, hxb⟩ := exists_code_prefix hstands hl hroot hpaths b hb
    exact ⟨x, ⟨(hkeys x).mpr hx, hxb⟩, fun y ⟨hy, hyb⟩ => hfree.symbol_unique hy ((hkeys x).mpr hx) hyb hxb⟩
  · simpa only [if_pos hone] using hcodes sym ((hkeys sym).mp hsym)

/-- Settles O28: a code is not empty, and as a path it has at most L - 1 bits; the single code '0' has one. -/
theorem codeLengthsAreBounded : Obligations.CodeLengthsAreBounded := by
  unfold Obligations.CodeLengthsAreBounded
  intro s hkey
  obtain ⟨t, u, hbuild, hgen, hl, hstands, hroot, hct⟩ := build_gen_complete hkey
  obtain ⟨ct, hct', hkeys, _, hlen, _, hcodes⟩ := codesOf_spec hstands hl hroot
  cases hct.symm.trans hct'
  refine ⟨t, u, hbuild, hgen, fun sym hsym => ⟨List.length_pos_iff.mpr ((hkeys sym).mpr hsym), hlen sym, ?_⟩⟩
  have hcode := hcodes sym hsym
  split at hcode
  · rw [hcode]
    exact le_max_left _ _
  · obtain ⟨g, _, hg, _⟩ := hcode
    have hpath := path_length hstands hl _ t.root g hroot.le hg
    omega

end Sys2Proof.Machine
end

section
/-! The Bit Encoder (43_bit_encoder.md): ENCODE's tests in their order, then the frame. The statements are read off what
`writeFrame` can do, and that it is a function of its input and table is a relation every packing step keeps. -/

namespace Sys2Proof.Machine

open Sys2Proof

/-! ### The tests before the frame (R160, R229) -/

theorem encode_noTable {n : Imm} {s : State} (h : s.ctValid = false) :
    exec (.encode n) s = .next (raise .noTable s) := by
  show execEncode n s = _
  rw [execEncode, if_pos h]

theorem encode_emptyInput {s : State} (h : s.ctValid = true) : exec (.encode 0) s = .next (raise .emptyInput s) := by
  show execEncode 0 s = _
  rw [execEncode, if_neg (by simp [h]), if_pos rfl]

theorem encode_srcRange {n : Imm} {s : State} (h : s.ctValid = true) (h0 : n ≠ 0) (hn : s.cfg.ibufSize < n) :
    exec (.encode n) s = .next (raise (.srcRange n) s) := by
  show execEncode n s = _
  rw [execEncode, if_neg (by simp [h]), if_neg h0, if_pos hn]

/-! ### The frame from its header and its body loop -/

/-- The packing state at the first symbol: the header stands in OBUF. -/
def bodyStart (n : Nat) (ct : Tab Code) (obuf : Memory) : PackState :=
  { acc := [], wp := (header n ct).length, total := 0, obuf := memWrite obuf 0 (header n ct) }

theorem bodyStart_packedTo (n : Nat) (ct : Tab Code) (obuf : Memory) :
    PackedTo (header n ct).length (memWrite obuf 0 (header n ct)) [] 0 (bodyStart n ct obuf) :=
  PackedTo.start _ _

section

variable {ct : Tab Code} {ibuf obuf : Memory} {size n : Nat}

theorem writeFrame_headerOverflow (h : size < (header n ct).length) :
    writeFrame ct ibuf size n obuf = .error (.raised .dstOverflow obuf) := by
  rw [writeFrame, if_pos h]

theorem writeFrame_of_loop_error {e : Stop} (hfit : (header n ct).length ≤ size)
    (h : encodeLoop ct ibuf size n 0 (bodyStart n ct obuf) = .error e) : writeFrame ct ibuf size n obuf = .error e := by
  rw [bodyStart] at h
  rw [writeFrame, if_neg (Nat.not_lt.mpr hfit), h]

theorem writeFrame_of_loop_ok {ps : PackState} (hfit : (header n ct).length ≤ size)
    (h : encodeLoop ct ibuf size n 0 (bodyStart n ct obuf) = .ok ps) :
    writeFrame ct ibuf size n obuf = flushLast size ps := by
  rw [bodyStart] at h
  rw [writeFrame, if_neg (Nat.not_lt.mpr hfit), h]

end

theorem length_frameOf (ct : Tab Code) (xs : List Symbol) :
    (frameOf ct xs).length = (header xs.length ct).length + bytesFor (bodyBits ct xs).length := by
  rw [frameOf, List.length_append, length_pack]

/-! ### How ENCODE ends past its first three tests -/

theorem ibufHolds_take {s : State} {xs : List Symbol} (h : ibufHolds s xs) (i : Nat) : ibufHolds s (xs.take i) := by
  intro a ha
  rw [List.length_take] at ha
  rw [h a (by omega), List.getElem?_take_of_lt (by omega)]

section

variable {n : Imm} {s : State} {xs : List Symbol} (hvalid : s.ctValid = true) (h0 : n ≠ 0) (hn : n ≤ s.cfg.ibufSize)
include hvalid h0 hn

theorem encode_of_frame_ok {ps : PackState}
    (h : writeFrame s.ct s.ibuf s.cfg.obufSize.toNat n.toNat s.obuf = .ok ps) : exec (.encode n) s =
      .next { s with obuf := ps.obuf, olen := BitVec.ofNat 32 ps.wp, tbits := BitVec.ofNat 48 ps.total } := by
  show execEncode n s = _
  rw [execEncode_run n s hvalid h0 hn, h]

theorem encode_of_frame_error {e : Stop}
    (h : writeFrame s.ct s.ibuf s.cfg.obufSize.toNat n.toNat s.obuf = .error e) :
    exec (.encode n) s = stopOutcome s e := by
  show execEncode n s = _
  rw [execEncode_run n s hvalid h0 hn, h]

/-- A header that does not fit OBUF (R161). -/
theorem encode_headerOverflow (hover : s.cfg.obufSize.toNat < (header n.toNat s.ct).length) :
    exec (.encode n) s = .next (raise .dstOverflow s) :=
  encode_of_frame_error hvalid h0 hn (writeFrame_headerOverflow hover)

variable (hxs : ibufHolds s xs)
include hxs

/-- The first symbol without a code, when the whole bytes before it fit (R164, R165). -/
theorem encode_noCode {i : Nat} {x : Symbol} (hlen : xs.length = n.toNat)
    (hhead : (header n.toNat s.ct).length ≤ s.cfg.obufSize.toNat) (hx : xs[i]? = some x) (hnone : ctAt s.ct x = [])
    (hcodes : ∀ y ∈ xs.take i, ctAt s.ct y ≠ [])
    (hfit : (header n.toNat s.ct).length + (bodyBits s.ct (xs.take i)).length / 8 ≤ s.cfg.obufSize.toNat) :
    ∃ obuf, exec (.encode n) s = .next (raise (.noCode i) { s with obuf := obuf }) := by
  obtain ⟨hi, _⟩ := List.getElem?_eq_some_iff.mp hx
  have hilen : (xs.take i).length = i := List.length_take_of_le hi.le
  have hnext : xs.take i ++ [x] = xs.take (i + 1) := by rw [List.take_add_one, hx, Option.toList_some]
  obtain ⟨ps, hloop, _⟩ := encodeLoop_noCode (xs.take i) x 0 n.toNat (bodyStart_packedTo n.toNat s.ct s.obuf)
    (ibuf := s.ibuf) (fun j hj => by
      rw [Nat.zero_add, hnext]
      exact ibufHolds_take hxs (i + 1) j (by rw [List.length_take]; omega))
    hcodes hnone (by omega) hfit
  rw [Nat.zero_add, hilen] at hloop
  exact ⟨_, encode_of_frame_error hvalid h0 hn (writeFrame_of_loop_error hhead hloop)⟩

/-- The whole bytes of the codes before symbol `i` outgrow OBUF (R165). -/
theorem encode_bodyOverflow {i : Nat} (hlen : xs.length = n.toNat)
    (hhead : (header n.toNat s.ct).length ≤ s.cfg.obufSize.toNat) (hcodes : ∀ y ∈ xs.take i, ctAt s.ct y ≠ [])
    (hover : s.cfg.obufSize.toNat < (header n.toNat s.ct).length + (bodyBits s.ct (xs.take i)).length / 8) :
    ∃ obuf, exec (.encode n) s = .next (raise .dstOverflow { s with obuf := obuf }) := by
  obtain ⟨_, ps, _, hloop, _⟩ := encodeLoop_full (xs.take i) 0 n.toNat (bodyStart_packedTo n.toNat s.ct s.obuf)
    (ibuf := s.ibuf) hhead (fun j hj => by rw [Nat.zero_add]; exact ibufHolds_take hxs i j hj)
    hcodes (by rw [List.length_take]; omega) hover
  exact ⟨_, encode_of_frame_error hvalid h0 hn (writeFrame_of_loop_error hhead hloop)⟩

variable (hlen : n.toNat = xs.length) (hcodes : ∀ x ∈ xs, ctAt s.ct x ≠ [])
include hlen hcodes

/-- All symbols have codes and the frame does not fit: either a whole byte or the last, partial one has no room
(R165). -/
theorem encode_frameOverflow (hhead : (header n.toNat s.ct).length ≤ s.cfg.obufSize.toNat)
    (hover : s.cfg.obufSize.toNat < (frameOf s.ct xs).length) :
    ∃ obuf, exec (.encode n) s = .next (raise .dstOverflow { s with obuf := obuf }) := by
  rw [length_frameOf, ← hlen] at hover
  by_cases hwhole : s.cfg.obufSize.toNat < (header n.toNat s.ct).length + (bodyBits s.ct xs).length / 8
  · rw [← List.take_length (l := xs)] at hcodes hwhole
    exact encode_bodyOverflow hvalid h0 hn hxs hlen.symm hhead hcodes hwhole
  · rw [Nat.not_lt] at hwhole
    obtain ⟨ps, hloop, hps⟩ := encodeLoop_ok xs 0 (bodyStart_packedTo n.toNat s.ct s.obuf) (ibuf := s.ibuf)
      (fun j hj => by rw [Nat.zero_add]; exact hxs j hj) hcodes hwhole
    rw [← hlen] at hloop
    have hframe := writeFrame_of_loop_ok hhead hloop
    rw [flushLast_full hps hwhole hover] at hframe
    exact ⟨_, encode_of_frame_error hvalid h0 hn hframe⟩

/-- All symbols have codes and the frame fits: ENCODE writes it and leaves OBUF above it as it was (R162, R163). -/
theorem encode_completes (hfit : (frameOf s.ct xs).length ≤ s.cfg.obufSize.toNat) : ∃ obuf,
    exec (.encode n) s = .next { s with
      obuf := obuf, olen := BitVec.ofNat 32 (frameOf s.ct xs).length,
      tbits := BitVec.ofNat 48 (bodyBits s.ct xs).length } ∧
    ∀ a, memGet obuf a = if a < (frameOf s.ct xs).length then (frameOf s.ct xs)[a]? else memGet s.obuf a := by
  obtain ⟨ps, hframe, hwp, htotal, hbytes⟩ := writeFrame_ok xs xs.length rfl hxs hcodes hfit (obuf0 := s.obuf)
  have hlength : ps.wp = (frameOf s.ct xs).length := hwp
  rw [← hlen] at hframe
  exact ⟨ps.obuf, by rw [encode_of_frame_ok hvalid h0 hn hframe, hlength, htotal], hlength ▸ hbytes⟩

end

/-- The bits of a body fit the 48 bits of TBITS when its bytes fit OBUF (R29). -/
theorem toNat_frame_registers {ct : Tab Code} {xs : List Symbol} {size : BitVec 32}
    (h : (frameOf ct xs).length ≤ size.toNat) :
    (BitVec.ofNat 32 (frameOf ct xs).length).toNat = (frameOf ct xs).length ∧
      (BitVec.ofNat 48 (bodyBits ct xs).length).toNat = (bodyBits ct xs).length := by
  have hsize := size.isLt
  have hlen := length_frameOf ct xs
  rw [bytesFor] at hlen
  exact ⟨Nat.mod_eq_of_lt (by omega), Nat.mod_eq_of_lt (by omega)⟩

/-- Settles O29: the tests of R160 in their order; the header's is the frame's first. -/
theorem encodeTestsInOrder : Obligations.EncodeTestsInOrder := by
  unfold Obligations.EncodeTestsInOrder
  intro n s
  refine ⟨encode_noTable, fun hvalid h0 => ?_, encode_srcRange, encode_headerOverflow⟩
  subst h0
  exact encode_emptyInput hvalid

/-- Settles O30: the packing loop over symbols that all have codes, with room for the frame. -/
theorem encodeWritesFrame : Obligations.EncodeWritesFrame := by
  unfold Obligations.EncodeWritesFrame
  intro n s xs hvalid h0 hn hlen hxs hcodes hfit
  rw [← hlen] at hfit ⊢
  change (frameOf s.ct xs).length ≤ _ at hfit
  obtain ⟨obuf, hexec, hbytes⟩ := encode_completes hvalid h0 hn hxs hlen.symm hcodes hfit
  obtain ⟨holen, htbits⟩ := toNat_frame_registers hfit
  refine ⟨obuf, _, _, hexec, fun a ha => ?_, holen.trans (length_frameOf s.ct xs), htbits, fun a ha => ?_⟩
  · rw [hbytes, if_pos (holen ▸ ha)]
    rfl
  · rw [hbytes, if_neg (Nat.not_lt.mpr (holen ▸ ha))]

/-- Settles O32: the header's test, then the body loop's two ways to stop and the last byte's. -/
theorem encodeStops : Obligations.EncodeStops := by
  unfold Obligations.EncodeStops
  intro n s xs hvalid h0 hn hlen hxs
  refine ⟨encode_headerOverflow hvalid h0 hn, fun i x hhead hx hnone hcodes => ⟨?_, ?_⟩, fun hhead hcodes hover => ?_⟩
  · exact encode_noCode hvalid h0 hn hxs hlen hhead hx hnone hcodes
  · exact encode_bodyOverflow hvalid h0 hn hxs hlen hhead hcodes
  · refine encode_frameOverflow hvalid h0 hn hxs hlen.symm hcodes hhead ?_
    rwa [length_frameOf, hlen]

/-! ### The header (R91 to R95, R161) -/

/-- A header has at most 256 entries of at most 34 bytes each (R161). -/
theorem length_header_le {ct : Tab Code} (h : ctWf ct = true) (n : Nat) : (header n ct).length ≤ 8710 := by
  have hentry : ∀ k ∈ (present ct).map (fun sym => 2 + ((ctAt ct sym).length + 7) / 8), k ≤ 34 := by
    intro k hk
    obtain ⟨sym, _, rfl⟩ := List.mem_map.mp hk
    have := length_ctAt_le ct h sym
    omega
  have hsum := List.sum_le_card_nsmul _ 34 hentry
  have hcount := length_present_le ct
  rw [List.length_map, smul_eq_mul] at hsum
  rw [length_header]
  omega

/-- The header of a table with a code has an entry of at least three bytes. -/
theorem le_length_header {ct : Tab Code} {x : Symbol} (hx : ctAt ct x ≠ []) (n : Nat) : 9 ≤ (header n ct).length := by
  have hentry := List.le_sum_of_mem
    (List.mem_map_of_mem (f := fun sym => 2 + ((ctAt ct sym).length + 7) / 8) ((mem_present ct x).mpr hx))
  have hbits := List.length_pos_iff.mpr hx
  rw [length_header]
  omega

/-- The shortest frame of a symbol or more (R95): the header has nine bytes and the body one. -/
theorem le_length_frameOf {ct : Tab Code} {xs : List Symbol} (hne : xs ≠ []) (hcodes : ∀ x ∈ xs, ctAt ct x ≠ []) :
    10 ≤ (frameOf ct xs).length := by
  obtain ⟨x, xs, rfl⟩ := List.exists_cons_of_ne_nil hne
  have hx : ctAt ct x ≠ [] := hcodes x List.mem_cons_self
  have hhead := le_length_header hx (x :: xs).length
  have hbits := List.length_pos_iff.mpr hx
  rw [length_frameOf, bodyBits, List.flatMap_cons, List.length_append, bytesFor]
  omega

/-- Settles O31: the entries are those of the present symbols, each of 3 to 34 bytes. -/
theorem headerLayout : Obligations.HeaderLayout := by
  unfold Obligations.HeaderLayout
  refine ⟨fun n ct => ⟨present_sorted ct, mem_present ct, length_header n ct, fun hwf => ⟨rfl, fun sym => ?_, ?_⟩⟩,
    fun ct xs => ⟨?_, le_length_frameOf⟩, by decide⟩
  · have := length_ctAt_le ct hwf sym
    exact Nat.mod_eq_of_lt (by omega)
  · exact length_header_le hwf n
  · rw [length_frameOf, length_header, bytesFor]

/-! ### ENCODE is a function of its input, the code table and the sizes (R167) -/

/-- Two packing states that agree but for what OBUF holds from the next address on. -/
structure SamePacked (ps qs : PackState) : Prop where
  acc : qs.acc = ps.acc
  wp : qs.wp = ps.wp
  total : qs.total = ps.total
  bytes : ∀ a, a < ps.wp → memGet qs.obuf a = memGet ps.obuf a

/-- Two ends of a packing engine that agree: in such states, or by the same stop, whatever OBUF then holds. -/
inductive SameEnd : Except Stop PackState → Except Stop PackState → Prop
  | ok {ps qs : PackState} (h : SamePacked ps qs) : SameEnd (.ok ps) (.ok qs)
  | raised (c : Cause) (o o' : Memory) : SameEnd (.error (.raised c o)) (.error (.raised c o'))
  | refused (r : Refusal) : SameEnd (.error (.refused r)) (.error (.refused r))

theorem putBodyByte_same (size : Nat) {ps qs : PackState} (h : SamePacked ps qs) :
    SameEnd (putBodyByte size ps) (putBodyByte size qs) := by
  rw [putBodyByte, putBodyByte, h.wp, h.acc]
  split
  · exact .raised _ _ _
  · refine .ok ⟨rfl, rfl, h.total, fun a ha => ?_⟩
    rw [memGet_memPut, memGet_memPut]
    split
    · rfl
    · exact h.bytes a (by simp only at ha; omega)

theorem flushBytes_same (size k : Nat) {ps qs : PackState} (h : SamePacked ps qs) :
    SameEnd (flushBytes size k ps) (flushBytes size k qs) := by
  induction k generalizing ps qs with
  | zero => exact .ok h
  | succ k ih =>
    have hbyte := putBodyByte_same size h
    rw [flushBytes, flushBytes]
    generalize putBodyByte size ps = p, putBodyByte size qs = q at hbyte ⊢
    cases hbyte with
    | ok h' => exact ih h'
    | raised c o o' => exact .raised c o o'
    | refused r => exact .refused r

theorem appendCode_same (size : Nat) (c : Code) {ps qs : PackState} (h : SamePacked ps qs) :
    SameEnd (appendCode size c ps) (appendCode size c qs) := by
  rw [appendCode, appendCode, h.acc, h.total]
  exact flushBytes_same size _ ⟨rfl, h.wp, rfl, h.bytes⟩

theorem flushLast_same (size : Nat) {ps qs : PackState} (h : SamePacked ps qs) :
    SameEnd (flushLast size ps) (flushLast size qs) := by
  rw [flushLast, flushLast, h.acc]
  split
  · exact .ok h
  · exact putBodyByte_same size h

theorem readByte_congr {ibuf ibuf' : Memory} {a : Nat} (h : memGet ibuf a = memGet ibuf' a) :
    readByte ibuf a = readByte ibuf' a := by
  rw [readByte, readByte, h]

theorem header_congr {ct ct' : Tab Code} (h : ∀ x, ctAt ct x = ctAt ct' x) (n : Nat) : header n ct = header n ct' := by
  rw [header, header, headerEntries, headerEntries, present_congr ct ct' h, funext h]

section

variable {ct ct' : Tab Code} {ibuf ibuf' : Memory} (hct : ∀ x, ctAt ct x = ctAt ct' x)
include hct

theorem encodeLoop_same (size k i : Nat) (hin : ∀ a, i ≤ a → a < i + k → memGet ibuf a = memGet ibuf' a)
    {ps qs : PackState} (h : SamePacked ps qs) :
    SameEnd (encodeLoop ct ibuf size k i ps) (encodeLoop ct' ibuf' size k i qs) := by
  induction k generalizing i ps qs with
  | zero => exact .ok h
  | succ k ih =>
    rw [encodeLoop, encodeLoop, readByte_congr (hin i le_rfl (by omega))]
    cases hread : readByte ibuf' i with
    | error e =>
      obtain ⟨_, rfl⟩ := readByte_error ibuf' i e hread
      exact .refused _
    | ok x =>
      simp only [hct x]
      split
      · exact .raised _ _ _
      · have hcode := appendCode_same size (ctAt ct' x) h
        generalize appendCode size (ctAt ct' x) ps = p, appendCode size (ctAt ct' x) qs = q at hcode ⊢
        cases hcode with
        | ok h' => exact ih (i + 1) (fun a hia hak => hin a (by omega) (by omega)) h'
        | raised c o o' => exact .raised c o o'
        | refused r => exact .refused r

theorem writeFrame_same (size n : Nat) (hin : ∀ a, a < n → memGet ibuf a = memGet ibuf' a) (obuf obuf' : Memory) :
    SameEnd (writeFrame ct ibuf size n obuf) (writeFrame ct' ibuf' size n obuf') := by
  by_cases hfit : (header n ct).length ≤ size
  · have hstart : SamePacked (bodyStart n ct obuf) (bodyStart n ct' obuf') := by
      refine ⟨rfl, by rw [bodyStart, bodyStart, header_congr hct], rfl, fun a ha => ?_⟩
      change a < (header n ct).length at ha
      show memGet (memWrite obuf' 0 (header n ct')) a = memGet (memWrite obuf 0 (header n ct)) a
      rw [← header_congr hct, memGet_memWrite, memGet_memWrite, if_pos (by omega), if_pos (by omega)]
    have hloop := encodeLoop_same hct size n 0 (fun a _ ha => hin a (by omega)) hstart
    have hfit' : (header n ct').length ≤ size := header_congr hct n ▸ hfit
    generalize hp : encodeLoop ct ibuf size n 0 (bodyStart n ct obuf) = p,
      hq : encodeLoop ct' ibuf' size n 0 (bodyStart n ct' obuf') = q at hloop
    cases hloop with
    | ok h =>
      rw [writeFrame_of_loop_ok hfit hp, writeFrame_of_loop_ok hfit' hq]
      exact flushLast_same size h
    | raised c o o' =>
      rw [writeFrame_of_loop_error hfit hp, writeFrame_of_loop_error hfit' hq]
      exact .raised c o o'
    | refused r =>
      rw [writeFrame_of_loop_error hfit hp, writeFrame_of_loop_error hfit' hq]
      exact .refused r
  · rw [writeFrame_headerOverflow (Nat.not_le.mp hfit),
      writeFrame_headerOverflow (header_congr hct n ▸ Nat.not_le.mp hfit)]
    exact .raised _ _ _

end

/-- The same fault, or the same OLEN, TBITS and defined bytes of OBUF. -/
def sameOutput (s t : State) : Prop :=
  s.fault = t.fault ∧ s.olen = t.olen ∧ (s.fault = true → s.err = t.err ∧ s.errinfo = t.errinfo) ∧
    (s.fault = false → s.tbits = t.tbits) ∧ ∀ a, a < s.olen.toNat → memGet s.obuf a = memGet t.obuf a

/-- Fault entry leaves OLEN = 0, so no byte of OBUF is defined. -/
theorem sameOutput_raise (c : Cause) (s t : State) : sameOutput (raise c s) (raise c t) := by
  refine ⟨rfl, rfl, fun _ => ⟨rfl, rfl⟩, fun h => ?_, fun a ha => ?_⟩
  · cases h
  · exact absurd ha (Nat.not_lt_zero a)

/-- Two runs that end with the same fault. -/
theorem sameOutput_of_raised {o o' : Host.Outcome State Fault Refusal} {s t s' t' : State} (c : Cause)
    (ho : o = .next (raise c s)) (ho' : o' = .next (raise c t)) (hs : o = .next s') (ht : o' = .next t') :
    sameOutput s' t' := by
  cases hs.symm.trans ho
  cases ht.symm.trans ho'
  exact sameOutput_raise c s t

/-- Settles O33: the tests read the sizes, CT_VALID and n, and the frame is the same by `writeFrame_same`. -/
theorem encodeDependsOnInputAndTable : Obligations.EncodeDependsOnInputAndTable := by
  unfold Obligations.EncodeDependsOnInputAndTable
  intro n s t s' t' hcfg hvalid hfs hft hct hin hs ht
  show sameOutput s' t'
  cases hv : s.ctValid with
  | false => exact sameOutput_of_raised _ (encode_noTable hv) (encode_noTable (hvalid ▸ hv)) hs ht
  | true =>
    have hv' : t.ctValid = true := hvalid ▸ hv
    by_cases h0 : n = 0
    · subst h0
      exact sameOutput_of_raised _ (encode_emptyInput hv) (encode_emptyInput hv') hs ht
    by_cases hn : s.cfg.ibufSize < n
    · exact sameOutput_of_raised _ (encode_srcRange hv h0 hn) (encode_srcRange hv' h0 (hcfg ▸ hn)) hs ht
    replace hn : n ≤ s.cfg.ibufSize := BitVec.not_lt.mp hn
    have hn' : n ≤ t.cfg.ibufSize := hcfg ▸ hn
    have hframe := writeFrame_same hct s.cfg.obufSize.toNat n.toNat hin s.obuf t.obuf
    generalize hp : writeFrame s.ct s.ibuf s.cfg.obufSize.toNat n.toNat s.obuf = p,
      hq : writeFrame t.ct t.ibuf s.cfg.obufSize.toNat n.toNat t.obuf = q at hframe
    rw [hcfg] at hq
    cases hframe with
    | ok h =>
      rw [encode_of_frame_ok hv h0 hn hp] at hs
      rw [encode_of_frame_ok hv' h0 hn' hq, h.wp, h.total] at ht
      cases hs
      cases ht
      refine ⟨hfs.trans hft.symm, rfl, fun hf => ?_, fun _ => rfl, fun a ha => (h.bytes a ?_).symm⟩
      · cases hfs.symm.trans hf
      · exact lt_of_lt_of_le ha (Nat.mod_le _ _)
    | raised c o o' =>
      exact sameOutput_of_raised c (encode_of_frame_error hv h0 hn hp) (encode_of_frame_error hv' h0 hn' hq) hs ht
    | refused r =>
      rw [encode_of_frame_error hv h0 hn hp] at hs
      cases hs

end Sys2Proof.Machine
end

section
/-! COMPRESS n (45_control_commands.md R214, 43_bit_encoder.md R166, R167): a fault of COUNT's tests discards the other
three words; otherwise BUILD and GEN complete, and ENCODE runs with a table that the input alone fixes. -/

namespace Sys2Proof.Machine

open Sys2Proof

/-! ### Sequences of words (R212, R213) -/

theorem encode_ne_clrWord {i : Instr} (h : i ≠ .clr) : encode i ≠ clrWord := by
  intro hw
  have hclr : clrWord = encode .clr := by decide
  have hdecode := decode_encode i
  rw [hw, hclr, decode_encode] at hdecode
  cases hdecode
  exact h rfl

theorem acceptWord_encode {s : State} (hf : s.fault = false) (i : Instr) :
    acceptWord (encode i) s = exec i (bumpCmdcnt s) :=
  acceptWord_command hf (decode_encode i)

/-- Running a sequence that begins with a command while FAULT = 0. -/
theorem acceptWords_encode_next {i : Instr} {ws : List CmdWord} {s u : State}
    (h : acceptWords (encode i :: ws) s = .next u) (hf : s.fault = false) :
    ∃ t, exec i (bumpCmdcnt s) = .next t ∧ acceptWords ws t = .next u := by
  rw [acceptWords, acceptWord_encode hf] at h
  split at h
  · exact ⟨_, ‹_›, h⟩
  · cases h
  · cases h

/-- While FAULT = 1 words other than CLR are counted and discarded (R212). -/
theorem acceptWords_discarded (ws : List CmdWord) (s : State) (hf : s.fault = true) (hws : ∀ w ∈ ws, w ≠ clrWord) :
    acceptWords ws s = .next { s with cmdcnt := s.cmdcnt + BitVec.ofNat 32 ws.length } := by
  induction ws generalizing s with
  | nil => simp [acceptWords]
  | cons w ws ih =>
    have hw : acceptWord w s = .next (bumpCmdcnt s) := by simp [acceptWord, hf, hws w]
    rw [acceptWords, hw, List.length_cons, Nat.add_comm ws.length, BitVec.ofNat_add, ← BitVec.add_assoc]
    exact ih (bumpCmdcnt s) hf fun v hv => hws v (List.mem_cons_of_mem w hv)

/-- A fault of COUNT's tests, and the three words after it discarded (R214). -/
theorem compress_of_count_fault {n : Imm} {s : State} {c : Cause} (hf : s.fault = false)
    (h : exec (.count n) (bumpCmdcnt s) = .next (raise c (bumpCmdcnt s))) :
    acceptWords (compressWords n) s = .next (raise c { s with cmdcnt := s.cmdcnt + 4 }) := by
  have hrest := acceptWords_discarded [encode .build, encode .gen, encode (.encode n)] (raise c (bumpCmdcnt s)) rfl
    (by simp [encode_ne_clrWord])
  have hfour : s.cmdcnt + 1 + 3#32 = s.cmdcnt + 4 := BitVec.add_assoc _ _ _
  rw [compressWords, acceptWords, acceptWord_encode hf, h, ← hfour]
  exact hrest

theorem compress_emptyInput {s : State} (hf : s.fault = false) :
    acceptWords (compressWords 0) s = .next (raise .emptyInput { s with cmdcnt := s.cmdcnt + 4 }) :=
  compress_of_count_fault hf (count_emptyInput _)

theorem compress_srcRange {n : Imm} {s : State} (hf : s.fault = false) (h0 : n ≠ 0) (hn : s.cfg.ibufSize < n) :
    acceptWords (compressWords n) s = .next (raise (.srcRange n) { s with cmdcnt := s.cmdcnt + 4 }) :=
  compress_of_count_fault hf (count_srcRange h0 hn)

/-! ### The state in which COMPRESS runs ENCODE -/

/-- `m` is the finished merge loop of BUILD on a state with the FrequencyTable `ft`. -/
def isMergeOf (ft : Tab Count) (m : Merge) : Prop :=
  ∃ s : State, s.ft = ft ∧ m = mergeLoop (ndist s.ft - 1) (mergeStart s)

/-- BUILD of a table with a key ends with its finished merge loop (R130, R136). -/
theorem build_next_isMergeOf {s t : State} (hl : 1 ≤ ndist s.ft) (h : exec .build s = .next t) :
    ∃ m, isMergeOf s.ft m ∧ t = builtState s m := by
  obtain ⟨hnone, _⟩ | ⟨_, ht⟩ := execBuild_next s t h
  · exact absurd hnone (Nat.one_le_iff_ne_zero.mp hl)
  · exact ⟨_, ⟨s, rfl, rfl⟩, ht⟩

/-- `u` is what COUNT n, BUILD and GEN have made of `s`, all three without a fault. -/
structure CodedFrom (n : Imm) (s u : State) : Prop where
  fault : u.fault = false
  treeValid : u.treeValid = true
  ctValid : u.ctValid = true
  cfg : u.cfg = s.cfg
  ibuf : u.ibuf = s.ibuf
  counted : countLoop s.ibuf n.toNat 0 [] = .ok u.ft
  hasKey : 1 ≤ ndist u.ft
  nnodes : u.nnodes = BitVec.ofNat 9 (2 * ndist u.ft - 1)
  built : ∃ m, isMergeOf u.ft m ∧ u.node = m.node ∧ u.root = m.pq.headD 0 ∧ u.rootf = freqAt m.node (m.pq.headD 0)
  coded : codesOf u.node u.root = some u.ct

/-- Past COUNT's tests COMPRESS n ends as ENCODE n does once the table stands (R214). -/
theorem compress_next {n : Imm} {s t : State} (hf : s.fault = false) (h0 : n ≠ 0) (hn : n ≤ s.cfg.ibufSize)
    (h : acceptWords (compressWords n) s = .next t) : ∃ u, CodedFrom n s u ∧ exec (.encode n) u = .next t := by
  obtain ⟨s1, hcount, hrest⟩ := acceptWords_encode_next h hf
  obtain ⟨hzero, _⟩ | ⟨_, hlt, _⟩ | ⟨_, _, ft, hft, rfl⟩ := execCount_next n (bumpCmdcnt s) s1 hcount
  · exact absurd hzero h0
  · exact absurd hn (BitVec.not_le.mpr hlt)
  obtain ⟨_, hsum⟩ := count_ftSum hcount hf
  have hsum0 : ftSum ft ≠ 0 := fun hz => h0 (BitVec.eq_of_toNat_eq (hsum.symm.trans hz))
  have hkey : 1 ≤ ndist ft := (ndist_pos_iff ft).mpr (exists_key_of_ftSum_ne_zero hsum0)
  obtain ⟨s2, hbuild, hrest⟩ := acceptWords_encode_next hrest hf
  obtain ⟨m, hm, rfl⟩ := build_next_isMergeOf hkey hbuild
  obtain ⟨s3, hgen, hrest⟩ := acceptWords_encode_next hrest hf
  obtain ⟨hnone, _⟩ | ⟨_, ct, hct, rfl⟩ := execGen_next _ s3 hgen
  · cases hnone
  obtain ⟨s4, hencode, hrest⟩ := acceptWords_encode_next hrest hf
  cases hrest
  refine ⟨_, ?_, hencode⟩
  exact ⟨hf, rfl, rfl, rfl, rfl, hft, hkey, rfl, ⟨m, hm, rfl, rfl, rfl⟩, hct⟩

/-! ### The input alone fixes the tables (R167) -/

theorem countLoop_congr {ibuf ibuf' : Memory} (k i : Nat) (ft : Tab Count)
    (h : ∀ a, i ≤ a → a < i + k → memGet ibuf a = memGet ibuf' a) :
    countLoop ibuf k i ft = countLoop ibuf' k i ft := by
  induction k generalizing i ft with
  | zero => rfl
  | succ k ih =>
    rw [countLoop, countLoop, readByte_congr (h i le_rfl (by omega))]
    cases readByte ibuf' i with
    | error e => rfl
    | ok x => exact ih (i + 1) _ fun a hia hak => h a (by omega) (by omega)

/-- Two finished merge loops of one FrequencyTable have the same root and the same nodes up to it. -/
theorem isMergeOf_same {ft : Tab Count} {m m' : Merge} (hl : 1 ≤ ndist ft) (h : isMergeOf ft m)
    (h' : isMergeOf ft m') :
    m'.pq = m.pq ∧ sameBelow m.node m'.node (2 * ndist ft - 1) := by
  obtain ⟨s, rfl, rfl⟩ := h
  obtain ⟨t, hft, rfl⟩ := h'
  have hsame := build_same s t hft hl
  rwa [hft]

theorem isMergeOf_tree {ft : Tab Count} {m : Merge} (hl : 1 ≤ ndist ft) (h : isMergeOf ft m) :
    treeStands ft m.node ∧ (m.pq.headD 0).toNat = 2 * ndist ft - 2 := by
  obtain ⟨s, rfl, rfl⟩ := h
  have hm := build_merged s hl
  obtain ⟨hroot, _⟩ := hm.root_freq hl
  exact ⟨hm.treeStands hl, hroot⟩

/-- What COMPRESS leaves in the tables and result registers before and after its ENCODE. -/
def sameTables (s t : State) : Prop :=
  s.treeValid = t.treeValid ∧ s.ctValid = t.ctValid ∧ s.root = t.root ∧ s.nnodes = t.nnodes ∧ s.rootf = t.rootf ∧
    s.ft = t.ft ∧ s.ct = t.ct ∧ ∀ h : Handle, h.toNat < s.nnodes.toNat → nodeAt s.node h = nodeAt t.node h

namespace CodedFrom

variable {n : Imm} {s t u v : State}

/-- The tree of the counts stands under ROOT (R43 (d)). -/
theorem tree (h : CodedFrom n s u) : treeStands u.ft u.node ∧ u.root.toNat = 2 * ndist u.ft - 2 := by
  obtain ⟨m, hm, hnode, hroot, _⟩ := h.built
  rw [hnode, hroot]
  exact isMergeOf_tree h.hasKey hm

theorem toNat_nnodes (h : CodedFrom n s u) : u.nnodes.toNat = 2 * ndist u.ft - 1 := by
  have hle := ndist_le u.ft
  rw [h.nnodes, toNat_handle _ (by omega)]

/-- The same input gives the same tables, whatever the two states held before. -/
theorem sameTables (h : CodedFrom n s u) (h' : CodedFrom n t v)
    (hin : ∀ a, a < n.toNat → memGet s.ibuf a = memGet t.ibuf a) : sameTables u v := by
  have hft : u.ft = v.ft := by
    have hcounted := h.counted
    rw [countLoop_congr n.toNat 0 [] fun a _ ha => hin a (by omega), h'.counted] at hcounted
    exact (Except.ok.inj hcounted).symm
  obtain ⟨hstands, hrootNo⟩ := h.tree
  obtain ⟨m, hm, hnode, hroot, hrootf⟩ := h.built
  obtain ⟨m', hm', hnode', hroot', hrootf'⟩ := h'.built
  rw [← hft] at hm'
  obtain ⟨hpq, hbelow⟩ := isMergeOf_same h.hasKey hm hm'
  rw [hpq] at hroot' hrootf'
  rw [← hnode] at hrootf
  rw [← hnode, ← hnode'] at hbelow
  have hrootEq : u.root = v.root := hroot.trans hroot'.symm
  have hkey := h.hasKey
  refine ⟨h.treeValid.trans h'.treeValid.symm, h.ctValid.trans h'.ctValid.symm, hrootEq, ?_, ?_, hft, ?_,
    fun g hg => ?_⟩
  · rw [h.nnodes, h'.nnodes, hft]
  · rw [hrootf, hrootf', ← hnode', ← hroot, hbelow.freqAt u.root (by omega)]
  · have hcoded := h'.coded
    rw [← hrootEq, codesOf_same hstands hkey hrootNo hbelow, h.coded] at hcoded
    exact Option.some.inj hcoded
  · exact (hbelow.nodeAt g (h.toNat_nnodes ▸ hg)).symm

/-- FT holds the counts of the input (R121). -/
theorem counts (h : CodedFrom n s u) {xs : List Symbol} (hlen : xs.length = n.toNat) (hxs : ibufHolds s xs)
    (x : Symbol) : (ftAt u.ft x).toNat = xs.count x := by
  obtain ⟨ft, hft, hcounts⟩ := countLoop_counts xs s.ibuf hxs (hlen ▸ n.isLt)
  rw [hlen, h.counted] at hft
  cases hft
  exact hcounts x

/-- GEN's table has codes for exactly the keys, and the code '0' for a single one (R152, R153). -/
theorem codes (h : CodedFrom n s u) :
    (∀ x, ctAt u.ct x ≠ [] ↔ ftAt u.ft x ≠ 0) ∧ (ndist u.ft = 1 → ∀ x, ftAt u.ft x ≠ 0 → ctAt u.ct x = [false]) := by
  obtain ⟨hstands, hroot⟩ := h.tree
  obtain ⟨ct, hct, hkeys, _, _, _, hcodes⟩ := codesOf_spec hstands h.hasKey hroot
  cases h.coded.symm.trans hct
  exact ⟨hkeys, fun hone x hx => by simpa only [if_pos hone] using hcodes x hx⟩

end CodedFrom

/-! ### What ENCODE keeps (R160) -/

/-- ENCODE changes no table and, of the result registers, only OLEN and TBITS. -/
theorem encode_keeps_tables {n : Imm} {s t : State} (h : exec (.encode n) s = .next t) :
    t.treeValid = s.treeValid ∧ t.ctValid = s.ctValid ∧ t.root = s.root ∧ t.nnodes = s.nnodes ∧ t.rootf = s.rootf ∧
      t.ft = s.ft ∧ t.ct = s.ct ∧ t.node = s.node := by
  cases exec_ends (.encode n) s t h with
  | encode | testFault | encodeFault => exact ⟨rfl, rfl, rfl, rfl, rfl, rfl, rfl, rfl⟩

theorem sameTables.encode {n : Imm} {s t s' t' : State} (h : sameTables s t) (hs : exec (.encode n) s = .next s')
    (ht : exec (.encode n) t = .next t') : sameTables s' t' := by
  obtain ⟨htree, htable, hroot, hnnodes, hrootf, hft, hct, hnode⟩ := encode_keeps_tables hs
  obtain ⟨htree', htable', hroot', hnnodes', hrootf', hft', hct', hnode'⟩ := encode_keeps_tables ht
  rw [sameTables, htree, htable, hroot, hnnodes, hrootf, hft, hct, hnode, htree', htable', hroot', hnnodes', hrootf',
    hft', hct', hnode']
  exact h

/-- Settles O44: COUNT's tests read n and IBUF_SIZE; past them the tables are the same before ENCODE, which is then
the same by O33. -/
theorem compressDependsOnInputAlone : Obligations.CompressDependsOnInputAlone := by
  unfold Obligations.CompressDependsOnInputAlone
  intro n s t s' t' hcfg hfs hft hin hs ht
  suffices hsame : sameOutput s' t' ∧ (s'.fault = false → sameTables s' t') by
    obtain ⟨⟨hfault, holen, herr, htbits, hobuf⟩, htables⟩ := hsame
    refine ⟨hfault, holen, herr, fun hf => ?_, hobuf⟩
    obtain ⟨htree, htable, hroot, hnnodes, hrootf, hcounts, hct, hnode⟩ := htables hf
    exact ⟨htree, htable, hroot, hnnodes, hrootf, htbits hf, hcounts, hct, hnode⟩
  by_cases h0 : n = 0
  · subst h0
    have hsame := sameOutput_of_raised _ (compress_emptyInput hfs) (compress_emptyInput hft) hs ht
    cases hs.symm.trans (compress_emptyInput hfs)
    exact ⟨hsame, nofun⟩
  by_cases hn : s.cfg.ibufSize < n
  · have hsame := sameOutput_of_raised _ (compress_srcRange hfs h0 hn) (compress_srcRange hft h0 (hcfg ▸ hn)) hs ht
    cases hs.symm.trans (compress_srcRange hfs h0 hn)
    exact ⟨hsame, nofun⟩
  replace hn : n ≤ s.cfg.ibufSize := BitVec.not_lt.mp hn
  obtain ⟨u, hu, hs⟩ := compress_next hfs h0 hn hs
  obtain ⟨v, hv, ht⟩ := compress_next hft h0 (hcfg ▸ hn) ht
  have htables := hu.sameTables hv hin
  have hproducts := htables.encode hs ht
  obtain ⟨_, htable, _, _, _, _, hct, _⟩ := htables
  refine ⟨encodeDependsOnInputAndTable n u v s' t' ?_ htable hu.fault hv.fault (fun x => by rw [hct])
    (fun a ha => ?_) hs ht, fun _ => hproducts⟩
  · rw [hu.cfg, hv.cfg, hcfg]
  · rw [hu.ibuf, hv.ibuf, hin a ha]

/-! ### The body bits of COMPRESS (R166) -/

theorem length_bodyBits (ct : Tab Code) (xs : List Symbol) :
    (bodyBits ct xs).length = (xs.map fun x => (ctAt ct x).length).sum := by
  rw [bodyBits, List.length_flatMap]

/-- An ENCODE of symbols that all have codes, ended without a fault, has TBITS of its body. -/
theorem encode_tbits {n : Imm} {s t : State} {xs : List Symbol} (hvalid : s.ctValid = true) (h0 : n ≠ 0)
    (hn : n ≤ s.cfg.ibufSize) (hxs : ibufHolds s xs) (hlen : n.toNat = xs.length) (hcodes : ∀ x ∈ xs, ctAt s.ct x ≠ [])
    (hexec : exec (.encode n) s = .next t) (hf : t.fault = false) : t.tbits.toNat = (bodyBits s.ct xs).length := by
  by_cases hfit : (frameOf s.ct xs).length ≤ s.cfg.obufSize.toNat
  · obtain ⟨_, hexec', _⟩ := encode_completes hvalid h0 hn hxs hlen hcodes hfit
    cases hexec.symm.trans hexec'
    obtain ⟨_, htbits⟩ := toNat_frame_registers hfit
    exact htbits
  · exfalso
    by_cases hhead : (header n.toNat s.ct).length ≤ s.cfg.obufSize.toNat
    · obtain ⟨_, hexec'⟩ := encode_frameOverflow hvalid h0 hn hxs hlen hcodes hhead (Nat.not_le.mp hfit)
      cases hexec.symm.trans hexec'
      cases hf
    · cases hexec.symm.trans (encode_headerOverflow hvalid h0 hn (Nat.not_le.mp hhead))
      cases hf

/-- Settles O45: TBITS is the sum of the code lengths along the input, which its counts collect symbol by symbol; one
symbol alone has a code of one bit. -/
theorem compressCountsBodyBits : Obligations.CompressCountsBodyBits := by
  unfold Obligations.CompressCountsBodyBits
  intro n s t xs hfs hn hlen hxs hcompress hf
  have h0 : n ≠ 0 := by
    rintro rfl
    cases hcompress.symm.trans (compress_emptyInput hfs)
    cases hf
  obtain ⟨u, hu, hencode⟩ := compress_next hfs h0 hn hcompress
  obtain ⟨_, _, _, _, _, hft, hct, _⟩ := encode_keeps_tables hencode
  have hcounts := hu.counts hlen hxs
  obtain ⟨hkeys, hone⟩ := hu.codes
  have hkey : ∀ x, ftAt u.ft x ≠ 0 ↔ x ∈ xs := fun x => ftAt_ne_zero_iff_mem (hcounts x)
  have hxs' : ibufHolds u xs := by rwa [ibufHolds, hu.ibuf]
  have htbits := encode_tbits hu.ctValid h0 (hu.cfg ▸ hn) hxs' hlen.symm
    (fun x hx => (hkeys x).mpr ((hkey x).mpr hx)) hencode hf
  rw [length_bodyBits] at htbits
  rw [hft, hct]
  refine ⟨?_, hcounts, fun y hy => ?_⟩
  · simp only [hcounts, htbits, sum_count_mul]
  · have hnil : xs ≠ [] := by
      rintro rfl
      exact h0 (BitVec.eq_of_toNat_eq hlen.symm)
    obtain ⟨x, hx⟩ := List.exists_mem_of_ne_nil xs hnil
    have hsingle : keys u.ft = [y] := keys_eq_singleton ((hkey y).mpr (hy x hx ▸ hx)) fun z hz => by
      by_contra hzero
      exact hz (hy z ((hkey z).mp hzero))
    have hndist : ndist u.ft = 1 := by rw [ndist, hsingle, List.length_singleton]
    have hbit : ∀ z ∈ xs, (ctAt u.ct z).length = 1 := fun z hz => by
      rw [hone hndist z ((hkey z).mpr hz), List.length_singleton]
    rw [htbits, List.map_congr_left hbit, ← hlen]
    simp

end Sys2Proof.Machine
end

section
/-! DECODE's faults before the body (44_bit_decoder.md R180 to R185): the fixed header, an entry of the code table after
good ones, its code, and the room in OBUF. -/

namespace Sys2Proof.Machine

open Sys2Proof

/-! ### How DECODE ends, from its phases (R180) -/

theorem decode_srcRange {m : Imm} {s : State} (h : s.cfg.ibufSize < m) :
    exec (.decode m) s = .next (raise (.srcRange m) s) := by
  show execDecode m s = _
  rw [execDecode, if_pos h]

theorem decode_of_readFrame_error {m : Imm} {s : State} {e : Stop} (hm : m ≤ s.cfg.ibufSize)
    (h : readFrame s.ibuf s.cfg.obufSize.toNat m.toNat s.obuf = .error e) : exec (.decode m) s = stopOutcome s e := by
  show execDecode m s = _
  rw [execDecode_run m s hm, h]

theorem decode_of_readFrame_ok {m : Imm} {s : State} {n : Nat} {w : Walk} (hm : m ≤ s.cfg.ibufSize)
    (h : readFrame s.ibuf s.cfg.obufSize.toNat m.toNat s.obuf = .ok (n, w)) :
    exec (.decode m) s = .next { s with obuf := w.obuf, olen := BitVec.ofNat 32 n } := by
  show execDecode m s = _
  rw [execDecode_run m s hm, h]

/-- A fault of the header leaves OBUF as it was. -/
theorem decode_raises_of_parseHeader {m : Imm} {s : State} {c : Cause} (hm : m ≤ s.cfg.ibufSize)
    (h : parseHeader s.ibuf s.obuf m.toNat = .error (.raised c s.obuf)) :
    exec (.decode m) s = .next (raise c s) := by
  have hframe : readFrame s.ibuf s.cfg.obufSize.toNat m.toNat s.obuf = .error (.raised c s.obuf) := by
    rw [readFrame, h]
  exact decode_of_readFrame_error hm hframe

/-! ### The fixed header (R181) -/

theorem parseNsym_truncated (ibuf obuf : Memory) {m : Nat} (hm : m < 4) :
    parseNsym ibuf obuf m = .error (.raised (.hdrTrunc 0) obuf) := by
  rw [parseNsym, if_pos hm]

theorem parseNdist_truncated (ibuf obuf : Memory) {m : Nat} (hm : m < 6) :
    parseNdist ibuf obuf m = .error (.raised (.hdrTrunc 4) obuf) := by
  rw [parseNdist, if_pos hm]

/-- NSYM of four written bytes. -/
theorem parseNsym_bytes {ibuf : Memory} {b0 b1 b2 b3 : Byte} {r : List Byte} (obuf : Memory) {m : Nat} (hm : 4 ≤ m)
    (hb : bytesAt ibuf 0 (b0 :: b1 :: b2 :: b3 :: r)) : parseNsym ibuf obuf m =
      if beToNat32 b0 b1 b2 b3 = 0 then .error (.raised .hdrNsymZero obuf) else .ok (beToNat32 b0 b1 b2 b3) := by
  rw [parseNsym, if_neg (Nat.not_lt.mpr hm), readByte_bytesAt hb 0 rfl, readByte_bytesAt hb 1 rfl,
    readByte_bytesAt hb 2 rfl, readByte_bytesAt hb 3 rfl]

/-- An NDIST of 0 or above 256 in two written bytes. -/
theorem parseNdist_range {ibuf : Memory} {c0 c1 : Byte} {r : List Byte} (obuf : Memory) {m : Nat} (hm : 6 ≤ m)
    (hb : bytesAt ibuf 4 (c0 :: c1 :: r)) (hl : beToNat16 c0 c1 = 0 ∨ 256 < beToNat16 c0 c1) :
    parseNdist ibuf obuf m = .error (.raised (.hdrNdistRange (beToNat16 c0 c1)) obuf) := by
  rw [parseNdist, if_neg (Nat.not_lt.mpr hm), readByte_bytesAt hb 0 rfl, readByte_bytesAt hb 1 rfl]
  exact if_pos hl

theorem parseHeader_of_nsym_error {ibuf obuf : Memory} {m : Nat} {e : Stop} (h : parseNsym ibuf obuf m = .error e) :
    parseHeader ibuf obuf m = .error e := by
  rw [parseHeader, h]

theorem parseHeader_of_ndist_error {ibuf obuf : Memory} {m n : Nat} {e : Stop} (hn : parseNsym ibuf obuf m = .ok n)
    (h : parseNdist ibuf obuf m = .error e) : parseHeader ibuf obuf m = .error e := by
  rw [parseHeader, hn]
  simp only
  rw [h]

/-- Settles O34: the operand's test, then NSYM and NDIST, each with its length test first. -/
theorem decodeFixedHeaderFaults : Obligations.DecodeFixedHeaderFaults := by
  unfold Obligations.DecodeFixedHeaderFaults
  refine fun m s => ⟨decode_srcRange, fun bs hm hlen hbs => ⟨fun hshort => ?_, fun b0 b1 b2 b3 r hr => ?_⟩⟩
  · exact decode_raises_of_parseHeader hm (parseHeader_of_nsym_error (parseNsym_truncated _ _ (hlen ▸ hshort)))
  subst hr
  have hb := bytesAt_zero hbs
  simp only [List.length_cons] at hlen
  have hnsym := parseNsym_bytes s.obuf (m := m.toNat) (by omega) hb
  refine ⟨fun h0 => ?_, fun h0 hr => ?_, fun c0 c1 r' h0 hr hl => ?_⟩
  · exact decode_raises_of_parseHeader hm (parseHeader_of_nsym_error (hnsym.trans (if_pos h0)))
  · exact decode_raises_of_parseHeader hm
      (parseHeader_of_ndist_error (hnsym.trans (if_neg h0)) (parseNdist_truncated _ _ (by omega)))
  · subst hr
    obtain ⟨_, hb'⟩ := bytesAt.append (bs := [b0, b1, b2, b3]) hb
    simp only [List.length_cons] at hlen
    exact decode_raises_of_parseHeader hm
      (parseHeader_of_ndist_error (hnsym.trans (if_neg h0)) (parseNdist_range _ (by omega) hb' hl))

/-! ### An entry of the code table (R182) -/

theorem frameInIbuf.inIbuf {s : State} {m : Imm} {n l : Nat} {es : List (Symbol × Code)} {rest : List Byte}
    (hf : frameInIbuf s m n l es rest) : m ≤ s.cfg.ibufSize := hf.1

/-- A fault of the entry after the good ones is DECODE's fault. -/
theorem decode_raises_of_parseEntry {m : Imm} {s : State} {n l : Nat} {es : List (Symbol × Code)} {rest : List Byte}
    {c : Cause} (hf : frameInIbuf s m n l es rest) (hfit : tableFits es) (hlt : es.length < l)
    (h : ∀ ps, ParsedTo es ps.p ps → ps.p + rest.length = m.toNat → bytesAt s.ibuf ps.p rest →
      parseEntry s.ibuf s.obuf m.toNat es.length ps = .error (.raised c s.obuf)) :
    exec (.decode m) s = .next (raise c s) := by
  obtain ⟨off, ps, hps, hoff, hrest, hheader⟩ := parseHeader_good s s.obuf m n l es rest hf hfit hlt.le
  obtain rfl := hps.at_
  obtain ⟨k, hk⟩ : ∃ k, l - es.length = k + 1 := ⟨l - es.length - 1, by omega⟩
  refine decode_raises_of_parseHeader hf.inIbuf ?_
  rw [hheader, hk, parseEntries, h ps hps hoff hrest]

theorem parseEntry_truncated (ibuf obuf : Memory) {m : Nat} (k : Nat) {ps : Parse} (h : m < ps.p + 2) :
    parseEntry ibuf obuf m k ps = .error (.raised (.hdrTrunc ps.p) obuf) := by
  rw [parseEntry, if_pos h]

/-- The three tests of an entry whose two fixed bytes are read, each past those before it; `r` is what the frame holds
behind them. -/
theorem parseEntry_tests {ibuf : Memory} {ps : Parse} {sym lenByte : Byte} {r : List Byte} (obuf : Memory)
    {m : Nat} (k : Nat) (hb : bytesAt ibuf ps.p (sym :: lenByte :: r))
    (hm : ps.p + (sym :: lenByte :: r).length = m) :
    (lenByte = 0 → parseEntry ibuf obuf m k ps = .error (.raised (.hdrLenZero k) obuf)) ∧
    (lenByte ≠ 0 → sym ∈ ps.seen → parseEntry ibuf obuf m k ps = .error (.raised (.hdrDupSymbol k) obuf)) ∧
    (lenByte ≠ 0 → sym ∉ ps.seen → r.length < bytesFor lenByte.toNat →
      parseEntry ibuf obuf m k ps = .error (.raised (.hdrTrunc (m - r.length)) obuf)) := by
  have hsym : readByte ibuf ps.p = .ok sym := readByte_bytesAt hb 0 rfl
  have hlen : readByte ibuf (ps.p + 1) = .ok lenByte := readByte_bytesAt hb 1 rfl
  have hzero : lenByte = 0 ↔ lenByte.toNat = 0 := BitVec.toNat_inj.symm
  simp only [List.length_cons] at hm
  rw [parseEntry, if_neg (by omega), hsym]
  simp only [hlen, List.contains_iff_mem, ne_eq, hzero]
  refine ⟨fun h0 => if_pos h0, fun h0 hin => ?_, fun h0 hnew hshort => ?_⟩
  · rw [if_neg h0, if_pos hin]
  · rw [if_neg h0, if_neg hnew, if_pos (by omega), show m - r.length = ps.p + 2 by omega]

/-- Settles O35: the good entries lead to entry k, whose tests follow in order. -/
theorem decodeEntryFaults : Obligations.DecodeEntryFaults := by
  unfold Obligations.DecodeEntryFaults
  intro m s n l es rest hf hfit hlt
  refine ⟨fun hshort => ?_, fun sym lenByte r hrest => ?_⟩
  · refine decode_raises_of_parseEntry hf hfit hlt fun ps _ hoff _ => ?_
    rw [← hoff, Nat.add_sub_cancel]
    exact parseEntry_truncated _ _ _ (by omega)
  subst hrest
  refine ⟨fun h0 => ?_, fun h0 hin => ?_, fun h0 hnew hshort => ?_⟩
  · refine decode_raises_of_parseEntry hf hfit hlt fun ps _ hoff hb => ?_
    obtain ⟨hlenZero, _, _⟩ := parseEntry_tests s.obuf es.length hb hoff
    exact hlenZero h0
  · refine decode_raises_of_parseEntry hf hfit hlt fun ps hps hoff hb => ?_
    obtain ⟨_, hdup, _⟩ := parseEntry_tests s.obuf es.length hb hoff
    exact hdup h0 ((hps.seen sym).mpr hin)
  · refine decode_raises_of_parseEntry hf hfit hlt fun ps hps hoff hb => ?_
    obtain ⟨_, _, htrunc⟩ := parseEntry_tests s.obuf es.length hb hoff
    exact htrunc h0 (mt (hps.seen sym).mp hnew) hshort

/-! ### The code of an entry (R183, R184) -/

/-- A fault of the insertion of the next entry's code, past the entry's tests, is DECODE's fault. -/
theorem decode_raises_of_insertCode {m : Imm} {s : State} {n l : Nat} {es : List (Symbol × Code)} {e : Symbol × Code}
    {eb rest : List Byte} {c : Cause} (hf : frameInIbuf s m n l es (eb ++ rest)) (hfit : tableFits es)
    (hlt : es.length < l) (he : entryBytes e eb) (h1 : 1 ≤ e.2.length) (h255 : e.2.length ≤ 255)
    (hnew : e.1 ∉ es.map Prod.fst)
    (h : ∀ p dt paths, (∀ j, j < e.2.length → readBit s.ibuf p j = .ok (e.2.getD j false)) → DtHolds dt paths es →
      pathsOf paths es →
      insertCode s.ibuf s.obuf e.1 es.length p e.2.length 0 0 dt = .error (.raised c s.obuf)) :
    exec (.decode m) s = .next (raise c s) := by
  refine decode_raises_of_parseEntry hf hfit hlt fun ps hps hoff hb => ?_
  obtain ⟨_, hseen, paths, hdt, hpaths⟩ := hps
  obtain ⟨cb, rfl, hcb, hpre⟩ := he
  obtain ⟨hentry, _⟩ := hb.append
  obtain ⟨_, hcode⟩ := bytesAt.append (bs := [e.1, BitVec.ofNat 8 e.2.length]) hentry
  simp only [List.length_append, List.length_cons] at hoff
  rw [parseEntry_eq _ _ _ _ ps e cb hentry hcb h1 h255 (mt (hseen e.1).mp hnew) (by omega),
    h (ps.p + 2) _ paths (entryBits s.ibuf _ e.2 cb hcode hpre) hdt hpaths]

/-- The code of a new entry that clashes with an earlier one. -/
theorem insertCode_raises_conflict {ibuf : Memory} {p : Nat} {x : Symbol} {d : Code} {dt : List DtNode}
    {paths : List Code} {es : List (Symbol × Code)} (obuf : Memory) (k : Nat)
    (hbits : ∀ j, j < d.length → readBit ibuf p j = .ok (d.getD j false)) (hdt : DtHolds dt paths es)
    (hpaths : pathsOf paths es) (hfit : tableFits es) (h1 : 1 ≤ d.length) (hclash : ∃ f ∈ es, ¬ apart f.2 d) :
    insertCode ibuf obuf x k p d.length 0 0 dt = .error (.raised (.hdrPrefixConflict k) obuf) := by
  obtain ⟨f, hf, hnot⟩ := hclash
  have hlen := (hfit.lens f hf).1
  have hor : (f.2 <+: d ∧ 0 < f.2.length) ∨ d <+: f.2 := by
    rw [apart, not_and_or, not_not, not_not] at hnot
    exact hnot.imp_left fun hpre => ⟨hpre, hlen⟩
  obtain ⟨rem, hrem⟩ : ∃ rem, d.length = rem + 1 := ⟨d.length - 1, by omega⟩
  rw [hrem]
  exact insertCode_clash ibuf obuf x k p d es hbits dt paths hdt hpaths f hf rem 0 0 hdt.root (by omega) hor

/-- The code of a new entry that clashes with none before it and needs a 512th node. -/
theorem insertCode_raises_overflow {ibuf : Memory} {p : Nat} {x : Symbol} {d : Code} {dt : List DtNode}
    {paths : List Code} {es : List (Symbol × Code)} (obuf : Memory) (k : Nat)
    (hbits : ∀ j, j < d.length → readBit ibuf p j = .ok (d.getD j false)) (hdt : DtHolds dt paths es)
    (hpaths : pathsOf paths es) (h1 : 1 ≤ d.length) (hap : ∀ f ∈ es, apart f.2 d)
    (hneed : 510 < dtNeed (es ++ [(x, d)])) :
    insertCode ibuf obuf x k p d.length 0 0 dt = .error (.raised (.hdrTreeOverflow k) obuf) := by
  have hnot : d ∉ paths := by
    intro hin
    obtain rfl | ⟨f, hf, hpre⟩ := (hpaths d).mp hin
    · exact absurd h1 (by simp)
    · exact (hap f hf).2 hpre
  have hcount := length_paths (hdt.nodup_missing d) (pathsOf_missing hdt hpaths x d)
  rw [List.length_append, hdt.len] at hcount
  refine (insertCode_apart ibuf obuf x k p d es hbits hap d.length 0 0 dt paths ?_ hdt.root (Nat.zero_add _)
    fun _ => hnot).2 (by omega)
  rwa [if_neg (Nat.one_le_iff_ne_zero.mp h1)]

/-- Settles O36: the entry passes its tests, and its code meets an earlier path or a full DT. -/
theorem decodeTableFaults : Obligations.DecodeTableFaults := by
  unfold Obligations.DecodeTableFaults
  intro m s n l es e eb rest hf hfit hlt he h1 h255 hnew
  constructor
  · exact fun hclash => decode_raises_of_insertCode hf hfit hlt he h1 h255 hnew fun p dt paths hbits hdt hpaths =>
      insertCode_raises_conflict s.obuf es.length hbits hdt hpaths hfit h1 hclash
  · exact fun hap hneed => decode_raises_of_insertCode hf hfit hlt he h1 h255 hnew fun p dt paths hbits hdt hpaths =>
      insertCode_raises_overflow s.obuf es.length hbits hdt hpaths h1 hap hneed

/-! ### The room in OBUF (R185) -/

/-- Settles O37: the header is whole, and the test of NSYM is the next. -/
theorem decodeTestsCapacity : Obligations.DecodeTestsCapacity := by
  unfold Obligations.DecodeTestsCapacity
  intro m s n es rest hf hfit hsize
  obtain ⟨_, ps, _, _, _, hheader⟩ := parseHeader_whole s s.obuf m n es rest hf hfit
  have hframe : readFrame s.ibuf s.cfg.obufSize.toNat m.toNat s.obuf = .error (.raised .dstOverflow s.obuf) := by
    rw [readFrame, hheader]
    exact if_pos hsize
  exact decode_of_readFrame_error hf.inIbuf hframe

end Sys2Proof.Machine
end

section
/-! DECODE's body (44_bit_decoder.md R186 to R193): past a good header DECODE ends as its walk does, and the walk goes
over whole codes and a part of one. -/

namespace Sys2Proof.Machine

open Sys2Proof

/-! ### DECODE past a good header -/

/-- The walk before the first body bit (R186). -/
def walkStart (obuf : Memory) : Walk := { cur := 0, bp := 0, em := 0, obuf := obuf }

/-- DECODE has read a good header with the entries `es`: DT is `dt`, whose paths are `paths`, and the body bytes `body`
stand in IBUF from address `p`. -/
structure HeaderRead (s : State) (es : List (Symbol × Code)) (body : List Byte) (p : Nat) (dt : List DtNode)
    (paths : List Code) : Prop where
  tree : DtHolds dt paths es
  paths : pathsOf paths es
  bytes : bytesAt s.ibuf p body

/-- DECODE of a good header with room for its symbols ends as its walk does (R180). -/
theorem decode_walks {m : Imm} {s : State} {n : Nat} {es : List (Symbol × Code)} {body : List Byte}
    (hf : frameInIbuf s m n es.length es body) (hfit : tableFits es) (hsize : n ≤ s.cfg.obufSize.toNat) :
    ∃ p dt paths, HeaderRead s es body p dt paths ∧
      (∀ e, walkLoop s.ibuf dt p n (bitsOf body).length (walkStart s.obuf) = .error e →
        exec (.decode m) s = stopOutcome s e) ∧
      (∀ w, walkLoop s.ibuf dt p n (bitsOf body).length (walkStart s.obuf) = .ok w →
        exec (.decode m) s = .next { s with obuf := w.obuf, olen := BitVec.ofNat 32 n }) := by
  obtain ⟨off, ps, hps, hoff, hbody, hheader⟩ := parseHeader_whole s s.obuf m n es body hf hfit
  obtain ⟨rfl, _, paths, hdt, hpaths⟩ := hps
  have hlen : 8 * (m.toNat - ps.p) = (bitsOf body).length := by rw [length_bitsOf]; omega
  refine ⟨ps.p, ps.dt, paths, ⟨hdt, hpaths, hbody⟩, fun e he => ?_, fun w hw => ?_⟩
  · refine decode_of_readFrame_error hf.inIbuf ?_
    rw [walkStart] at he
    rw [readFrame, hheader]
    simp only
    rw [if_neg (Nat.not_lt.mpr hsize), hlen, he]
  · refine decode_of_readFrame_ok hf.inIbuf ?_
    rw [walkStart] at hw
    rw [readFrame, hheader]
    simp only
    rw [if_neg (Nat.not_lt.mpr hsize), hlen, hw]

/-! ### The walk over whole codes and a part of one (R187) -/

theorem tableFits.code_ne_nil {es : List (Symbol × Code)} (h : tableFits es) : ∀ f ∈ es, f.2 ≠ [] :=
  fun f hf => List.ne_nil_of_length_pos (h.lens f hf).1

theorem tableFits.code_eq_of_prefix {es : List (Symbol × Code)} (h : tableFits es) :
    ∀ e ∈ es, ∀ f ∈ es, f.2 <+: e.2 → f.2 = e.2 :=
  fun e he f hf hpre => congrArg Prod.snd (h.same e he f hf hpre)

namespace HeaderRead

variable {s : State} {es : List (Symbol × Code)} {body : List Byte} {p n : Nat} {dt : List DtNode}
  {paths : List Code} {xs : List Symbol} {bits part : Code}

theorem bitsAt_prefix (h : HeaderRead s es body p dt paths) {r : Code} (hr : r <+: bitsOf body) :
    bitsAt s.ibuf p 0 r := bitsAt_of_bytes body r h.bytes hr

/-- Whole codes are walked over and their symbols written in order. -/
theorem over_codes (h : HeaderRead s es body p dt paths) (hfit : tableFits es) (hxs : codesUnder es xs bits)
    (hbits : bits <+: bitsOf body) (hn : xs.length ≤ n) (rem : Nat) (obuf : Memory) :
    walkLoop s.ibuf dt p n (rem + bits.length) (walkStart obuf) =
      walkLoop s.ibuf dt p n rem
        { cur := 0, bp := bits.length, em := xs.length, obuf := memWrite obuf 0 xs } := by
  have hwalk := walk_codes (n := n) h.tree h.paths hfit.code_ne_nil hfit.code_eq_of_prefix xs bits 0 0 rem obuf hxs
    (h.bitsAt_prefix hbits) (by omega)
  rw [Nat.zero_add, Nat.zero_add] at hwalk
  exact hwalk

/-- Whole codes and then a proper part of one lead to the node of that part. -/
theorem over_part (h : HeaderRead s es body p dt paths) (hfit : tableFits es) (hxs : codesUnder es xs bits)
    (hbits : bits ++ part <+: bitsOf body) (hpart : ∃ e ∈ es, part <+: e.2 ∧ part ≠ e.2) (hn : xs.length < n)
    (rem : Nat) (obuf : Memory) : ∃ i : Nat, paths[i]? = some part ∧
      walkLoop s.ibuf dt p n (rem + (bits ++ part).length) (walkStart obuf) =
        walkLoop s.ibuf dt p n rem
          { cur := BitVec.ofNat 9 i, bp := bits.length + part.length, em := xs.length,
            obuf := memWrite obuf 0 xs } := by
  obtain ⟨e, he, hpre, hne⟩ := hpart
  obtain ⟨_, hpartBits⟩ := (h.bitsAt_prefix hbits).append
  rw [Nat.zero_add] at hpartBits
  obtain ⟨i, hi, hwalk⟩ := walk_part (n := n) h.tree h.paths e he (hfit.code_eq_of_prefix e he) part [] 0
    bits.length xs.length rem (memWrite obuf 0 xs) h.tree.root hpre hne hpartBits hn
  refine ⟨i, hi, ?_⟩
  rw [List.length_append, show rem + (bits.length + part.length) = rem + part.length + bits.length by omega,
    h.over_codes hfit hxs ((List.prefix_append _ _).trans hbits) hn.le]
  exact hwalk

end HeaderRead

/-! ### The ends of the body -/

/-- Settles O38: the walk over the codes of xs is then done, whatever bits are left. -/
theorem decodeReproducesSymbols : Obligations.DecodeReproducesSymbols := by
  unfold Obligations.DecodeReproducesSymbols
  intro m s es xs bits body hf hfit hsize hxs hbits
  obtain ⟨p, dt, paths, hread, _, hok⟩ := decode_walks hf hfit hsize
  obtain ⟨rem, hrem⟩ := Nat.exists_eq_add_of_le' hbits.length_le
  have hend := hread.over_codes hfit hxs hbits le_rfl rem s.obuf
  rw [← hrem] at hend
  refine ⟨_, _, hok _ (hend.trans (walk_done rem _ le_rfl)),
    Nat.mod_eq_of_lt (hsize.trans_lt s.cfg.obufSize.isLt), fun a ha => ?_, fun a ha => ?_⟩
  · rw [memGet_memWrite, if_pos (by omega), Nat.sub_zero]
  · rw [memGet_memWrite, if_neg (by omega)]

/-- Settles O39: the walk comes to the node of the last, incomplete code with no bit left. -/
theorem decodeTruncatedBody : Obligations.DecodeTruncatedBody := by
  unfold Obligations.DecodeTruncatedBody
  intro m s n es xs bits part body hf hfit hsize hxs hbody hpart hn
  obtain ⟨p, dt, paths, hread, herror, _⟩ := decode_walks hf hfit hsize
  obtain ⟨i, _, hend⟩ := hread.over_part hfit hxs (hbody ▸ List.prefix_refl _) hpart hn 0 s.obuf
  rw [Nat.zero_add, ← hbody, walk_end _ hn] at hend
  exact ⟨_, herror _ hend⟩

/-- Settles O40: the walk comes to a node that the next bit leads nowhere from. -/
theorem decodeInvalidWalk : Obligations.DecodeInvalidWalk := by
  unfold Obligations.DecodeInvalidWalk
  intro m s n es xs bits part b body hf hfit hsize hxs hbits hpart hout hn
  obtain ⟨p, dt, paths, hread, herror, _⟩ := decode_walks hf hfit hsize
  obtain ⟨rem, hrem⟩ := Nat.exists_eq_add_of_le' hbits.length_le
  obtain ⟨i, hi, hend⟩ := hread.over_part hfit hxs ((List.prefix_append _ _).trans hbits) hpart hn (rem + 1) s.obuf
  have hnoPath : part ++ [b] ∉ paths := by
    rw [hread.paths]
    rintro (hnil | ⟨e, he, hpre⟩)
    · simp at hnil
    · exact hout e he hpre
  have hbit : readBit s.ibuf p (bits.length + part.length) = .ok b := by
    obtain ⟨_, hlast⟩ := (hread.bitsAt_prefix hbits).append
    simpa using hlast 0 (by simp)
  have hlen : rem + 1 + (bits ++ part).length = (bitsOf body).length := by
    simp only [List.length_append, List.length_singleton] at hrem ⊢
    omega
  rw [hlen, walk_out hread.tree i part b _ _ _ _ hi hnoPath hbit hn] at hend
  exact ⟨_, herror _ hend⟩

end Sys2Proof.Machine
end

section
/-! DECODE works from the frame alone (44_bit_decoder.md R180): two runs over the same frame bytes end alike, whatever
OBUF held before. That two runs end alike is a relation every phase keeps. -/

namespace Sys2Proof.Machine

open Sys2Proof

/-- The same fault or the same refusal, whatever OBUF then holds. -/
inductive SameStop : Stop → Stop → Prop
  | raised (c : Cause) (o o' : Memory) : SameStop (.raised c o) (.raised c o')
  | refused (r : Refusal) : SameStop (.refused r) (.refused r)

theorem SameStop.refl : ∀ e : Stop, SameStop e e
  | .raised c o => .raised c o o
  | .refused r => .refused r

/-- Two ends of an engine that agree: in results that `R` relates, or by the same stop. -/
inductive EndsAlike {α : Type} (R : α → α → Prop) : Except Stop α → Except Stop α → Prop
  | ok {x y : α} (h : R x y) : EndsAlike R (.ok x) (.ok y)
  | error {e e' : Stop} (h : SameStop e e') : EndsAlike R (.error e) (.error e')

theorem EndsAlike.raised {α : Type} {R : α → α → Prop} (c : Cause) (o o' : Memory) :
    EndsAlike R (.error (.raised c o)) (.error (.raised c o')) := .error (.raised c o o')

theorem EndsAlike.stop {α : Type} {R : α → α → Prop} (e : Stop) : EndsAlike R (.error e) (.error e) :=
  .error (.refl e)

theorem readBit_congr {ibuf ibuf' : Memory} {p j : Nat} (h : memGet ibuf (p + j / 8) = memGet ibuf' (p + j / 8)) :
    readBit ibuf p j = readBit ibuf' p j := by
  rw [readBit, readBit, readByte_congr h]

/-- Two walks at the same node and body bit with the same symbols out. -/
structure SameWalk (w v : Walk) : Prop where
  cur : w.cur = v.cur
  bp : w.bp = v.bp
  em : w.em = v.em
  bytes : ∀ a, a < w.em → memGet w.obuf a = memGet v.obuf a

theorem walkStart_same (obuf obuf' : Memory) : SameWalk (walkStart obuf) (walkStart obuf') :=
  ⟨rfl, rfl, rfl, fun a ha => absurd ha (Nat.not_lt_zero a)⟩

/-- The same NSYM, and the same NSYM bytes of OBUF. -/
def sameDecoded (x y : Nat × Walk) : Prop := x.1 = y.1 ∧ ∀ a, a < x.1 → memGet x.2.obuf a = memGet y.2.obuf a

/-- One transition keeps two walks the same, one bit further. -/
theorem walkStep_alike (dt : List DtNode) (b : Bool) {w v : Walk} (h : SameWalk w v) :
    EndsAlike (fun w1 v1 => SameWalk w1 v1 ∧ w1.bp = w.bp + 1) (walkStep dt b w) (walkStep dt b v) := by
  rw [walkStep, walkStep, h.cur, h.bp]
  split
  · exact .raised _ _ _
  split
  · refine .ok ⟨⟨rfl, rfl, congrArg (· + 1) h.em, fun a ha => ?_⟩, rfl⟩
    rw [h.em, memGet_memPut, memGet_memPut]
    split
    · rfl
    · exact h.bytes a (by simp only at ha; have := h.em; omega)
  · exact .ok ⟨⟨rfl, rfl, h.em, h.bytes⟩, rfl⟩

section

variable {ibuf ibuf' : Memory} {m : Nat} (hin : ∀ a, a < m → memGet ibuf a = memGet ibuf' a)
include hin

/-! ### The header (R181 to R184) -/

theorem insertCode_alike (obuf obuf' : Memory) (sym : Symbol) (k p rem j : Nat) (cur : Handle) (dt : List DtNode)
    (hm : p + bytesFor (j + rem) ≤ m) :
    EndsAlike Eq (insertCode ibuf obuf sym k p rem j cur dt) (insertCode ibuf' obuf' sym k p rem j cur dt) := by
  induction rem generalizing j cur dt with
  | zero => exact .ok rfl
  | succ rem ih =>
    have hnext : p + bytesFor (j + 1 + rem) ≤ m := by rwa [Nat.add_right_comm]
    rw [insertCode, insertCode, readBit_congr (hin _ (by unfold bytesFor at hm; omega))]
    cases readBit ibuf' p j with
    | error e => exact .stop e
    | ok b =>
      simp only
      split
      · split
        · exact .raised _ _ _
        · exact ih _ _ _ hnext
      split
      · exact .raised _ _ _
      split
      · exact .raised _ _ _
      · exact ih _ _ _ hnext

theorem parseEntry_alike (obuf obuf' : Memory) (k : Nat) (ps : Parse) :
    EndsAlike Eq (parseEntry ibuf obuf m k ps) (parseEntry ibuf' obuf' m k ps) := by
  rw [parseEntry, parseEntry]
  by_cases hshort : m < ps.p + 2
  · rw [if_pos hshort, if_pos hshort]
    exact .raised _ _ _
  rw [if_neg hshort, if_neg hshort, readByte_congr (hin ps.p (by omega)), readByte_congr (hin (ps.p + 1) (by omega))]
  cases readByte ibuf' ps.p with
  | error e => exact .stop e
  | ok sym =>
  cases readByte ibuf' (ps.p + 1) with
  | error e => exact .stop e
  | ok lenByte =>
  simp only
  split
  · exact .raised _ _ _
  split
  · exact .raised _ _ _
  split
  · exact .raised _ _ _
  have hcode := insertCode_alike hin obuf obuf' sym k (ps.p + 2) lenByte.toNat 0 0 ps.dt (by rw [Nat.zero_add]; omega)
  generalize insertCode ibuf obuf sym k (ps.p + 2) lenByte.toNat 0 0 ps.dt = x,
    insertCode ibuf' obuf' sym k (ps.p + 2) lenByte.toNat 0 0 ps.dt = y at hcode ⊢
  cases hcode with
  | error he => exact .error he
  | ok h => exact .ok (by rw [h])

theorem parseEntries_alike (obuf obuf' : Memory) (cnt k : Nat) (ps : Parse) :
    EndsAlike Eq (parseEntries ibuf obuf m cnt k ps) (parseEntries ibuf' obuf' m cnt k ps) := by
  induction cnt generalizing k ps with
  | zero => exact .ok rfl
  | succ cnt ih =>
    have hentry := parseEntry_alike hin obuf obuf' k ps
    rw [parseEntries, parseEntries]
    generalize parseEntry ibuf obuf m k ps = x, parseEntry ibuf' obuf' m k ps = y at hentry ⊢
    cases hentry with
    | error he => exact .error he
    | @ok ps1 _ h =>
      subst h
      exact ih (k + 1) ps1

theorem parseNsym_alike (obuf obuf' : Memory) :
    EndsAlike Eq (parseNsym ibuf obuf m) (parseNsym ibuf' obuf' m) := by
  rw [parseNsym, parseNsym]
  by_cases hshort : m < 4
  · rw [if_pos hshort, if_pos hshort]
    exact .raised _ _ _
  rw [if_neg hshort, if_neg hshort, readByte_congr (hin 0 (by omega)), readByte_congr (hin 1 (by omega)),
    readByte_congr (hin 2 (by omega)), readByte_congr (hin 3 (by omega))]
  cases readByte ibuf' 0 with
  | error e => exact .stop e
  | ok b0 =>
  cases readByte ibuf' 1 with
  | error e => exact .stop e
  | ok b1 =>
  cases readByte ibuf' 2 with
  | error e => exact .stop e
  | ok b2 =>
  cases readByte ibuf' 3 with
  | error e => exact .stop e
  | ok b3 =>
  simp only
  split
  · exact .raised _ _ _
  · exact .ok rfl

theorem parseNdist_alike (obuf obuf' : Memory) :
    EndsAlike Eq (parseNdist ibuf obuf m) (parseNdist ibuf' obuf' m) := by
  rw [parseNdist, parseNdist]
  by_cases hshort : m < 6
  · rw [if_pos hshort, if_pos hshort]
    exact .raised _ _ _
  rw [if_neg hshort, if_neg hshort, readByte_congr (hin 4 (by omega)), readByte_congr (hin 5 (by omega))]
  cases readByte ibuf' 4 with
  | error e => exact .stop e
  | ok b0 =>
  cases readByte ibuf' 5 with
  | error e => exact .stop e
  | ok b1 =>
  simp only
  split
  · exact .raised _ _ _
  · exact .ok rfl

theorem parseHeader_alike (obuf obuf' : Memory) :
    EndsAlike Eq (parseHeader ibuf obuf m) (parseHeader ibuf' obuf' m) := by
  have hnsym := parseNsym_alike hin obuf obuf'
  have hndist := parseNdist_alike hin obuf obuf'
  rw [parseHeader, parseHeader]
  generalize parseNsym ibuf obuf m = x, parseNsym ibuf' obuf' m = y at hnsym ⊢
  cases hnsym with
  | error he => exact .error he
  | ok hn =>
  subst hn
  simp only
  generalize parseNdist ibuf obuf m = x, parseNdist ibuf' obuf' m = y at hndist ⊢
  cases hndist with
  | error he => exact .error he
  | @ok l _ hl =>
  subst hl
  have hentries := parseEntries_alike hin obuf obuf' l 0 parseStart
  simp only
  generalize parseEntries ibuf obuf m l 0 parseStart = x, parseEntries ibuf' obuf' m l 0 parseStart = y
    at hentries ⊢
  cases hentries with
  | error he => exact .error he
  | ok hps => exact .ok (by rw [hps])

/-! ### The body (R187) -/

/-- Walks that end alike have all NSYM symbols out when they complete. -/
theorem walkLoop_alike (dt : List DtNode) (p n rem : Nat) {w v : Walk} (h : SameWalk w v)
    (hm : 8 * p + w.bp + rem ≤ 8 * m) :
    EndsAlike (fun w v => SameWalk w v ∧ n ≤ w.em) (walkLoop ibuf dt p n rem w) (walkLoop ibuf' dt p n rem v) := by
  induction rem generalizing w v with
  | zero =>
    by_cases hdone : n ≤ w.em
    · rw [walk_done 0 w hdone, walk_done 0 v (h.em ▸ hdone)]
      exact .ok ⟨h, hdone⟩
    · rw [walk_end w (Nat.not_le.mp hdone), walk_end v (h.em ▸ Nat.not_le.mp hdone), h.em]
      exact .raised _ _ _
  | succ rem ih =>
    by_cases hdone : n ≤ w.em
    · rw [walk_done _ w hdone, walk_done _ v (h.em ▸ hdone)]
      exact .ok ⟨h, hdone⟩
    rw [walkLoop, walkLoop, if_neg hdone, if_neg (h.em ▸ hdone), ← h.bp, readBit_congr (hin _ (by omega))]
    cases readBit ibuf' p w.bp with
    | error e => exact .stop e
    | ok b =>
      have hstep := walkStep_alike dt b h
      simp only
      generalize walkStep dt b w = x, walkStep dt b v = y at hstep ⊢
      cases hstep with
      | error he => exact .error he
      | ok hw1 =>
        obtain ⟨hsame, hbp⟩ := hw1
        exact ih hsame (by omega)

theorem readFrame_alike (size : Nat) (obuf obuf' : Memory) :
    EndsAlike sameDecoded (readFrame ibuf size m obuf) (readFrame ibuf' size m obuf') := by
  obtain ⟨_, hoff⟩ := parseHeader_within ibuf obuf m
  have hheader := parseHeader_alike hin obuf obuf'
  rw [readFrame, readFrame]
  generalize hx : parseHeader ibuf obuf m = x, parseHeader ibuf' obuf' m = y at hheader ⊢
  cases hheader with
  | error he => exact .error he
  | @ok x _ hxy =>
  subst hxy
  obtain ⟨n, ps⟩ := x
  obtain ⟨hp, _⟩ := hoff n ps hx
  simp only
  split
  · exact .raised _ _ _
  have hwalk := walkLoop_alike hin ps.dt ps.p n (8 * (m - ps.p)) (walkStart_same obuf obuf')
    (by simp only [walkStart]; omega)
  simp only [walkStart] at hwalk
  generalize walkLoop ibuf ps.dt ps.p n (8 * (m - ps.p)) { cur := 0, bp := 0, em := 0, obuf := obuf } = x,
    walkLoop ibuf' ps.dt ps.p n (8 * (m - ps.p)) { cur := 0, bp := 0, em := 0, obuf := obuf' } = y at hwalk ⊢
  cases hwalk with
  | error he => exact .error he
  | ok hw =>
    obtain ⟨hsame, hdone⟩ := hw
    exact .ok ⟨rfl, fun a ha => hsame.bytes a (Nat.lt_of_lt_of_le ha hdone)⟩

end

/-- Settles O41: SRC_RANGE reads m and the size, and the frame is the same by `readFrame_alike`. -/
theorem decodeReadsFrameAlone : Obligations.DecodeReadsFrameAlone := by
  unfold Obligations.DecodeReadsFrameAlone
  intro m s t s' t' hcfg hfs hft hin hs ht
  by_cases hm : s.cfg.ibufSize < m
  · obtain ⟨hfault, holen, herr, _, hobuf⟩ :=
      sameOutput_of_raised _ (decode_srcRange hm) (decode_srcRange (hcfg ▸ hm)) hs ht
    exact ⟨hfault, holen, herr, hobuf⟩
  replace hm : m ≤ s.cfg.ibufSize := BitVec.not_lt.mp hm
  have hm' : m ≤ t.cfg.ibufSize := hcfg ▸ hm
  have hframe := readFrame_alike hin s.cfg.obufSize.toNat s.obuf t.obuf
  generalize hx : readFrame s.ibuf s.cfg.obufSize.toNat m.toNat s.obuf = x,
    hy : readFrame t.ibuf s.cfg.obufSize.toNat m.toNat t.obuf = y at hframe
  rw [hcfg] at hy
  cases hframe with
  | @ok x y h =>
    obtain ⟨n, w⟩ := x
    obtain ⟨_, v⟩ := y
    obtain ⟨rfl, hbytes⟩ := h
    cases hs.symm.trans (decode_of_readFrame_ok hm hx)
    cases ht.symm.trans (decode_of_readFrame_ok hm' hy)
    refine ⟨hfs.trans hft.symm, rfl, fun hf => ?_, fun a ha => hbytes a (Nat.lt_of_lt_of_le ha (Nat.mod_le _ _))⟩
    cases hfs.symm.trans hf
  | error he =>
    cases he with
    | raised c o o' =>
      obtain ⟨hfault, holen, herr, _, hobuf⟩ := sameOutput_of_raised c (decode_of_readFrame_error hm hx)
        (decode_of_readFrame_error hm' hy) hs ht
      exact ⟨hfault, holen, herr, hobuf⟩
    | refused r => cases hs.symm.trans (decode_of_readFrame_error hm hx)

end Sys2Proof.Machine
end

section
/-! The round trip (44_bit_decoder.md R192): the frame COMPRESS wrote has a header DECODE accepts, and its body is the
codes of the input. -/

namespace Sys2Proof.Machine

open Sys2Proof

/-! ### The frame COMPRESS wrote -/

section

variable {n : Imm} {s t : State} {xs : List Symbol} (hvalid : s.ctValid = true) (h0 : n ≠ 0)
  (hn : n ≤ s.cfg.ibufSize) (hxs : ibufHolds s xs) (hlen : n.toNat = xs.length) (hcodes : ∀ x ∈ xs, ctAt s.ct x ≠ [])
  (hexec : exec (.encode n) s = .next t) (hf : t.fault = false)
include hvalid h0 hn hxs hlen hcodes hexec hf

/-- An ENCODE of symbols that all have codes, ended without a fault, had room for the frame (R161, R165). -/
theorem encode_had_room : (frameOf s.ct xs).length ≤ s.cfg.obufSize.toNat := by
  by_contra hover
  rw [Nat.not_le] at hover
  by_cases hhead : (header n.toNat s.ct).length ≤ s.cfg.obufSize.toNat
  · obtain ⟨_, hfault⟩ := encode_frameOverflow hvalid h0 hn hxs hlen hcodes hhead hover
    cases hexec.symm.trans hfault
    cases hf
  · cases hexec.symm.trans (encode_headerOverflow hvalid h0 hn (Nat.not_le.mp hhead))
    cases hf

/-- Such an ENCODE leaves the frame in OBUF and its length in OLEN (R162, R163). -/
theorem encode_leaves_frame : t.olen.toNat = (frameOf s.ct xs).length ∧ obufHolds t (frameOf s.ct xs) := by
  have hfit := encode_had_room hvalid h0 hn hxs hlen hcodes hexec hf
  obtain ⟨obuf, hwrites, hbytes⟩ := encode_completes hvalid h0 hn hxs hlen hcodes hfit
  obtain ⟨holen, _⟩ := toNat_frame_registers hfit
  cases hexec.symm.trans hwrites
  exact ⟨holen, fun a ha => (hbytes a).trans (if_pos ha)⟩

end

theorem eq_of_obufHolds {s : State} {bs cs : List Byte} (hlen : bs.length = cs.length) (hb : obufHolds s bs)
    (hc : obufHolds s cs) : bs = cs := by
  refine List.ext_getElem? fun a => ?_
  by_cases ha : a < bs.length
  · rw [← hb a ha, ← hc a (hlen ▸ ha)]
  · rw [List.getElem?_eq_none (Nat.not_lt.mp ha), List.getElem?_eq_none (hlen ▸ Nat.not_lt.mp ha)]

/-! ### What DECODE makes of it -/

/-- The code table of COMPRESS is one DECODE accepts (R153, R154). -/
theorem CodedFrom.tableFits {n : Imm} {s u : State} (h : CodedFrom n s u) : tableFits (entriesOf u.ct) := by
  obtain ⟨hstands, hroot⟩ := h.tree
  obtain ⟨ct, hct, _, hprefix, hlens, hnodes, _⟩ := codesOf_spec hstands h.hasKey hroot
  cases h.coded.symm.trans hct
  exact tableFits_entriesOf u.ct hlens hprefix hnodes

/-- The symbols of the input have codes (R153). -/
theorem CodedFrom.input_coded {n : Imm} {s u : State} (h : CodedFrom n s u) {xs : List Symbol}
    (hlen : xs.length = n.toNat) (hxs : ibufHolds s xs) : ∀ x ∈ xs, ctAt u.ct x ≠ [] := by
  obtain ⟨hkeys, _⟩ := h.codes
  exact fun x hx => (hkeys x).mpr ((ftAt_ne_zero_iff_mem (h.counts hlen hxs x)).mpr hx)

/-- A frame that ENCODE wrote is a frame for DECODE: the entries of its table, and the packed body (R90 to R94). -/
theorem frameInIbuf_frameOf {s : State} {m : Imm} {ct : Tab Code} {xs : List Symbol} (hm : m ≤ s.cfg.ibufSize)
    (hlen : m.toNat = (frameOf ct xs).length) (hin : ibufHolds s (frameOf ct xs)) (hne : xs ≠ [])
    (hlt : xs.length < 2 ^ 32) (hcodes : ∀ x ∈ xs, ctAt ct x ≠ []) :
    frameInIbuf s m xs.length (entriesOf ct).length (entriesOf ct) (pack (bodyBits ct xs)) := by
  obtain ⟨x, hx⟩ := List.exists_mem_of_ne_nil xs hne
  have hpresent : 0 < (present ct).length := List.length_pos_of_mem ((mem_present ct x).mpr (hcodes x hx))
  rw [length_entriesOf]
  exact ⟨hm, List.length_pos_iff.mpr hne, hlt, hpresent, length_present_le ct, headerEntries ct,
    entriesBytes_header ct, hlen, hin⟩

/-- Settles O43: COMPRESS left the frame of its table, which DECODE reads back by O38. -/
theorem compressThenDecodeRoundTrip : Obligations.CompressThenDecodeRoundTrip := by
  unfold Obligations.CompressThenDecodeRoundTrip
  intro n s t u xs f hfs h0 hn hlen hxs hcompress hft hflen hfout hfin hm hroom
  obtain ⟨w, hw, hencode⟩ := compress_next hfs h0 hn hcompress
  have hcodes := hw.input_coded hlen hxs
  have hxs' : ibufHolds w xs := by rwa [ibufHolds, hw.ibuf]
  obtain ⟨holen, hframe⟩ := encode_leaves_frame hw.ctValid h0 (hw.cfg ▸ hn) hxs' hlen.symm hcodes hencode hft
  obtain rfl := eq_of_obufHolds (hflen.trans holen) hfout hframe
  have hne : xs ≠ [] := by
    rintro rfl
    exact h0 (BitVec.eq_of_toNat_eq hlen.symm)
  have hgood := frameInIbuf_frameOf hm holen hfin hne (hlen ▸ n.isLt) hcodes
  obtain ⟨obuf, olen, hdecode, hcount, hbytes, _⟩ := decodeReproducesSymbols t.olen u (entriesOf w.ct) xs
    (bodyBits w.ct xs) (pack (bodyBits w.ct xs)) hgood hw.tableFits (hlen ▸ hroom)
    (codesUnder_bodyBits w.ct xs hcodes) (prefix_bitsOf_pack _)
  exact ⟨_, hdecode, rfl, BitVec.eq_of_toNat_eq (hcount.trans hlen), hbytes⟩

end Sys2Proof.Machine
end

section
/-! Accepting a word and the control commands (45_control_commands.md R210 to R213): what a word does under either
value of FAULT, one lemma a case, and steps. -/

namespace Sys2Proof.Machine

open Sys2Proof

/-! ### Accepting a word while FAULT = 1 (R212) -/

theorem acceptWord_clrWord_faulted {s : State} (hf : s.fault = true) :
    acceptWord clrWord s = exec .clr (bumpCmdcnt s) := by
  simp [acceptWord, hf]

theorem acceptWord_discarded {w : CmdWord} {s : State} (hf : s.fault = true) (hw : w ≠ clrWord) :
    acceptWord w s = .next (bumpCmdcnt s) := by
  simp [acceptWord, hf, hw]

/-- Settles O8: the count comes first, then FAULT and the word tell the four cases apart. -/
theorem acceptCommandWord : Obligations.AcceptCommandWord := by
  unfold Obligations.AcceptCommandWord
  intro w s
  refine ⟨fun hf hw => ?_, acceptWord_discarded, fun hf i => acceptWord_command hf,
    fun hf e => acceptWord_illegal hf⟩
  subst hw
  exact acceptWord_clrWord_faulted hf

/-! ### Steps (R213, R258) -/

theorem step_of_pending {s : State} {a : HostAct} {rest : List HostAct} (h : s.pending = a :: rest) :
    step s = hostAct a { s with pending := rest } := by
  rw [step, h]

theorem step_of_idle {s : State} (h : s.pending = []) : step s = .next s := by
  rw [step, h]

/-- Settles O9: a step serves the next action, and a word written is accepted. -/
theorem stepRunsDecodedCommand : Obligations.StepRunsDecodedCommand := by
  unfold Obligations.StepRunsDecodedCommand
  refine ⟨fun s w rest i hp hf hd => ?_, fun s a rest => step_of_pending, fun w s => rfl, fun s => step_of_idle⟩
  calc step s = acceptWord w { s with pending := rest } := step_of_pending hp
    _ = exec i { s with pending := rest, cmdcnt := s.cmdcnt + 1 } := acceptWord_command hf hd

/-! ### NOP and CLR (R210, R211) -/

theorem exec_nop (s : State) : exec .nop s = .next s := rfl

theorem exec_clr (s : State) : exec .clr s = .next (clearBlock s) := rfl

theorem encode_nop : encode .nop = 0 := by decide

theorem encode_clr : encode .clr = clrWord := by decide

theorem acceptWord_nop (s : State) : acceptWord (encode .nop) s = .next (bumpCmdcnt s) := by
  obtain hf | hf := s.fault.eq_false_or_eq_true
  · exact acceptWord_discarded hf (encode_ne_clrWord nofun)
  · exact acceptWord_encode hf .nop

theorem acceptWord_clr (s : State) : acceptWord clrWord s = exec .clr (bumpCmdcnt s) := by
  obtain hf | hf := s.fault.eq_false_or_eq_true
  · exact acceptWord_clrWord_faulted hf
  · exact encode_clr ▸ acceptWord_encode hf .clr

/-- Settles O11: NOP's word is discarded under FAULT = 1 and executes under FAULT = 0, and either way only the count
changes. -/
theorem nopOnlyCounts : Obligations.NopOnlyCounts := by
  unfold Obligations.NopOnlyCounts
  exact fun s => ⟨exec_nop s, encode_nop, encode_nop ▸ acceptWord_nop s⟩

/-- Settles O12: CLR is `clearBlock`, and its word executes under either value of FAULT. -/
theorem clrClearsBlock : Obligations.ClrClearsBlock := by
  unfold Obligations.ClrClearsBlock
  exact fun s => ⟨exec_clr s, fun sym => ⟨ftAt_nil sym, ctAt_nil sym⟩, encode_clr, acceptWord_clr s⟩

end Sys2Proof.Machine
end

section
/-! COMPRESS n (45_control_commands.md R214): on n written bytes its first three words complete, and the fourth ends as
ENCODE does on a table that has a code for every symbol of the input. -/

namespace Sys2Proof.Machine

open Sys2Proof

/-! ### Sequences of words that complete (R213) -/

/-- The converse of `acceptWords_encode_next`: the words after a command run on the state it leaves. -/
theorem acceptWords_encode_cons {i : Instr} {s t : State} (h : exec i (bumpCmdcnt s) = .next t)
    (hf : s.fault = false) (ws : List CmdWord) :
    acceptWords (encode i :: ws) s = acceptWords ws t := by
  rw [acceptWords, acceptWord_encode hf, h]

theorem acceptWords_encode_last {i : Instr} {s t : State} (h : exec i (bumpCmdcnt s) = .next t)
    (hf : s.fault = false) : acceptWords [encode i] s = .next t :=
  acceptWords_encode_cons h hf []

/-! ### The three words before ENCODE -/

/-- COUNT of n written bytes completes with the table of its counting loop, whose sum is n (R120, R121). -/
theorem count_completes_counted {n : Imm} {s : State} {xs : List Symbol} (h0 : n ≠ 0) (hn : n ≤ s.cfg.ibufSize)
    (hlen : xs.length = n.toNat) (hxs : ibufHolds s xs) :
    ∃ ft, countLoop s.ibuf n.toNat 0 [] = .ok ft ∧ exec (.count n) s = .next (dropTree { s with ft := ft }) ∧
      ftSum ft = n.toNat := by
  obtain ⟨ft, hloop, hcounts⟩ := countLoop_counts xs s.ibuf hxs (hlen ▸ n.isLt)
  rw [hlen] at hloop
  refine ⟨ft, hloop, ?_, (ftSum_of_counts ft xs hcounts).trans hlen⟩
  show execCount n s = _
  rw [execCount_run n s h0 hn, hloop]

/-- BUILD of a table with a key completes with its finished merge loop, and GEN, the next word, with the codes of that
tree (R136, R150). -/
theorem build_gen_coded {s : State} (hkey : ∃ sym, ftAt s.ft sym ≠ 0) :
    1 ≤ ndist s.ft ∧ ∃ m ct, isMergeOf s.ft m ∧ codesOf m.node (m.pq.headD 0) = some ct ∧
      exec .build s = .next (builtState s m) ∧
      exec .gen (bumpCmdcnt (builtState s m)) =
        .next { bumpCmdcnt (builtState s m) with ct := ct, ctValid := true } := by
  obtain ⟨_, hl, _, hbuild⟩ := build_completes hkey
  obtain ⟨m, hm, hbuilt⟩ := build_next_isMergeOf hl hbuild
  obtain ⟨hstands, hroot⟩ := isMergeOf_tree hl hm
  obtain ⟨ct, hct, _⟩ := codesOf_spec hstands hl hroot
  exact ⟨hl, m, ct, hm, hct, hbuilt ▸ hbuild, gen_completes rfl hct⟩

/-- COUNT n, BUILD and GEN complete on n written bytes and leave the code table of the bytes; whatever words follow run
from there. -/
theorem coded_completes {n : Imm} {s : State} {xs : List Symbol} (hf : s.fault = false) (h0 : n ≠ 0)
    (hn : n ≤ s.cfg.ibufSize) (hlen : xs.length = n.toNat) (hxs : ibufHolds s xs) :
    ∃ u, CodedFrom n s u ∧ u.cmdcnt = s.cmdcnt + 3 ∧
      ∀ ws, acceptWords (encode (.count n) :: encode .build :: encode .gen :: ws) s = acceptWords ws u := by
  obtain ⟨ft, hcounted, hcount, hsum⟩ := count_completes_counted (s := bumpCmdcnt s) h0 hn hlen hxs
  have hsum0 : ftSum ft ≠ 0 := fun hz => h0 (BitVec.eq_of_toNat_eq (hsum.symm.trans hz))
  obtain ⟨hl, m, ct, hm, hct, hbuild, hgen⟩ := build_gen_coded
    (s := bumpCmdcnt (dropTree { bumpCmdcnt s with ft := ft })) (exists_key_of_ftSum_ne_zero hsum0)
  refine ⟨_, ?coded, ?cmdcnt, fun ws => (acceptWords_encode_cons hcount hf _).trans
    ((acceptWords_encode_cons hbuild hf _).trans (acceptWords_encode_cons hgen hf ws))⟩
  case coded => exact ⟨hf, rfl, rfl, rfl, rfl, hcounted, hl, rfl, ⟨m, hm, rfl, rfl, rfl⟩, hct⟩
  case cmdcnt =>
    show s.cmdcnt + 1 + 1 + 1 = s.cmdcnt + 3
    rw [BitVec.add_assoc, BitVec.add_assoc]
    rfl

namespace CodedFrom

variable {n : Imm} {s u : State} {xs : List Symbol}

/-- ROOTF is the number of symbols counted (R121, R136). -/
theorem toNat_rootf (h : CodedFrom n s u) (hlen : xs.length = n.toNat) (hxs : ibufHolds s xs) :
    u.rootf.toNat = n.toNat := by
  obtain ⟨_, ⟨s0, hft, rfl⟩, _, _, hrootf⟩ := h.built
  have hl : 1 ≤ ndist s0.ft := hft ▸ h.hasKey
  obtain ⟨_, hfreq⟩ := (build_merged s0 hl).root_freq hl
  rw [hrootf, hfreq, hft, ftSum_of_counts u.ft xs (h.counts hlen hxs), hlen]

theorem ctWf (h : CodedFrom n s u) : ctWf u.ct = true :=
  codesOf_ctWf _ _ _ h.coded

end CodedFrom

/-! ### The size of a frame (R154, R161) -/

theorem length_bodyBits_le {ct : Tab Code} (h : ctWf ct = true) (xs : List Symbol) :
    (bodyBits ct xs).length ≤ 255 * xs.length := by
  have hcode : ∀ k ∈ xs.map (fun x => (ctAt ct x).length), k ≤ 255 := by
    intro k hk
    obtain ⟨x, _, rfl⟩ := List.mem_map.mp hk
    exact length_ctAt_le ct h x
  have hsum := List.sum_le_card_nsmul _ 255 hcode
  rwa [List.length_map, smul_eq_mul, Nat.mul_comm, ← length_bodyBits] at hsum

theorem length_frameOf_le {ct : Tab Code} (h : ctWf ct = true) (xs : List Symbol) :
    (frameOf ct xs).length ≤ 8710 + 32 * xs.length := by
  have hhead := length_header_le h xs.length
  have hbody := length_bodyBits_le h xs
  rw [length_frameOf, bytesFor]
  omega

/-! ### The fourth word -/

/-- All symbols have codes and the frame does not fit, be it for its header or for its body (R161, R165). -/
theorem encode_dstOverflow {n : Imm} {s : State} {xs : List Symbol} (hvalid : s.ctValid = true) (h0 : n ≠ 0)
    (hn : n ≤ s.cfg.ibufSize) (hxs : ibufHolds s xs) (hlen : n.toNat = xs.length) (hcodes : ∀ x ∈ xs, ctAt s.ct x ≠ [])
    (hover : s.cfg.obufSize.toNat < (frameOf s.ct xs).length) :
    ∃ obuf, exec (.encode n) s = .next (raise .dstOverflow { s with obuf := obuf }) := by
  by_cases hhead : (header n.toNat s.ct).length ≤ s.cfg.obufSize.toNat
  · exact encode_frameOverflow hvalid h0 hn hxs hlen hcodes hhead hover
  · exact ⟨s.obuf, encode_headerOverflow hvalid h0 hn (Nat.not_le.mp hhead)⟩

/-- Settles O42: the three words leave a table with a code for every symbol of the input, with which ENCODE writes the
frame if it fits and raises DST_OVERFLOW if not. -/
theorem compressRuns : Obligations.CompressRuns := by
  unfold Obligations.CompressRuns
  refine ⟨fun n s xs hf h0 hn hlen hxs => ?_, fun s => compress_emptyInput⟩
  obtain ⟨u, hu, hcmdcnt, hrun⟩ := coded_completes hf h0 hn hlen hxs
  have hn' : n ≤ (bumpCmdcnt u).cfg.ibufSize := hu.cfg ▸ hn
  have hxs' : ibufHolds (bumpCmdcnt u) xs := by rwa [ibufHolds, bumpCmdcnt_ibuf, hu.ibuf]
  have hcodes := hu.input_coded hlen hxs
  refine ⟨u, hrun [], hlen ▸ length_frameOf_le hu.ctWf xs, fun hfit => ?_, fun hover => ?_⟩
  · rw [← hu.cfg] at hfit
    obtain ⟨obuf, hencode, hbytes⟩ := encode_completes (s := bumpCmdcnt u) hu.ctValid h0 hn' hxs' hlen.symm hcodes hfit
    obtain ⟨holen, htbits⟩ := toNat_frame_registers hfit
    refine ⟨_, (hrun _).trans (acceptWords_encode_last hencode hu.fault), hu.fault, hu.treeValid, hu.ctValid, rfl,
      holen, fun a ha => (hbytes a).trans (if_pos ha), hu.toNat_rootf hlen hxs, htbits, ?_⟩
    show u.cmdcnt + 1 = s.cmdcnt + 4
    rw [hcmdcnt, BitVec.add_assoc]
    rfl
  · rw [← hu.cfg] at hover
    obtain ⟨obuf, hencode⟩ := encode_dstOverflow (s := bumpCmdcnt u) hu.ctValid h0 hn' hxs' hlen.symm hcodes hover
    exact ⟨_, (hrun _).trans (acceptWords_encode_last hencode hu.fault), rfl, rfl, rfl⟩

end Sys2Proof.Machine
end

section
/-! Faults (60_exceptions.md): the ERR value of a cause (R220), fault entry (R226), what a faulting command leaves as it
was (R230), and the latch until CLR (R232). -/

namespace Sys2Proof.Machine

open Sys2Proof

/-! ### Fault entry (R220, R226) -/

/-- ERR as a number: SUB in the high byte, CLASS in the low one (R24, R220). -/
theorem toNat_causeErr (c : Cause) : (causeErr c).toNat = (causeSub c).toNat * 256 + (causeClass c).toNat := by
  rw [causeErr, BitVec.toNat_append, ← Nat.shiftLeft_add_eq_or_of_lt (causeClass c).isLt, Nat.shiftLeft_eq]

theorem readReg_raise_err (c : Cause) (s : State) :
    readReg (raise c s) 1 = some (BitVec.ofNat 32 ((causeSub c).toNat * 256 + (causeClass c).toNat)) := by
  rw [← toNat_causeErr, BitVec.ofNat_toNat]
  rfl

/-- Settles O46: fault entry is a record update of four fields, and ERR reads as its two bytes by weight. -/
theorem faultEntryLatches : Obligations.FaultEntryLatches := by
  unfold Obligations.FaultEntryLatches
  exact fun c s => ⟨rfl, readReg_raise_err c s, BitVec.toNat_ofNat _ _, rfl⟩

/-- Settles O47: each ERR value joins the SUB and CLASS of its row, and the last column is the cause's argument or 0. -/
theorem faultCodes : Obligations.FaultCodes := by
  unfold Obligations.FaultCodes
  simp [causeErr, causeSub, causeClass, causeInfo]

/-! ### A faulting command (R230) -/

/-- A command that sets the latch ends by fault entry, with nothing but OBUF written before. -/
theorem CommandEnds.fault_entry {i : Instr} {s t : State} (h : CommandEnds s i t) (hs : s.fault = false)
    (ht : t.fault = true) : ∃ c obuf, t = raise c { s with obuf := obuf } := by
  cases h with
  | testFault _ c => exact ⟨c, s.obuf, rfl⟩
  | encodeFault | decodeFault => exact ⟨_, _, rfl⟩
  | _ => simp [hs] at ht

theorem productsSame_raise (c : Cause) (s : State) (obuf : Memory) :
    productsSame s (raise c { s with obuf := obuf }) :=
  ⟨rfl, rfl, rfl, rfl, rfl, rfl, rfl, rfl, rfl, rfl⟩

/-- Settles O48: such a command ends by fault entry, which keeps the tables, the flags and the result registers and
clears OLEN. -/
theorem faultsArePrecise : Obligations.FaultsArePrecise := by
  unfold Obligations.FaultsArePrecise
  intro i s t hs hexec ht
  have h := exec_ends i s t hexec
  obtain ⟨c, obuf, rfl⟩ := h.fault_entry hs ht
  exact ⟨productsSame_raise c s obuf, h.outsideSame, raise_olen _ _, h.obuf⟩

/-! ### The latch until CLR (R232) -/

theorem acceptWords_append {ws : List CmdWord} {s t : State} (h : acceptWords ws s = .next t) (vs : List CmdWord) :
    acceptWords (ws ++ vs) s = acceptWords vs t := by
  induction ws generalizing s with
  | nil =>
    cases h
    rfl
  | cons w ws ih =>
    rw [acceptWords] at h
    rw [List.cons_append, acceptWords]
    cases hw : acceptWord w s with
    | next u =>
      rw [hw] at h
      exact ih h
    | fault | refused => simp [hw] at h

/-- The CLR word clears the block, whatever FAULT is (R211). -/
theorem acceptWords_clr (s : State) : acceptWords [clrWord] s = .next (clearBlock (bumpCmdcnt s)) := by
  rw [acceptWords, acceptWord_clr, exec_clr]
  rfl

/-- Settles O13: words other than CLR are discarded under FAULT = 1, and CLR runs in the state they leave. -/
theorem faultLatchIsSticky : Obligations.FaultLatchIsSticky := by
  unfold Obligations.FaultLatchIsSticky
  intro ws s hf hws
  have hkept := acceptWords_discarded ws s hf hws
  exact ⟨hkept, _, (acceptWords_append hkept _).trans (acceptWords_clr _), rfl, rfl, rfl⟩

end Sys2Proof.Machine
end

section
/-! The host's accesses to the buffers and the registers (R258, R68): what each of them answers, and that the answer
to a read leaves the same read's answer as it is. -/

namespace Sys2Proof.Machine

open Sys2Proof

/-! ### IBUF (R36) -/

theorem hostAct_writeIbuf {s : State} {a : Nat} (v : Byte) (h : a < s.cfg.ibufSize.toNat) :
    hostAct (.writeIbuf a v) s = .next { s with ibuf := memPut s.ibuf a v } :=
  if_neg (by omega)

theorem hostAct_writeIbuf_outside {s : State} {a : Nat} (v : Byte) (h : s.cfg.ibufSize.toNat ≤ a) :
    hostAct (.writeIbuf a v) s = .fault (.noIbufByte a) :=
  if_pos h

theorem hostAct_readIbuf {s : State} {a : Nat} (h : a < s.cfg.ibufSize.toNat) :
    hostAct (.readIbuf a) s = .next { s with reply := .byte (ibufRead s a) } :=
  if_neg (by omega)

theorem hostAct_readIbuf_outside {s : State} {a : Nat} (h : s.cfg.ibufSize.toNat ≤ a) :
    hostAct (.readIbuf a) s = .fault (.noIbufByte a) :=
  if_pos h

/-- Reading IBUF twice gives one answer (R68). -/
theorem hostAct_readIbuf_again {s t : State} {a : Nat} (h : hostAct (.readIbuf a) s = .next t) :
    hostAct (.readIbuf a) t = .next t := by
  obtain ha | ha := Nat.lt_or_ge a s.cfg.ibufSize.toNat
  · rw [hostAct_readIbuf ha] at h
    cases h
    exact hostAct_readIbuf ha
  · rw [hostAct_readIbuf_outside ha] at h
    cases h

/-! ### OBUF (R37) -/

theorem obufDefined_below {s : State} {a : Nat} (h : a < s.olen.toNat) : obufDefined s a = memGet s.obuf a :=
  if_pos h

theorem obufDefined_above {s : State} {a : Nat} (h : s.olen.toNat ≤ a) : obufDefined s a = none :=
  if_neg (by omega)

theorem hostAct_readObuf {s : State} {a : Nat} (h : a < s.cfg.obufSize.toNat) :
    hostAct (.readObuf a) s = .next (answerByte s (obufDefined s a)) :=
  if_neg (by omega)

theorem hostAct_readObuf_outside {s : State} {a : Nat} (h : s.cfg.obufSize.toNat ≤ a) :
    hostAct (.readObuf a) s = .fault (.noObufByte a) :=
  if_pos h

theorem hostAct_readObuf_defined {s : State} {a : Nat} {v : Byte} (h : a < s.cfg.obufSize.toNat)
    (hlen : a < s.olen.toNat) (hv : memGet s.obuf a = some v) :
    hostAct (.readObuf a) s = .next { s with reply := .byte v } := by
  rw [hostAct_readObuf h, obufDefined_below hlen, hv]
  rfl

theorem hostAct_readObuf_undefined {s : State} {a : Nat} (h : a < s.cfg.obufSize.toNat) (hlen : s.olen.toNat ≤ a) :
    hostAct (.readObuf a) s =
      .next { s with reply := .byte (Config.freeByte s.freeCtr), freeCtr := s.freeCtr + 1 } := by
  rw [hostAct_readObuf h, obufDefined_above hlen]
  rfl

/-- Reading a defined byte of OBUF twice gives one answer (R68). -/
theorem hostAct_readObuf_again {s t : State} {a : Nat} (hlen : a < s.olen.toNat) (hv : (memGet s.obuf a).isSome)
    (h : hostAct (.readObuf a) s = .next t) : hostAct (.readObuf a) t = .next t := by
  obtain ⟨v, hv⟩ := Option.isSome_iff_exists.mp hv
  obtain ha | ha := Nat.lt_or_ge a s.cfg.obufSize.toNat
  · rw [hostAct_readObuf_defined ha hlen hv] at h
    cases h
    exact hostAct_readObuf_defined ha hlen hv
  · rw [hostAct_readObuf_outside ha] at h
    cases h

/-! ### The registers (R22, R31) -/

theorem readReg_eq_none (s : State) {r : Nat} (h : 12 ≤ r) : readReg s r = none := by
  obtain ⟨_, _, _, _, _, _, _, _, _, _, hnone⟩ := registerMap s
  exact hnone r h

theorem hostAct_readReg {s : State} {r : Nat} {v : RegWord} (h : readReg s r = some v) :
    hostAct (.readReg r) s = .next { s with reply := .reg v } := by
  simp only [hostAct, h]

theorem hostAct_readReg_none {s : State} {r : Nat} (h : readReg s r = none) :
    hostAct (.readReg r) s = .refused (.noSuchRegister r) := by
  simp only [hostAct, h]

/-- The reply is no register's contents. -/
theorem readReg_reply (s : State) (p : Reply) (r : Nat) : readReg { s with reply := p } r = readReg s r := rfl

/-- Reading a register twice gives one answer (R68). -/
theorem hostAct_readReg_again {s t : State} {r : Nat} (h : hostAct (.readReg r) s = .next t) :
    hostAct (.readReg r) t = .next t := by
  cases hr : readReg s r with
  | none =>
    rw [hostAct_readReg_none hr] at h
    cases h
  | some v =>
    rw [hostAct_readReg hr] at h
    cases h
    exact hostAct_readReg ((readReg_reply s _ r).trans hr)

/-- Settles O51: each access by its own rule; the second reads of R68 follow from the rules of the first. -/
theorem hostAccessesBuffersAndRegisters : Obligations.HostAccessesBuffersAndRegisters := by
  unfold Obligations.HostAccessesBuffersAndRegisters
  refine ⟨fun _ _ v h => ⟨_, hostAct_writeIbuf v h, memGet_memPut_same .., fun _ hb => memGet_memPut_ne _ v hb.symm⟩,
    fun s a v h hv => ?_,
    fun s a h hv => ?_,
    fun _ _ _ => hostAct_readObuf_defined,
    fun _ _ => hostAct_readObuf_undefined,
    fun _ _ h => ⟨hostAct_readIbuf_outside h, fun v => hostAct_writeIbuf_outside v h⟩,
    fun _ _ => hostAct_readObuf_outside,
    fun _ _ _ => hostAct_readReg,
    fun s _ h => hostAct_readReg_none (readReg_eq_none s h),
    fun _ _ _ => rfl,
    fun _ _ _ => rfl,
    fun _ _ _ => hostAct_readIbuf_again,
    fun _ _ _ => hostAct_readReg_again,
    fun _ _ _ => hostAct_readObuf_again⟩
  · rw [hostAct_readIbuf h, ibufRead_written s a v hv]
  · rw [hostAct_readIbuf h, ibufRead_unwritten s a hv]

end Sys2Proof.Machine
end

section
/-! Every command ends (R194, R256): a command is refused only at an unwritten byte it may read, and GEN alone can
fault, which a finalized tree rules out. -/

namespace Sys2Proof.Machine

open Sys2Proof

/-! ### No refusal (R251) -/

/-- On the bytes the host owes it a command meets no unwritten one, so it is not refused. -/
theorem exec_ne_refused {i : Instr} {s : State} (hread : readable i s) (r : Refusal) : exec i s ≠ .refused r := by
  intro h
  obtain ⟨a, _, hnone, ha, hn⟩ := exec_refused_inv i s r h
  cases i with
  | nop | clr | build | gen => exact absurd ha (Nat.not_lt_zero a)
  | ldf => cases h
  | count | encode | decode => simpa [hnone] using hread hn a ha

/-! ### No fault -/

theorem stopOutcome_ne_fault (s : State) (e : Stop) (r : Fault) : stopOutcome s e ≠ .fault r := by
  cases e <;> nofun

/-- A command but GEN has no fault of the machine. -/
theorem exec_ne_fault {i : Instr} (hi : i ≠ .gen) (s : State) (r : Fault) : exec i s ≠ .fault r := by
  cases i with
  | nop | clr | ldf => nofun
  | gen => exact absurd rfl hi
  | count n =>
    simp only [exec, execCount]
    split_ifs
    · nofun
    · nofun
    · split
      · exact stopOutcome_ne_fault s _ r
      · nofun
  | build =>
    simp only [exec, execBuild]
    split_ifs <;> nofun
  | encode n =>
    simp only [exec, execEncode]
    split_ifs
    · nofun
    · nofun
    · nofun
    · split
      · exact stopOutcome_ne_fault s _ r
      · nofun
  | decode m =>
    simp only [exec, execDecode]
    split_ifs
    · nofun
    · split
      · exact stopOutcome_ne_fault s _ r
      · nofun

/-- GEN ends: NO_TREE without a tree, and the finalized tree of R43 (d) has a code table. -/
theorem gen_ends {s : State} (htree : s.treeOk) : ∃ t, exec .gen s = .next t := by
  cases hvalid : s.treeValid with
  | false => exact ⟨_, gen_noTree hvalid⟩
  | true =>
    obtain ⟨hl, _, hroot, hstands, _, _⟩ := htree hvalid
    obtain ⟨ct, hct, _⟩ := codesOf_spec hstands hl hroot
    exact ⟨_, gen_completes hvalid hct⟩

/-- Settles O54: GEN ends by its tree, and of any other command neither a fault nor a refusal is left. -/
theorem everyCommandEnds : Obligations.EveryCommandEnds := by
  unfold Obligations.EveryCommandEnds
  intro i s htree hread
  by_cases hgen : i = .gen
  · subst hgen
    exact gen_ends htree
  cases h : exec i s with
  | next t => exact ⟨t, rfl⟩
  | fault r => exact absurd h (exec_ne_fault hgen s r)
  | refused r => exact absurd h (exec_ne_refused hread r)

end Sys2Proof.Machine
end
